-- ==== Sys2Proof/Word.lean ====
section
/-! DEFINITION. The word types of the block: 8-bit data, 16-bit instruction words and addresses, and the operand
fields of an instruction word (00_scope.md R9-R11, R19; 30_encoding.md R101, R102). Every value is unsigned (R22). -/

namespace Sys2Proof

/-- A data byte: a V register, a timer, a memory cell (R9, R13, R8). -/
abbrev Byte := BitVec 8

/-- A 16-bit quantity: an instruction word, I, PC, a stack entry (R10, R11, R12, R19). -/
abbrev Word := BitVec 16

/-- A 4-bit register number, naming V[x] (R102). -/
abbrev Reg := BitVec 4

/-- A 4-bit field used as a number: the row count `n` of Dxyn, a nibble of the word (R101). -/
abbrev Nibble := BitVec 4

/-- A 12-bit address field `nnn` (R101, R102). -/
abbrev Addr12 := BitVec 12

end Sys2Proof
end

