-- ==== Sys2Proof/Machine/Flags.lean ====
section
/-! DEFINITION. The flag computations: every flag is a byte 0 or 1 written to V[15] (42_alu.md R190-R192). -/

namespace Sys2Proof.Machine

/-- A comparison as the byte it writes to V[15]: 1 for true, 0 for false (R22). -/
def flagByte (c : Bool) : Byte := if c then 1 else 0

/-- Carry of 8xy4: the exact sum exceeds 255 (R190, R199). -/
def carryFlag (a b : Byte) : Byte := flagByte (decide (255 < a.toNat + b.toNat))

/-- "Not borrow" of a - b in 8xy5 and 8xy7: a > b, strictly, so equal operands give 0 (R190, R200, R202). -/
def notBorrowFlag (a b : Byte) : Byte := flagByte (decide (b.toNat < a.toNat))

/-- Bit 0 of the operand, shifted out by 8xy6 (R201). -/
def shrFlag (a : Byte) : Byte := flagByte (a.getLsbD 0)

/-- Bit 7 of the operand, shifted out by 8xyE (R203). -/
def shlFlag (a : Byte) : Byte := flagByte (a.getLsbD 7)

/-- The collision flag of Dxyn (R145). -/
def collisionFlag (hit : Bool) : Byte := flagByte hit

end Sys2Proof.Machine
end

