-- ==== Sys2Proof/Config.lean ====
section
/-! DEFINITION. What is fixed for one block (00_scope.md section 3) and the free values the spec leaves to the outside:
TIMER_DIVISOR is OPEN (R18, D14), the key lines and the random byte of a cycle the host script does not give are inputs
with no law (R260, R204, D21, R314). The opaque constants have no body, so nothing proved about the model can rest on
their values. -/

namespace Sys2Proof.Config

/-- MEM_SIZE (R8). -/
abbrev memSize : Nat := 4096

/-- The highest address (R8). -/
abbrev lastAddr : Nat := 0xFFF

/-- GLYPH_SIZE: the glyph table occupies 0x000-0x04F (R16). -/
abbrev glyphSize : Nat := 80

/-- PROGRAM_START (R17). -/
abbrev programStart : Nat := 0x200

/-- MAX_ROM = PROGRAM_LAST - PROGRAM_START + 1 = 0xE00 (R17, D34). -/
abbrev maxRom : Nat := 0xE00

/-- A value of the parameter GLYPH_ROM: the 80 bytes of a glyph table (R16). -/
abbrev GlyphRom := Vector Byte glyphSize

/-- The bytes of the table of 20_memory.md R73, one entry of five per digit.
PRESUMED by the spec itself ("from general knowledge, not in source", D13); log entry 4. -/
def defaultGlyphBytes : List Byte :=
  [0xF0, 0x90, 0x90, 0x90, 0xF0] ++ [0x20, 0x60, 0x20, 0x20, 0x70] ++
  [0xF0, 0x10, 0xF0, 0x80, 0xF0] ++ [0xF0, 0x10, 0xF0, 0x10, 0xF0] ++
  [0x90, 0x90, 0xF0, 0x10, 0x10] ++ [0xF0, 0x80, 0xF0, 0x10, 0xF0] ++
  [0xF0, 0x80, 0xF0, 0x90, 0xF0] ++ [0xF0, 0x10, 0x20, 0x40, 0x40] ++
  [0xF0, 0x90, 0xF0, 0x90, 0xF0] ++ [0xF0, 0x90, 0xF0, 0x10, 0xF0] ++
  [0xF0, 0x90, 0xF0, 0x90, 0x90] ++ [0xE0, 0x90, 0xE0, 0x90, 0xE0] ++
  [0xF0, 0x80, 0x80, 0x80, 0xF0] ++ [0xE0, 0x90, 0x90, 0x90, 0xE0] ++
  [0xF0, 0x80, 0xF0, 0x80, 0xF0] ++ [0xF0, 0x80, 0xF0, 0x80, 0x80]

/-- The default of the parameter GLYPH_ROM (R73, D13, 93_implementation_defined.md U11). -/
def defaultGlyphRom : GlyphRom := ⟨defaultGlyphBytes.toArray, by decide⟩

/-- One less than TIMER_DIVISOR, whose value is OPEN (R18, D14): no body. Log entry 3. -/
opaque timerDivisorLessOne : Nat

/-- TIMER_DIVISOR (N): an integer with N at least 1, of no known value (R18). -/
def timerDivisor : Nat := timerDivisorLessOne + 1

/-- The key lines sampled in the k-th cycle that the host script does not give (R260, R314): no body. Log entry 2. -/
opaque keysIn : Nat → BitVec 16

/-- The random byte of the k-th cycle that the host script does not give (R204, R314, D21): no body. Log entry 2. -/
opaque randIn : Nat → Byte

end Sys2Proof.Config
end

