-- ==== Sys2Proof/Syntax.lean ====
section
/-! DEFINITION. The instructions (one constructor per row of spec/opcode_table.json, 30_encoding.md R104), the
decoder's operation tags (R110), the rows of the decode table as data, the reasons a byte sequence is no instruction,
and the assembler notation as a tree (R112, R113). -/

namespace Sys2Proof

/-- The 34 instructions, in the order of R104. Each carries the fields its row names (R101, R103); the fields' types
are exactly the widths of R101, so no operand of an `Instr` lies outside its field. -/
inductive Instr where
  /-- 00E0 -/
  | cls
  /-- 00EE -/
  | ret
  /-- 1nnn -/
  | jp (nnn : Addr12)
  /-- 2nnn -/
  | call (nnn : Addr12)
  /-- 3xkk -/
  | seImm (x : Reg) (kk : Byte)
  /-- 4xkk -/
  | sneImm (x : Reg) (kk : Byte)
  /-- 5xy0 -/
  | seReg (x y : Reg)
  /-- 6xkk -/
  | ldImm (x : Reg) (kk : Byte)
  /-- 7xkk -/
  | addImm (x : Reg) (kk : Byte)
  /-- 8xy0 -/
  | ldReg (x y : Reg)
  /-- 8xy1 -/
  | orReg (x y : Reg)
  /-- 8xy2 -/
  | andReg (x y : Reg)
  /-- 8xy3 -/
  | xorReg (x y : Reg)
  /-- 8xy4 -/
  | addReg (x y : Reg)
  /-- 8xy5 -/
  | sub (x y : Reg)
  /-- 8xy6; y is decoded and ignored (R108) -/
  | shr (x y : Reg)
  /-- 8xy7 -/
  | subn (x y : Reg)
  /-- 8xyE; y is decoded and ignored (R108) -/
  | shl (x y : Reg)
  /-- 9xy0 -/
  | sneReg (x y : Reg)
  /-- Annn -/
  | ldI (nnn : Addr12)
  /-- Bnnn -/
  | jpV0 (nnn : Addr12)
  /-- Cxkk -/
  | rnd (x : Reg) (kk : Byte)
  /-- Dxyn -/
  | drw (x y : Reg) (n : Nibble)
  /-- Ex9E -/
  | skp (x : Reg)
  /-- ExA1 -/
  | sknp (x : Reg)
  /-- Fx07 -/
  | ldVxDT (x : Reg)
  /-- Fx0A -/
  | ldVxK (x : Reg)
  /-- Fx15 -/
  | ldDTVx (x : Reg)
  /-- Fx18 -/
  | ldSTVx (x : Reg)
  /-- Fx1E -/
  | addIVx (x : Reg)
  /-- Fx29 -/
  | ldFVx (x : Reg)
  /-- Fx33 -/
  | ldBVx (x : Reg)
  /-- Fx55 -/
  | ldMemVx (x : Reg)
  /-- Fx65 -/
  | ldVxMem (x : Reg)
deriving DecidableEq, Repr

/-- The decoder's operation tags, named and ordered as R110 lists them. -/
inductive OpTag where
  | CLS | RET | JP | CALL | SE_IMM | SNE_IMM | SE_REG | LD_IMM | ADD_IMM | LD_REG | OR | AND | XOR | ADD_REG | SUB
  | SHR | SUBN | SHL | SNE_REG | LD_I | JP_V0 | RND | DRW | SKP | SKNP | LD_VX_DT | LD_VX_K | LD_DT_VX | LD_ST_VX
  | ADD_I_VX | LD_F_VX | LD_B_VX | LD_MEM_VX | LD_VX_MEM
deriving DecidableEq, Repr

/-- The operation tag of an instruction (R110). -/
def Instr.tag : Instr → OpTag
  | .cls => .CLS
  | .ret => .RET
  | .jp _ => .JP
  | .call _ => .CALL
  | .seImm _ _ => .SE_IMM
  | .sneImm _ _ => .SNE_IMM
  | .seReg _ _ => .SE_REG
  | .ldImm _ _ => .LD_IMM
  | .addImm _ _ => .ADD_IMM
  | .ldReg _ _ => .LD_REG
  | .orReg _ _ => .OR
  | .andReg _ _ => .AND
  | .xorReg _ _ => .XOR
  | .addReg _ _ => .ADD_REG
  | .sub _ _ => .SUB
  | .shr _ _ => .SHR
  | .subn _ _ => .SUBN
  | .shl _ _ => .SHL
  | .sneReg _ _ => .SNE_REG
  | .ldI _ => .LD_I
  | .jpV0 _ => .JP_V0
  | .rnd _ _ => .RND
  | .drw _ _ _ => .DRW
  | .skp _ => .SKP
  | .sknp _ => .SKNP
  | .ldVxDT _ => .LD_VX_DT
  | .ldVxK _ => .LD_VX_K
  | .ldDTVx _ => .LD_DT_VX
  | .ldSTVx _ => .LD_ST_VX
  | .addIVx _ => .ADD_I_VX
  | .ldFVx _ => .LD_F_VX
  | .ldBVx _ => .LD_B_VX
  | .ldMemVx _ => .LD_MEM_VX
  | .ldVxMem _ => .LD_VX_MEM

/-- One row of the decode table: a word `w` selects it exactly when `w &&& mask = mtch` (R104). -/
structure Row where
  tag  : OpTag
  mtch : Word
  mask : Word
deriving DecidableEq, Repr

/-- Why a byte sequence is no instruction. -/
inductive DecodeReject where
  /-- fewer than the two bytes every instruction has (R100) -/
  | truncated
  /-- the word matches no row: DECODE_FAILURE(w) (R105, R107) -/
  | decodeFailure (w : Word)
deriving DecidableEq, Repr

/-- The mnemonics of the assembler notation (R112). -/
inductive Mnemonic where
  | CLS | RET | JP | CALL | SE | SNE | LD | ADD | OR | AND | XOR | SUB | SHR | SUBN | SHL | RND | DRW | SKP | SKNP
deriving DecidableEq, Repr

/-- An operand of the assembler notation: a register, a number, or one of the named operands (R112). A number and a
register number are as written, of any size; WellFormed.lean says which fit. -/
inductive AsmOperand where
  | v (x : Nat)
  | num (k : Nat)
  | I | DT | ST | K | F | B | memI
deriving DecidableEq, Repr

/-- One line of the notation: a mnemonic, then operands (R112). -/
structure AsmLine where
  op   : Mnemonic
  args : List AsmOperand
deriving DecidableEq, Repr

end Sys2Proof
end

