-- ==== Sys2Proof/WellFormed.lean ====
section
/-! DEFINITION. What is well formed among the things written from outside: a line of the assembler notation (each
number fits its field, R112), a row of the decode table (R104) and a ROM image (R90). An `Instr` needs no check of its
own: its operands' types are the fields' widths (R101), so every `Instr` is well formed. -/

namespace Sys2Proof

/-- A register number is 0 to 15 (R112: `V0`-`VF`). -/
def AsmOperand.registerFits : AsmOperand → Bool
  | .v x => decide (x < 16)
  | _ => true

/-- How many bits the number of this mnemonic and these operands may take: 12 for an address, 4 for the row count of
DRW, 8 otherwise (R112: "An address `nnn` must fit in 12 bits, a byte `kk` in 8 bits, and `n` in 4 bits"). -/
def AsmLine.numberBits (l : AsmLine) : Nat :=
  match l.op, l.args with
  | .JP, _ => 12
  | .CALL, _ => 12
  | .LD, .I :: _ => 12
  | .DRW, _ => 4
  | _, _ => 8

/-- A number fits the field it is written for. -/
def AsmOperand.numberFits (bits : Nat) : AsmOperand → Bool
  | .num k => decide (k < 2 ^ bits)
  | _ => true

/-- A line whose register numbers and numbers all fit their fields (R112). -/
def AsmLine.wellFormed (l : AsmLine) : Bool :=
  l.args.all (fun a => a.registerFits && a.numberFits l.numberBits)

/-- A row fixes the family nibble and its match sets no bit the mask leaves out (R104, R106). -/
def Row.wellFormed (r : Row) : Bool :=
  (r.mtch &&& ~~~r.mask) == 0#16 && (r.mask &&& 0xF000#16) == 0xF000#16

/-- A ROM image the loader accepts: at most MAX_ROM bytes (R90). -/
def romWellFormed (rom : List Byte) : Bool :=
  decide (rom.length ≤ Config.maxRom)

end Sys2Proof
end

