-- ==== Sys2Proof/Decode.lean ====
section
/-! DEFINITION. The decoder (30_encoding.md R100-R111), the decode table as data (R104), the encoder, and the
assembler notation's mapping onto the rows (R112, R113). -/

namespace Sys2Proof

/-! ## Fields of the word (R101) -/

/-- w[15:12], the opcode family. -/
def fieldFamily (w : Word) : Nibble := w.extractLsb' 12 4
/-- w[11:8]. -/
def fieldX (w : Word) : Reg := w.extractLsb' 8 4
/-- w[7:4]. -/
def fieldY (w : Word) : Reg := w.extractLsb' 4 4
/-- w[3:0]. -/
def fieldN (w : Word) : Nibble := w.extractLsb' 0 4
/-- w[7:0]. -/
def fieldKK (w : Word) : Byte := w.extractLsb' 0 8
/-- w[11:0]. -/
def fieldNNN (w : Word) : Addr12 := w.extractLsb' 0 12

/-! ## The decoder (R105, R106) -/

/-- Family 0x0: the whole word must be 0x00E0 or 0x00EE (R106). -/
def decodeFamily0 (w : Word) : Except DecodeReject Instr :=
  if w = 0x00E0#16 then .ok .cls
  else if w = 0x00EE#16 then .ok .ret
  else .error (.decodeFailure w)

/-- Family 0x8: `n` selects among 0 to 7 and E (R106). -/
def decodeFamily8 (w : Word) : Except DecodeReject Instr :=
  let x := fieldX w
  let y := fieldY w
  match fieldN w with
  | 0x0#4 => .ok (.ldReg x y)
  | 0x1#4 => .ok (.orReg x y)
  | 0x2#4 => .ok (.andReg x y)
  | 0x3#4 => .ok (.xorReg x y)
  | 0x4#4 => .ok (.addReg x y)
  | 0x5#4 => .ok (.sub x y)
  | 0x6#4 => .ok (.shr x y)
  | 0x7#4 => .ok (.subn x y)
  | 0xE#4 => .ok (.shl x y)
  | _ => .error (.decodeFailure w)

/-- Family 0xE: `kk` selects (R106). -/
def decodeFamilyE (w : Word) : Except DecodeReject Instr :=
  let x := fieldX w
  match fieldKK w with
  | 0x9E#8 => .ok (.skp x)
  | 0xA1#8 => .ok (.sknp x)
  | _ => .error (.decodeFailure w)

/-- Family 0xF: `kk` selects (R106). -/
def decodeFamilyF (w : Word) : Except DecodeReject Instr :=
  let x := fieldX w
  match fieldKK w with
  | 0x07#8 => .ok (.ldVxDT x)
  | 0x0A#8 => .ok (.ldVxK x)
  | 0x15#8 => .ok (.ldDTVx x)
  | 0x18#8 => .ok (.ldSTVx x)
  | 0x1E#8 => .ok (.addIVx x)
  | 0x29#8 => .ok (.ldFVx x)
  | 0x33#8 => .ok (.ldBVx x)
  | 0x55#8 => .ok (.ldMemVx x)
  | 0x65#8 => .ok (.ldVxMem x)
  | _ => .error (.decodeFailure w)

/-- `Decode(w)`: total, from the word alone; a word that matches no row is DECODE_FAILURE(w), never a no-op
(R105, R106, R111). -/
def decodeWord (w : Word) : Except DecodeReject Instr :=
  match fieldFamily w with
  | 0x0#4 => decodeFamily0 w
  | 0x1#4 => .ok (.jp (fieldNNN w))
  | 0x2#4 => .ok (.call (fieldNNN w))
  | 0x3#4 => .ok (.seImm (fieldX w) (fieldKK w))
  | 0x4#4 => .ok (.sneImm (fieldX w) (fieldKK w))
  | 0x5#4 => if fieldN w = 0#4 then .ok (.seReg (fieldX w) (fieldY w)) else .error (.decodeFailure w)
  | 0x6#4 => .ok (.ldImm (fieldX w) (fieldKK w))
  | 0x7#4 => .ok (.addImm (fieldX w) (fieldKK w))
  | 0x8#4 => decodeFamily8 w
  | 0x9#4 => if fieldN w = 0#4 then .ok (.sneReg (fieldX w) (fieldY w)) else .error (.decodeFailure w)
  | 0xA#4 => .ok (.ldI (fieldNNN w))
  | 0xB#4 => .ok (.jpV0 (fieldNNN w))
  | 0xC#4 => .ok (.rnd (fieldX w) (fieldKK w))
  | 0xD#4 => .ok (.drw (fieldX w) (fieldY w) (fieldN w))
  | 0xE#4 => decodeFamilyE w
  | _ => decodeFamilyF w

/-- The word of two consecutive bytes, the byte at the lower address in bits 15:8 (R77, R100). -/
def wordOfBytes (hi lo : Byte) : Word := hi ++ lo

/-- w[15:8], the byte stored at the lower address (R77). -/
def highByte (w : Word) : Byte := w.extractLsb' 8 8
/-- w[7:0], the byte stored at the higher address (R77). -/
def lowByte (w : Word) : Byte := w.extractLsb' 0 8

/-- Decode the instruction at the head of a byte sequence and give the bytes after it; every instruction is exactly
two bytes long (R100). -/
def decodeBytes : List Byte → Except DecodeReject (Instr × List Byte)
  | hi :: lo :: rest =>
    match decodeWord (wordOfBytes hi lo) with
    | .ok i => .ok (i, rest)
    | .error e => .error e
  | _ => .error .truncated

/-! ## The decode table as data (R104) -/

/-- The 34 rows of R104, in its order. -/
def opcodeTable : List Row :=
  [⟨.CLS, 0x00E0, 0xFFFF⟩, ⟨.RET, 0x00EE, 0xFFFF⟩, ⟨.JP, 0x1000, 0xF000⟩, ⟨.CALL, 0x2000, 0xF000⟩] ++
  [⟨.SE_IMM, 0x3000, 0xF000⟩, ⟨.SNE_IMM, 0x4000, 0xF000⟩, ⟨.SE_REG, 0x5000, 0xF00F⟩] ++
  [⟨.LD_IMM, 0x6000, 0xF000⟩, ⟨.ADD_IMM, 0x7000, 0xF000⟩, ⟨.LD_REG, 0x8000, 0xF00F⟩] ++
  [⟨.OR, 0x8001, 0xF00F⟩, ⟨.AND, 0x8002, 0xF00F⟩, ⟨.XOR, 0x8003, 0xF00F⟩, ⟨.ADD_REG, 0x8004, 0xF00F⟩] ++
  [⟨.SUB, 0x8005, 0xF00F⟩, ⟨.SHR, 0x8006, 0xF00F⟩, ⟨.SUBN, 0x8007, 0xF00F⟩, ⟨.SHL, 0x800E, 0xF00F⟩] ++
  [⟨.SNE_REG, 0x9000, 0xF00F⟩, ⟨.LD_I, 0xA000, 0xF000⟩, ⟨.JP_V0, 0xB000, 0xF000⟩, ⟨.RND, 0xC000, 0xF000⟩] ++
  [⟨.DRW, 0xD000, 0xF000⟩, ⟨.SKP, 0xE09E, 0xF0FF⟩, ⟨.SKNP, 0xE0A1, 0xF0FF⟩, ⟨.LD_VX_DT, 0xF007, 0xF0FF⟩] ++
  [⟨.LD_VX_K, 0xF00A, 0xF0FF⟩, ⟨.LD_DT_VX, 0xF015, 0xF0FF⟩, ⟨.LD_ST_VX, 0xF018, 0xF0FF⟩] ++
  [⟨.ADD_I_VX, 0xF01E, 0xF0FF⟩, ⟨.LD_F_VX, 0xF029, 0xF0FF⟩, ⟨.LD_B_VX, 0xF033, 0xF0FF⟩] ++
  [⟨.LD_MEM_VX, 0xF055, 0xF0FF⟩, ⟨.LD_VX_MEM, 0xF065, 0xF0FF⟩]

/-- A word selects a row exactly when `(w & mask) == match` (R104). -/
def Row.selects (r : Row) (w : Word) : Bool := (w &&& r.mask) == r.mtch

/-- The row a word selects, if any: the table read as R105 reads it. -/
def rowOfWord (w : Word) : Option Row := opcodeTable.find? (fun r => r.selects w)

/-! ## The encoder -/

/-- The word of an instruction, from R104's match column and R101's fields. -/
def encode : Instr → Word
  | .cls => 0x00E0#16
  | .ret => 0x00EE#16
  | .jp nnn => 0x1#4 ++ nnn
  | .call nnn => 0x2#4 ++ nnn
  | .seImm x kk => 0x3#4 ++ x ++ kk
  | .sneImm x kk => 0x4#4 ++ x ++ kk
  | .seReg x y => 0x5#4 ++ x ++ y ++ 0x0#4
  | .ldImm x kk => 0x6#4 ++ x ++ kk
  | .addImm x kk => 0x7#4 ++ x ++ kk
  | .ldReg x y => 0x8#4 ++ x ++ y ++ 0x0#4
  | .orReg x y => 0x8#4 ++ x ++ y ++ 0x1#4
  | .andReg x y => 0x8#4 ++ x ++ y ++ 0x2#4
  | .xorReg x y => 0x8#4 ++ x ++ y ++ 0x3#4
  | .addReg x y => 0x8#4 ++ x ++ y ++ 0x4#4
  | .sub x y => 0x8#4 ++ x ++ y ++ 0x5#4
  | .shr x y => 0x8#4 ++ x ++ y ++ 0x6#4
  | .subn x y => 0x8#4 ++ x ++ y ++ 0x7#4
  | .shl x y => 0x8#4 ++ x ++ y ++ 0xE#4
  | .sneReg x y => 0x9#4 ++ x ++ y ++ 0x0#4
  | .ldI nnn => 0xA#4 ++ nnn
  | .jpV0 nnn => 0xB#4 ++ nnn
  | .rnd x kk => 0xC#4 ++ x ++ kk
  | .drw x y n => 0xD#4 ++ x ++ y ++ n
  | .skp x => 0xE#4 ++ x ++ 0x9E#8
  | .sknp x => 0xE#4 ++ x ++ 0xA1#8
  | .ldVxDT x => 0xF#4 ++ x ++ 0x07#8
  | .ldVxK x => 0xF#4 ++ x ++ 0x0A#8
  | .ldDTVx x => 0xF#4 ++ x ++ 0x15#8
  | .ldSTVx x => 0xF#4 ++ x ++ 0x18#8
  | .addIVx x => 0xF#4 ++ x ++ 0x1E#8
  | .ldFVx x => 0xF#4 ++ x ++ 0x29#8
  | .ldBVx x => 0xF#4 ++ x ++ 0x33#8
  | .ldMemVx x => 0xF#4 ++ x ++ 0x55#8
  | .ldVxMem x => 0xF#4 ++ x ++ 0x65#8

/-- The two bytes of an instruction as memory holds them, high byte first (R77). -/
def encodeBytes (i : Instr) : List Byte := [highByte (encode i), lowByte (encode i)]

/-- The instruction the decoder reads from an instruction whose bits are `w`, numbered as spec/opcode_table.json
numbers them; the bits above `nbits` are 0. -/
def decodeTableWord (nbits w : Nat) : Option Instr :=
  let word : Word := BitVec.ofNat 16 (w % 2 ^ nbits)
  match decodeBytes [highByte word, lowByte word] with
  | .ok (i, _) => some i
  | .error _ => none

/-! ## The assembler notation (R112, R113): one line per row, by operand shapes -/

/-- The notation of an instruction (R104's mnemonic column). -/
def Instr.toAsm : Instr → AsmLine
  | .cls => ⟨.CLS, []⟩
  | .ret => ⟨.RET, []⟩
  | .jp nnn => ⟨.JP, [.num nnn.toNat]⟩
  | .call nnn => ⟨.CALL, [.num nnn.toNat]⟩
  | .seImm x kk => ⟨.SE, [.v x.toNat, .num kk.toNat]⟩
  | .sneImm x kk => ⟨.SNE, [.v x.toNat, .num kk.toNat]⟩
  | .seReg x y => ⟨.SE, [.v x.toNat, .v y.toNat]⟩
  | .ldImm x kk => ⟨.LD, [.v x.toNat, .num kk.toNat]⟩
  | .addImm x kk => ⟨.ADD, [.v x.toNat, .num kk.toNat]⟩
  | .ldReg x y => ⟨.LD, [.v x.toNat, .v y.toNat]⟩
  | .orReg x y => ⟨.OR, [.v x.toNat, .v y.toNat]⟩
  | .andReg x y => ⟨.AND, [.v x.toNat, .v y.toNat]⟩
  | .xorReg x y => ⟨.XOR, [.v x.toNat, .v y.toNat]⟩
  | .addReg x y => ⟨.ADD, [.v x.toNat, .v y.toNat]⟩
  | .sub x y => ⟨.SUB, [.v x.toNat, .v y.toNat]⟩
  | .shr x y => ⟨.SHR, [.v x.toNat, .v y.toNat]⟩
  | .subn x y => ⟨.SUBN, [.v x.toNat, .v y.toNat]⟩
  | .shl x y => ⟨.SHL, [.v x.toNat, .v y.toNat]⟩
  | .sneReg x y => ⟨.SNE, [.v x.toNat, .v y.toNat]⟩
  | .ldI nnn => ⟨.LD, [.I, .num nnn.toNat]⟩
  | .jpV0 nnn => ⟨.JP, [.v 0, .num nnn.toNat]⟩
  | .rnd x kk => ⟨.RND, [.v x.toNat, .num kk.toNat]⟩
  | .drw x y n => ⟨.DRW, [.v x.toNat, .v y.toNat, .num n.toNat]⟩
  | .skp x => ⟨.SKP, [.v x.toNat]⟩
  | .sknp x => ⟨.SKNP, [.v x.toNat]⟩
  | .ldVxDT x => ⟨.LD, [.v x.toNat, .DT]⟩
  | .ldVxK x => ⟨.LD, [.v x.toNat, .K]⟩
  | .ldDTVx x => ⟨.LD, [.DT, .v x.toNat]⟩
  | .ldSTVx x => ⟨.LD, [.ST, .v x.toNat]⟩
  | .addIVx x => ⟨.ADD, [.I, .v x.toNat]⟩
  | .ldFVx x => ⟨.LD, [.F, .v x.toNat]⟩
  | .ldBVx x => ⟨.LD, [.B, .v x.toNat]⟩
  | .ldMemVx x => ⟨.LD, [.memI, .v x.toNat]⟩
  | .ldVxMem x => ⟨.LD, [.v x.toNat, .memI]⟩

/-- The instruction whose row has a line's mnemonic and operand shapes (R113), ignoring whether the numbers fit. SHR and
SHL take an optional Vy; when it is omitted, y = 0 (R112). -/
def instrOfShape : AsmLine → Option Instr
  | ⟨.CLS, []⟩ => some .cls
  | ⟨.RET, []⟩ => some .ret
  | ⟨.JP, [.num k]⟩ => some (.jp (BitVec.ofNat 12 k))
  | ⟨.JP, [.v 0, .num k]⟩ => some (.jpV0 (BitVec.ofNat 12 k))
  | ⟨.CALL, [.num k]⟩ => some (.call (BitVec.ofNat 12 k))
  | ⟨.SE, [.v x, .num k]⟩ => some (.seImm (BitVec.ofNat 4 x) (BitVec.ofNat 8 k))
  | ⟨.SE, [.v x, .v y]⟩ => some (.seReg (BitVec.ofNat 4 x) (BitVec.ofNat 4 y))
  | ⟨.SNE, [.v x, .num k]⟩ => some (.sneImm (BitVec.ofNat 4 x) (BitVec.ofNat 8 k))
  | ⟨.SNE, [.v x, .v y]⟩ => some (.sneReg (BitVec.ofNat 4 x) (BitVec.ofNat 4 y))
  | ⟨.LD, [.v x, .num k]⟩ => some (.ldImm (BitVec.ofNat 4 x) (BitVec.ofNat 8 k))
  | ⟨.LD, [.v x, .v y]⟩ => some (.ldReg (BitVec.ofNat 4 x) (BitVec.ofNat 4 y))
  | ⟨.LD, [.I, .num k]⟩ => some (.ldI (BitVec.ofNat 12 k))
  | ⟨.LD, [.v x, .DT]⟩ => some (.ldVxDT (BitVec.ofNat 4 x))
  | ⟨.LD, [.v x, .K]⟩ => some (.ldVxK (BitVec.ofNat 4 x))
  | ⟨.LD, [.DT, .v x]⟩ => some (.ldDTVx (BitVec.ofNat 4 x))
  | ⟨.LD, [.ST, .v x]⟩ => some (.ldSTVx (BitVec.ofNat 4 x))
  | ⟨.LD, [.F, .v x]⟩ => some (.ldFVx (BitVec.ofNat 4 x))
  | ⟨.LD, [.B, .v x]⟩ => some (.ldBVx (BitVec.ofNat 4 x))
  | ⟨.LD, [.memI, .v x]⟩ => some (.ldMemVx (BitVec.ofNat 4 x))
  | ⟨.LD, [.v x, .memI]⟩ => some (.ldVxMem (BitVec.ofNat 4 x))
  | ⟨.ADD, [.v x, .num k]⟩ => some (.addImm (BitVec.ofNat 4 x) (BitVec.ofNat 8 k))
  | ⟨.ADD, [.v x, .v y]⟩ => some (.addReg (BitVec.ofNat 4 x) (BitVec.ofNat 4 y))
  | ⟨.ADD, [.I, .v x]⟩ => some (.addIVx (BitVec.ofNat 4 x))
  | ⟨.OR, [.v x, .v y]⟩ => some (.orReg (BitVec.ofNat 4 x) (BitVec.ofNat 4 y))
  | ⟨.AND, [.v x, .v y]⟩ => some (.andReg (BitVec.ofNat 4 x) (BitVec.ofNat 4 y))
  | ⟨.XOR, [.v x, .v y]⟩ => some (.xorReg (BitVec.ofNat 4 x) (BitVec.ofNat 4 y))
  | ⟨.SUB, [.v x, .v y]⟩ => some (.sub (BitVec.ofNat 4 x) (BitVec.ofNat 4 y))
  | ⟨.SHR, [.v x]⟩ => some (.shr (BitVec.ofNat 4 x) 0)
  | ⟨.SHR, [.v x, .v y]⟩ => some (.shr (BitVec.ofNat 4 x) (BitVec.ofNat 4 y))
  | ⟨.SUBN, [.v x, .v y]⟩ => some (.subn (BitVec.ofNat 4 x) (BitVec.ofNat 4 y))
  | ⟨.SHL, [.v x]⟩ => some (.shl (BitVec.ofNat 4 x) 0)
  | ⟨.SHL, [.v x, .v y]⟩ => some (.shl (BitVec.ofNat 4 x) (BitVec.ofNat 4 y))
  | ⟨.RND, [.v x, .num k]⟩ => some (.rnd (BitVec.ofNat 4 x) (BitVec.ofNat 8 k))
  | ⟨.DRW, [.v x, .v y, .num k]⟩ => some (.drw (BitVec.ofNat 4 x) (BitVec.ofNat 4 y) (BitVec.ofNat 4 k))
  | ⟨.SKP, [.v x]⟩ => some (.skp (BitVec.ofNat 4 x))
  | ⟨.SKNP, [.v x]⟩ => some (.sknp (BitVec.ofNat 4 x))
  | _ => none

/-- The instruction a line of the notation stands for: none where a number does not fit its field or no row has the
line's operand shapes (R112, R113). -/
def assemble (l : AsmLine) : Option Instr :=
  if l.wellFormed then instrOfShape l else none

end Sys2Proof
end

