-- ==== Sys2Proof/Machine/State.lean ====
section
/-! DEFINITION. The state of the block, as plain data (10_state.md R30-R52), the reasons a step could stop, and the
state after reset (R51, 70_reset_and_hazards.md R361). -/

namespace Sys2Proof.Machine

/-- Memory: the bytes that differ from the contents after initialise without a ROM, as (address, byte) pairs at strictly
rising addresses below 4096 (R70; log entry 5). -/
abbrev Memory := List Host.Cell

/-- The driver's three states (R46, R310). -/
inductive Driver where
  | running
  | paused
  | stopped
deriving DecidableEq, Repr

/-- The eight errors (R301). -/
inductive ErrCode where
  | romTooLarge
  | decodeFailure
  | stackOverflow
  | stackUnderflow
  | addressRange
  | glyphWrite
  | keyIndexRange
  | iOverflow
deriving DecidableEq, Repr

/-- The access kind of the error record (R49, R302). -/
inductive AccessKind where
  | none
  | fetch
  | read
  | write
deriving DecidableEq, Repr

/-- What an instruction raises: the error, its detail and its access kind (R301, R302). -/
structure BlockError where
  code   : ErrCode
  detail : BitVec 17
  kind   : AccessKind
deriving DecidableEq, Repr

/-- The error record once an error is recorded; "none, code 0" is the absence of a record (R49, R302). -/
structure ErrRecord where
  code   : ErrCode
  pc     : Word
  word   : Word
  detail : BitVec 17
  kind   : AccessKind
deriving DecidableEq, Repr

/-- A pause or resume request (R310, R314). -/
inductive DriverReq where
  | pause
  | resume
deriving DecidableEq, Repr

/-- The inputs that come with a cycle request: the key lines, bit k = key k, and the random byte (R314). -/
structure CycleInput where
  keys : BitVec 16
  rand : Byte
deriving DecidableEq, Repr

/-- What the host sends in a gap between two cycle requests, or in a part of one (R314, R315): the requests, pause and
resume in the order sent, the presenter's draw_ack, and the cycle it requests last, if any. An entry of the script that
requests no cycle belongs to the same gap as the next (`HostGap.take`; log entry 14). -/
structure HostGap where
  quit       : Bool
  reset      : Bool
  driverReqs : List DriverReq
  drawAck    : Bool
  cycle      : Option CycleInput
deriving DecidableEq, Repr

/-- The block's state (R30), and the model's own four last fields: the parameter GLYPH_ROM and the inputs, which R31 has a
model take from outside (log entries 2, 4 and 6). -/
structure State where
  /-- memory, 4096 bytes (R70) -/
  mem : Memory
  /-- V[0..15] (R32) -/
  v : Vector Byte 16
  /-- I (R35) -/
  regI : Word
  /-- PC (R36) -/
  pc : Word
  /-- stack[0..15] (R38, R40) -/
  stack : Vector Word 16
  /-- SP, 0..16 (R39) -/
  sp : Fin 17
  /-- DT (R41) -/
  dt : Byte
  /-- ST (R42) -/
  st : Byte
  /-- the display: one 64-bit row per r, bit c = column c (R43, R140) -/
  fb : Vector (BitVec 64) 32
  /-- key[0..15], bit k = key k (R44) -/
  key : BitVec 16
  /-- draw_requested (R45, R147) -/
  drawRequested : Bool
  /-- awaiting_key (R45, R267) -/
  awaitingKey : Bool
  /-- the driver state, which determines the flags running and paused (R46) -/
  driver : Driver
  /-- cyc, the cycles since the last timer decrement (R47) -/
  cyc : Nat
  /-- last_instr (R48) -/
  lastInstr : Word
  /-- err (R49) -/
  err : Option ErrRecord
  /-- the model's own: the rand_in byte of the cycle being run (R314) -/
  rand : Byte
  /-- the model's own: the host's actions still to come, in the order sent (R315) -/
  host : List HostGap
  /-- the model's own: how many cycles took their inputs from the free values -/
  draws : Nat
  /-- the parameter GLYPH_ROM (R16, R31, R73), an argument of `State.initialise`; no step writes it -/
  glyphRom : Config.GlyphRom
deriving DecidableEq, Repr

/-- Why the machine would stop with a fault. It has NO constructor, so no one raises it (safe): every error of the spec
is described whole (R301-R304) and is a NEXT state, with err recorded and the driver Stopped; nothing else stops the
block. -/
inductive Fault where
deriving DecidableEq, Repr

/-- Why a step has no meaning. -/
inductive Refusal where
  /-- raised by an arm of `exec` whose instruction has no meaning yet (safe); no arm of this model raises it -/
  | notModelled (mnemonic : String)
deriving DecidableEq, Repr

/-- Every field zero or empty: step 1 of initialise (R360). The driver is not yet in any of its states there; Stopped
stands in the record because running and paused are 0 (R46). -/
def State.zeroed : State where
  mem := []
  v := Vector.replicate 16 0
  regI := 0
  pc := 0
  stack := Vector.replicate 16 0
  sp := 0
  dt := 0
  st := 0
  fb := Vector.replicate 32 0
  key := 0
  drawRequested := false
  awaitingKey := false
  driver := .stopped
  cyc := 0
  lastInstr := 0
  err := none
  rand := 0
  host := []
  draws := 0
  glyphRom := Vector.replicate Config.glyphSize 0

/-- The machine right after reset, the "after reset" column of R51 (R361), with GLYPH_ROM at its default and no ROM in memory: PC at 0x200, Running,
draw_requested 1, everything else clear (log entry 1). -/
def State.reset : State where
  mem := []
  v := Vector.replicate 16 0
  regI := 0
  pc := 0x200
  stack := Vector.replicate 16 0
  sp := 0
  dt := 0
  st := 0
  fb := Vector.replicate 32 0
  key := 0
  drawRequested := true
  awaitingKey := false
  driver := .running
  cyc := 0
  lastInstr := 0
  err := none
  rand := 0
  host := []
  draws := 0
  glyphRom := Config.defaultGlyphRom

end Sys2Proof.Machine
end

