-- ==== Sys2Proof/Machine/Ops.lean ====
section
/-! DEFINITION. The named operations over memory, registers, stack, display and PC that the meanings share, and the one
operation by which an instruction raises an error (20_memory.md, 10_state.md, 60_exceptions.md R301-R304). -/

namespace Sys2Proof.Machine

/-! ## Memory (20_memory.md) -/

/-- What an unlisted address reads as: the contents after initialise without a ROM, the glyph table at 0x000-0x04F and
0x00 above (R51, R71, R73, R360; log entry 5). `g` is the parameter GLYPH_ROM, here and in every memory operation. -/
def Memory.background (g : Config.GlyphRom) (a : Nat) : Byte := if h : a < Config.glyphSize then g[a] else 0

/-- The byte at an address (R74, without its check). -/
def Memory.read (g : Config.GlyphRom) : Memory → Nat → Byte
  | [], a => Memory.background g a
  | (c, d) :: t, a => if a = c then d else Memory.read g t a

/-- Put a byte at an address, keeping the list canonical: the entry goes where the background already has the byte. -/
def Memory.write (g : Config.GlyphRom) : Memory → Nat → Byte → Memory
  | [], a, b => if b = Memory.background g a then [] else [(a, b)]
  | (c, d) :: t, a, b =>
    if a < c then (if b = Memory.background g a then (c, d) :: t else (a, b) :: (c, d) :: t)
    else if a = c then (if b = Memory.background g a then t else (a, b) :: t)
    else (c, d) :: Memory.write g t a b

/-- Put bytes at ascending addresses from `a` (R79). -/
def Memory.writeBytes (g : Config.GlyphRom) (m : Memory) (a : Nat) : List Byte → Memory
  | [] => m
  | b :: bs => Memory.writeBytes g (Memory.write g m a b) (a + 1) bs

/-- The canonical form from address `lo` on: strictly rising addresses, each below 4096 and not below `lo`, no entry
equal to the background. -/
def Memory.wfFrom (g : Config.GlyphRom) : Nat → Memory → Bool
  | _, [] => true
  | lo, (a, b) :: t =>
    decide (lo ≤ a) && decide (a < Config.memSize) && decide (b ≠ Memory.background g a) && Memory.wfFrom g (a + 1) t

/-- The canonical form of a memory. -/
def Memory.wf (g : Config.GlyphRom) (m : Memory) : Bool := Memory.wfFrom g 0 m

/-- The error of one byte access at the exact address `a`, if it has one: ADDRESS_RANGE above 0xFFF with the address
and the kind; GLYPH_WRITE for a write at or below 0x04F, kind none (R74, R75, R76, R302). -/
def accessError (kind : AccessKind) (a : Nat) : Option BlockError :=
  if Config.lastAddr < a then some ⟨.addressRange, BitVec.ofNat 17 a, kind⟩
  else if kind = .write ∧ a < Config.glyphSize then some ⟨.glyphWrite, BitVec.ofNat 17 a, .none⟩
  else none

/-- The error of an access to the `n` bytes from `a`: that of the lowest address that has one (R80). -/
def rangeError (kind : AccessKind) (a n : Nat) : Option BlockError :=
  (List.range n).findSome? (fun k => accessError kind (a + k))

/-- The byte at an address of the state's memory. -/
def State.readByte (s : State) (a : Nat) : Byte := Memory.read s.glyphRom s.mem a

/-- The `n` bytes from `a`, ascending (R79). -/
def State.readBytes (s : State) (a n : Nat) : List Byte := (List.range n).map (fun k => s.readByte (a + k))

/-- Store bytes at ascending addresses from `a`, after their range was checked (R75, R80). -/
def State.storeBytes (s : State) (a : Nat) (bytes : List Byte) : State :=
  { s with mem := Memory.writeBytes s.glyphRom s.mem a bytes }

/-- `Fetch16(a)`: the two bytes at `a` and `a + 1`, high byte first, or ADDRESS_RANGE of kind fetch with the lowest
address above 0xFFF (R77). -/
def State.fetch16 (s : State) (a : Nat) : Except BlockError Word :=
  match rangeError .fetch a 2 with
  | some e => .error e
  | none => .ok (wordOfBytes (s.readByte a) (s.readByte (a + 1)))

/-- The state with an instruction's word placed at PC, high byte first (R77), for `State.withFetchWord`. -/
def State.placeWord (s : State) (w : Word) : State := s.storeBytes s.pc.toNat [highByte w, lowByte w]

/-! ## Registers (10_state.md R32-R39) -/

/-- V[15], the flag register VF (R34). -/
def regVF : Reg := 15#4

/-- V[0], the base register of Bnnn (R169). -/
def regV0 : Reg := 0#4

/-- `V[x]` read: none is hard-wired (R32). -/
def State.getV (s : State) (x : Reg) : Byte := s.v[x.toNat]'(x.isLt)

/-- `V[x] <- b` (R32). -/
def State.setV (s : State) (x : Reg) (b : Byte) : State := { s with v := s.v.set x.toNat b x.isLt }

/-- `I <- a`. -/
def State.setI (s : State) (a : Word) : State := { s with regI := a }

/-- Write a result to V[x] first and the flag to V[15] second, so the flag wins when x = 15 (R191, D3). -/
def State.setVFlag (s : State) (x : Reg) (result flag : Byte) : State := (s.setV x result).setV regVF flag

/-- V[0..x]: write V[k] from the bytes at `a + k`, ascending (R236). -/
def State.loadRegs (s : State) (a : Nat) (x : Reg) : State :=
  (List.range (x.toNat + 1)).foldl (fun t k => t.setV (BitVec.ofNat 4 k) (s.readByte (a + k))) s

/-- The bytes V[0], ..., V[x] (R235). -/
def State.regBytes (s : State) (x : Reg) : List Byte :=
  (List.range (x.toNat + 1)).map (fun k => s.getV (BitVec.ofNat 4 k))

/-- stack[j]. -/
def State.stackAt (s : State) (j : Fin 16) : Word := s.stack[j]

/-- SP as the 5 bits that hold it (R12). -/
def State.spBits (s : State) : BitVec 5 := BitVec.ofNat 5 s.sp.val

/-- Push: `stack[SP] <- a; SP <- SP + 1`; none when SP = 16 (R39, R164). -/
def State.push? (s : State) (a : Word) : Option State :=
  if h : s.sp.val < 16 then
    some { s with stack := s.stack.set s.sp.val a h, sp := ⟨s.sp.val + 1, by omega⟩ }
  else none

/-- Pop: `SP <- SP - 1`, then the entry stack[SP], which keeps its value (R39, R40); none when SP = 0 (R162). -/
def State.pop? (s : State) : Option (Word × State) :=
  if h : 0 < s.sp.val then
    some (s.stack[s.sp.val - 1]'(by omega), { s with sp := ⟨s.sp.val - 1, by omega⟩ })
  else none

/-! ## Program counter (R36, R160) -/

/-- `PC <- target`. -/
def State.setPC (s : State) (target : Word) : State := { s with pc := target }

/-- The default advance, `PC <- PC + 2` (R160). -/
def State.advance (s : State) : State := { s with pc := s.pc + 2 }

/-- A skip: `PC <- PC + 4` when the condition holds, `PC + 2` otherwise (R161). -/
def State.skipIf (s : State) (c : Bool) : State := { s with pc := s.pc + if c then 4 else 2 }

/-! ## Display (40_display.md R140, R143) -/

/-- The framebuffer address decoder: the bit index of the pixel in row r, column c (R140). -/
def pixelIndex (r : Fin 32) (c : Fin 64) : Nat := r.val * 64 + c.val

/-- fb[r][c] of a display. -/
def pixelOf (fb : Vector (BitVec 64) 32) (r : Fin 32) (c : Fin 64) : Bool := fb[r].getLsbD c.val

/-- fb[r][c] (R43). -/
def State.pixel (s : State) (r : Fin 32) (c : Fin 64) : Bool := pixelOf s.fb r c

/-- `fb[r][c] <- fb[r][c] XOR 1` (R143). -/
def flipPixel (fb : Vector (BitVec 64) 32) (r : Fin 32) (c : Fin 64) : Vector (BitVec 64) 32 :=
  fb.set r.val (fb[r] ^^^ (1#64 <<< c.val)) r.isLt

/-! ## Raising an error (60_exceptions.md R301-R304) -/

/-- Record an error and stop the block: err holds the code, the instruction's address (PC, unchanged), the word, the
detail and the kind, and the driver enters Stopped, which makes running and paused 0. Nothing else changes (R302, R303,
R304). There is no return from it: the block has no trap mechanism and Stopped is terminal (R306, R310). -/
def State.raiseWith (s : State) (word : Word) (e : BlockError) : State :=
  { s with err := some ⟨e.code, s.pc, word, e.detail, e.kind⟩, driver := .stopped }

/-- `raise E(info)` inside an instruction: the word recorded is the fetched one, which last_instr holds (R302, R48). -/
def State.raise (s : State) (e : BlockError) : State := s.raiseWith s.lastInstr e

/-- An instruction that raises `e?` if there is one and otherwise ends in `t` (R303: none of its writes happen). -/
def State.raiseOr (s : State) (e? : Option BlockError) (t : State) : State :=
  match e? with
  | some e => s.raise e
  | none => t

end Sys2Proof.Machine
end

