-- ==== Sys2Proof/Machine/Operands.lean ====
section
/-! DEFINITION. How operands are formed: addresses (43_index_memory.md R230), jump targets, the glyph address, decimal
digits, sprite coordinates (40_display.md R142) and key indexes (44_keys_timers.md R260, R261). -/

namespace Sys2Proof.Machine

/-- `zext_16(nnn)` (R102). -/
def absoluteAddr (nnn : Addr12) : Word := nnn.setWidth 16

/-- `zext_16(nnn) + zext_16(V[0])`, at most 0x10FE, so the 16-bit sum is exact (R169). -/
def indexedTarget (s : State) (nnn : Addr12) : Word := nnn.setWidth 16 + (s.getV regV0).setWidth 16

/-- The exact address in I (R70). -/
def State.addrI (s : State) : Nat := s.regI.toNat

/-- `zext_16(V[x]) * 5`, the full value of V[x] (R233). -/
def glyphAddr (d : Byte) : Word := d.setWidth 16 * 5

/-- The exact sum I + V[x] (R232). -/
def indexSum (s : State) (x : Reg) : Nat := s.addrI + (s.getV x).toNat

/-- I_OVERFLOW(I), when the exact sum does not fit 16 bits (R232, R301, D7). -/
def indexSumError (s : State) (x : Reg) : Option BlockError :=
  if 0xFFFF < indexSum s x then some ⟨.iOverflow, s.regI.setWidth 17, .none⟩ else none

/-- `I <- a + x + 1` of Fx55 and Fx65 (R235, R236); exact, since a + x <= 0xFFF there. -/
def advancedI (s : State) (x : Reg) : Word := BitVec.ofNat 16 (s.addrI + x.toNat + 1)

/-- The hundreds, tens and ones of a byte (R234). -/
def bcdDigits (v : Byte) : List Byte := [v / 100, v / 10 % 10, v % 10]

/-- `X0 = V[x] mod 64` (R142). -/
def spriteX (s : State) (x : Reg) : Nat := (s.getV x).toNat % 64

/-- `Y0 = V[y] mod 32` (R142). -/
def spriteY (s : State) (y : Reg) : Nat := (s.getV y).toNat % 32

/-- A column, reduced modulo 64 (R142). -/
def wrapCol (c : Nat) : Fin 64 := ⟨c % 64, Nat.mod_lt _ (by decide)⟩

/-- A row, reduced modulo 32 (R142). -/
def wrapRow (r : Nat) : Fin 32 := ⟨r % 32, Nat.mod_lt _ (by decide)⟩

/-- Bit j of a sprite byte, column 0 being bit 7 (R141). -/
def spriteBit (b : Byte) (j : Nat) : Bool := b.getLsbD (7 - j)

/-- `key[k] = 1` (R44, R260). -/
def State.keyDown (s : State) (k : Nat) : Bool := s.key.getLsbD k

/-- KEY_INDEX_RANGE(V[x]) when V[x] > 15 (R261). -/
def keyIndexError (k : Byte) : Option BlockError :=
  if 15 < k.toNat then some ⟨.keyIndexRange, k.setWidth 17, .none⟩ else none

/-- The lowest index with key[k] = 1, if some key is down (R267, D6). -/
def State.lowestKey? (s : State) : Option Nat := (List.range 16).find? (fun k => s.keyDown k)

end Sys2Proof.Machine
end

