-- ==== Sys2Proof/Machine/Alu.lean ====
section
/-! DEFINITION. Register loads and the ALU: 6xkk, 7xkk, 8xy0-8xy7, 8xyE, Cxkk (42_alu.md). Results are modulo 256, which
`Byte` arithmetic is (R190); operands are read before anything is written and a flag is written last (R191). -/

namespace Sys2Proof.Machine

open Host (Outcome)

/-- Write V[x] and advance: the shape of every instruction here that sets no flag. -/
def setAndAdvance (s : State) (x : Reg) (b : Byte) : Outcome State Fault Refusal := .next (s.setV x b).advance

/-- Write V[x], then the flag to V[15], and advance (R191). -/
def setFlagAndAdvance (s : State) (x : Reg) (b flag : Byte) : Outcome State Fault Refusal :=
  .next (s.setVFlag x b flag).advance

/-- 6xkk, LD Vx, kk (R193). -/
def execLdImm (x : Reg) (kk : Byte) (s : State) : Outcome State Fault Refusal := setAndAdvance s x kk

/-- 7xkk, ADD Vx, kk: no flag (R194). -/
def execAddImm (x : Reg) (kk : Byte) (s : State) : Outcome State Fault Refusal := setAndAdvance s x (s.getV x + kk)

/-- 8xy0, LD Vx, Vy (R195). -/
def execLdReg (x y : Reg) (s : State) : Outcome State Fault Refusal := setAndAdvance s x (s.getV y)

/-- 8xy1, OR Vx, Vy: VF unchanged unless x = 15 (R196, R192). -/
def execOrReg (x y : Reg) (s : State) : Outcome State Fault Refusal := setAndAdvance s x (s.getV x ||| s.getV y)

/-- 8xy2, AND Vx, Vy (R197, R192). -/
def execAndReg (x y : Reg) (s : State) : Outcome State Fault Refusal := setAndAdvance s x (s.getV x &&& s.getV y)

/-- 8xy3, XOR Vx, Vy (R198, R192). -/
def execXorReg (x y : Reg) (s : State) : Outcome State Fault Refusal := setAndAdvance s x (s.getV x ^^^ s.getV y)

/-- 8xy4, ADD Vx, Vy, flag: carry (R199). -/
def execAddReg (x y : Reg) (s : State) : Outcome State Fault Refusal :=
  setFlagAndAdvance s x (s.getV x + s.getV y) (carryFlag (s.getV x) (s.getV y))

/-- 8xy5, SUB Vx, Vy, flag: V[x] > V[y] (R200). -/
def execSub (x y : Reg) (s : State) : Outcome State Fault Refusal :=
  setFlagAndAdvance s x (s.getV x - s.getV y) (notBorrowFlag (s.getV x) (s.getV y))

/-- 8xy6, SHR Vx: logical, y ignored, flag: old bit 0 (R201). -/
def execShr (x _y : Reg) (s : State) : Outcome State Fault Refusal :=
  setFlagAndAdvance s x (s.getV x >>> 1) (shrFlag (s.getV x))

/-- 8xy7, SUBN Vx, Vy, flag: V[y] > V[x] (R202). -/
def execSubn (x y : Reg) (s : State) : Outcome State Fault Refusal :=
  setFlagAndAdvance s x (s.getV y - s.getV x) (notBorrowFlag (s.getV y) (s.getV x))

/-- 8xyE, SHL Vx: y ignored, flag: old bit 7 (R203). -/
def execShl (x _y : Reg) (s : State) : Outcome State Fault Refusal :=
  setFlagAndAdvance s x (s.getV x <<< 1) (shlFlag (s.getV x))

/-- Cxkk, RND Vx, kk: the cycle's random byte AND kk (R204). -/
def execRnd (x : Reg) (kk : Byte) (s : State) : Outcome State Fault Refusal := setAndAdvance s x (s.rand &&& kk)

end Sys2Proof.Machine
end

