-- ==== Sys2Proof/Machine/Control.lean ====
section
/-! DEFINITION. Control transfer and the stack controller: 00EE, 1nnn, 2nnn, 3xkk, 4xkk, 5xy0, 9xy0, Bnnn
(41_control_flow.md). A target is never checked when it is set, only by the fetch that uses it (R172). -/

namespace Sys2Proof.Machine

open Host (Outcome)

/-- 00EE, RET: pop the top entry into PC, with no further advance; STACK_UNDERFLOW(0) when SP = 0 (R162, R301). -/
def execRet (s : State) : Outcome State Fault Refusal :=
  .next (match s.pop? with
    | some (a, t) => t.setPC a
    | none => s.raise ⟨.stackUnderflow, 0, .none⟩)

/-- 1nnn, JP nnn (R163). -/
def execJp (nnn : Addr12) (s : State) : Outcome State Fault Refusal := .next (s.setPC (absoluteAddr nnn))

/-- 2nnn, CALL nnn: push PC + 2 and jump; STACK_OVERFLOW(16) when SP = 16 (R164, R301). -/
def execCall (nnn : Addr12) (s : State) : Outcome State Fault Refusal :=
  .next (match s.push? (s.pc + 2) with
    | some t => t.setPC (absoluteAddr nnn)
    | none => s.raise ⟨.stackOverflow, 16, .none⟩)

/-- 3xkk, SE Vx, kk (R165). -/
def execSeImm (x : Reg) (kk : Byte) (s : State) : Outcome State Fault Refusal :=
  .next (s.skipIf (decide (s.getV x = kk)))

/-- 4xkk, SNE Vx, kk (R166). -/
def execSneImm (x : Reg) (kk : Byte) (s : State) : Outcome State Fault Refusal :=
  .next (s.skipIf (decide (s.getV x ≠ kk)))

/-- 5xy0, SE Vx, Vy (R167). -/
def execSeReg (x y : Reg) (s : State) : Outcome State Fault Refusal :=
  .next (s.skipIf (decide (s.getV x = s.getV y)))

/-- 9xy0, SNE Vx, Vy (R168). -/
def execSneReg (x y : Reg) (s : State) : Outcome State Fault Refusal :=
  .next (s.skipIf (decide (s.getV x ≠ s.getV y)))

/-- Bnnn, JP V0, nnn: the exact sum, never reduced to 12 bits (R169). -/
def execJpV0 (nnn : Addr12) (s : State) : Outcome State Fault Refusal := .next (s.setPC (indexedTarget s nnn))

end Sys2Proof.Machine
end

