-- ==== Sys2Proof/Machine/Display.lean ====
section
/-! DEFINITION. The display instructions 00E0 and Dxyn (40_display.md). -/

namespace Sys2Proof.Machine

open Host (Outcome)

/-- A display with the collision found so far. -/
abbrev Canvas := Vector (BitVec 64) 32 × Bool

/-- Composite one sprite bit: a 1 flips the pixel and is a collision if the pixel was on; a 0 leaves it (R143). -/
def drawBit (r : Fin 32) (c : Fin 64) (on : Bool) (p : Canvas) : Canvas :=
  if on then (flipPixel p.1 r c, p.2 || pixelOf p.1 r c) else p

/-- Composite the eight bits of one sprite byte on row r from column `x0`, wrapping (R142). -/
def drawByte (x0 : Nat) (r : Fin 32) (b : Byte) (p : Canvas) : Canvas :=
  (List.range 8).foldl (fun q j => drawBit r (wrapCol (x0 + j)) (spriteBit b j) q) p

/-- Composite the sprite's bytes on rows `y0`, `y0 + 1`, ..., wrapping (R142). -/
def drawBytes (x0 y0 : Nat) : List Byte → Canvas → Canvas
  | [], p => p
  | b :: bs, p => drawBytes x0 (y0 + 1) bs (drawByte x0 (wrapRow y0) b p)

/-- 00E0, CLS (R144). -/
def execCls (s : State) : Outcome State Fault Refusal :=
  .next ({ s with fb := Vector.replicate 32 0, drawRequested := true } : State).advance

/-- The state after the `n` rows at I are composited at (V[x] mod 64, V[y] mod 32): the flag goes to V[15] last and
draw_requested is set (R145). -/
def drawSprite (s : State) (x y : Reg) (n : Nibble) : State :=
  let p := drawBytes (spriteX s x) (spriteY s y) (s.readBytes s.addrI n.toNat) (s.fb, false)
  ({ s with fb := p.1, drawRequested := true } : State).setV regVF (collisionFlag p.2)

/-- Dxyn, DRW Vx, Vy, n: ADDRESS_RANGE if a sprite byte lies above 0xFFF, with nothing drawn (R145, R80). -/
def execDrw (x y : Reg) (n : Nibble) (s : State) : Outcome State Fault Refusal :=
  .next (s.raiseOr (rangeError .read s.addrI n.toNat) (drawSprite s x y n).advance)

end Sys2Proof.Machine
end

