-- ==== Sys2Proof/Machine/Index.lean ====
section
/-! DEFINITION. The index register and memory instructions: Annn, Fx1E, Fx29, Fx33, Fx55, Fx65 (43_index_memory.md). A
range is checked whole before anything is written (20_memory.md R80). -/

namespace Sys2Proof.Machine

open Host (Outcome)

/-- Annn, LD I, nnn (R231). -/
def execLdI (nnn : Addr12) (s : State) : Outcome State Fault Refusal := .next (s.setI (absoluteAddr nnn)).advance

/-- Fx1E, ADD I, Vx: no flag, no truncation; I_OVERFLOW(I) above 0xFFFF (R232). -/
def execAddIVx (x : Reg) (s : State) : Outcome State Fault Refusal :=
  .next (s.raiseOr (indexSumError s x) (s.setI (BitVec.ofNat 16 (indexSum s x))).advance)

/-- Fx29, LD F, Vx (R233). -/
def execLdFVx (x : Reg) (s : State) : Outcome State Fault Refusal := .next (s.setI (glyphAddr (s.getV x))).advance

/-- Fx33, LD B, Vx: the decimal digits at I, I+1, I+2; I unchanged (R234). -/
def execLdBVx (x : Reg) (s : State) : Outcome State Fault Refusal :=
  .next (s.raiseOr (rangeError .write s.addrI 3) (s.storeBytes s.addrI (bcdDigits (s.getV x))).advance)

/-- Fx55, LD [I], Vx: store V[0..x] from I, then I <- I + x + 1 (R235). -/
def execLdMemVx (x : Reg) (s : State) : Outcome State Fault Refusal :=
  .next (s.raiseOr (rangeError .write s.addrI (x.toNat + 1))
    ((s.storeBytes s.addrI (s.regBytes x)).setI (advancedI s x)).advance)

/-- Fx65, LD Vx, [I]: load V[0..x] from I, then I <- I + x + 1 (R236). -/
def execLdVxMem (x : Reg) (s : State) : Outcome State Fault Refusal :=
  .next (s.raiseOr (rangeError .read s.addrI (x.toNat + 1))
    ((s.loadRegs s.addrI x).setI (advancedI s x)).advance)

end Sys2Proof.Machine
end

