-- ==== Sys2Proof/Machine/KeysTimers.lean ====
section
/-! DEFINITION. The key and timer instructions: Ex9E, ExA1, Fx07, Fx0A, Fx15, Fx18 (44_keys_timers.md). -/

namespace Sys2Proof.Machine

open Host (Outcome)

/-- Ex9E, SKP Vx: KEY_INDEX_RANGE when V[x] > 15 (R262, R261). -/
def execSkp (x : Reg) (s : State) : Outcome State Fault Refusal :=
  .next (s.raiseOr (keyIndexError (s.getV x)) (s.skipIf (s.keyDown (s.getV x).toNat)))

/-- ExA1, SKNP Vx (R263, R261). -/
def execSknp (x : Reg) (s : State) : Outcome State Fault Refusal :=
  .next (s.raiseOr (keyIndexError (s.getV x)) (s.skipIf (!s.keyDown (s.getV x).toNat)))

/-- Fx07, LD Vx, DT (R264). -/
def execLdVxDT (x : Reg) (s : State) : Outcome State Fault Refusal := .next (s.setV x s.dt).advance

/-- Fx0A, LD Vx, K: while no key is down, awaiting_key <- 1 and PC stays; else the lowest key's index (R267). -/
def execLdVxK (x : Reg) (s : State) : Outcome State Fault Refusal :=
  .next (match s.lowestKey? with
    | none => { s with awaitingKey := true }
    | some k => ({ s.setV x (BitVec.ofNat 8 k) with awaitingKey := false } : State).advance)

/-- Fx15, LD DT, Vx (R265). -/
def execLdDTVx (x : Reg) (s : State) : Outcome State Fault Refusal :=
  .next ({ s with dt := s.getV x } : State).advance

/-- Fx18, LD ST, Vx (R266). -/
def execLdSTVx (x : Reg) (s : State) : Outcome State Fault Refusal :=
  .next ({ s with st := s.getV x } : State).advance

end Sys2Proof.Machine
end

