-- ==== Sys2Proof/Machine/Cycle.lean ====
section
/-! DEFINITION. One cycle: key sample, fetch, decode, execute, timer step (60_exceptions.md R311, R312). TIMER_DIVISOR is
an argument (R18); Step.lean supplies Config.timerDivisor. -/

namespace Sys2Proof.Machine

open Host (Outcome)

/-- Steps 1 of R311: the key sample, and the random byte the cycle comes with (R260, R314). -/
def State.sample (s : State) (inp : CycleInput) : State := { s with key := inp.keys, rand := inp.rand }

/-- Steps 2 and 3 of R311 on the sampled state: the decoded instruction with the state it executes in (last_instr
written), or the stopped state. A failed fetch records the word 0x0000 and leaves last_instr; a word that does not decode
is in last_instr and is the error's detail (R48, R301, R302). -/
def State.fetchDecode (s : State) : Except State (Instr × State) :=
  match s.fetch16 s.pc.toNat with
  | .error e => .error (s.raiseWith 0 e)
  | .ok w =>
    let t : State := { s with lastInstr := w }
    match decodeWord w with
    | .error _ => .error (t.raise ⟨.decodeFailure, w.setWidth 17, .none⟩)
    | .ok i => .ok (i, t)

/-- The decrement of one timer: by 1 if it is not 0 (R312, R313). -/
def timerDrop (t : Byte) : Byte := if t = 0 then 0 else t - 1

/-- The timer step (R312): cyc counts to N, then returns to 0 and both timers drop. -/
def State.timerStep (n : Nat) (s : State) : State :=
  { s with
    cyc := if s.cyc + 1 = n then 0 else s.cyc + 1
    dt := if s.cyc + 1 = n then timerDrop s.dt else s.dt
    st := if s.cyc + 1 = n then timerDrop s.st else s.st }

/-- Step 5 of R311: the timer step, unless the instruction raised an error, which stopped the block (R303). -/
def State.finishCycle (n : Nat) (s : State) : State := if s.driver = .running then s.timerStep n else s

/-- An executed instruction's outcome with the rest of its cycle. -/
def finishOutcome (n : Nat) : Outcome State Fault Refusal → Outcome State Fault Refusal
  | .next t => .next (t.finishCycle n)
  | .fault f => .fault f
  | .refused r => .refused r

/-- One cycle of a Running block (R311). -/
def runCycle (n : Nat) (inp : CycleInput) (s : State) : Outcome State Fault Refusal :=
  match (s.sample inp).fetchDecode with
  | .error t => .next t
  | .ok (i, t) => finishOutcome n (exec i t)

end Sys2Proof.Machine
end

