-- ==== Sys2Proof/Machine/Driver.lean ====
section
/-! DEFINITION. Initialise and reset (70_reset_and_hazards.md R360-R363), the driver's transitions (60_exceptions.md
R310), the host's actions in one gap between cycles in their order (R315), and what one step of the model is: one gap and
the cycle requested at its end, if any. -/

namespace Sys2Proof.Machine

open Host (Outcome)

/-! ## Initialise (R360, R90) -/

/-- Steps 1 to 3 of R360: everything zero, the glyph table written (it is what unlisted memory reads as), PC 0x200. -/
def State.created (glyphs : Config.GlyphRom) : State :=
  { State.zeroed with glyphRom := glyphs, pc := BitVec.ofNat 16 Config.programStart }

/-- The ROM in program space: memory[0x200 + i] <- rom[i], the rest zero (R90). -/
def State.loadRom (s : State) (rom : List Byte) : State := s.storeBytes Config.programStart rom

/-- The error record of a rejected ROM: pc 0, word 0, detail the length saturated to 0x1FFFF (R301, R302, R360). -/
def romTooLargeRecord (len : Nat) : ErrRecord := ⟨.romTooLarge, 0, 0, BitVec.ofNat 17 (min len 0x1FFFF), .none⟩

/-- Initialise (R360): the created state, the ROM loaded and the driver Running; a ROM over MAX_ROM bytes is rejected with
ROM_TOO_LARGE, no byte loaded, and the driver Stopped. The parameter GLYPH_ROM is an argument, with R73's table as its
default (R31, D13).
DESIGN CHOICE: R360 lists PC <- 0x200 as step 3 but lets it come at any point before step 5, so what PC holds after a
rejected ROM is open; the model takes the listed order, and PC is 0x200 there too (log entry 19). -/
def State.initialise (rom : List Byte) (glyphs : Config.GlyphRom := Config.defaultGlyphRom) : State :=
  if romWellFormed rom then { (State.created glyphs).loadRom rom with driver := .running }
  else { State.created glyphs with err := some (romTooLargeRecord rom.length), driver := .stopped }

/-! ## The driver's transitions (R310) -/

/-- The reset sequence: every volatile field returns to its start value, memory and err stay, draw_requested is 1 and the
driver Running (R361, R362). -/
def State.resetVolatile (s : State) : State :=
  { s with
    v := Vector.replicate 16 0
    regI := 0
    pc := BitVec.ofNat 16 Config.programStart
    stack := Vector.replicate 16 0
    sp := 0
    dt := 0
    st := 0
    fb := Vector.replicate 32 0
    key := 0
    awaitingKey := false
    cyc := 0
    lastInstr := 0
    drawRequested := true
    driver := .running }

/-- reset_req: nothing in Stopped (R361, R363). -/
def State.resetReq (s : State) : State := if s.driver = .stopped then s else s.resetVolatile

/-- quit_req: Stopped, which is terminal; err stays none (R310). -/
def State.quitReq (s : State) : State := { s with driver := .stopped }

/-- pause_req: Running to Paused; nothing otherwise (R310, D29). -/
def State.pauseReq (s : State) : State := if s.driver = .running then { s with driver := .paused } else s

/-- resume_req: Paused to Running; nothing otherwise (R310, D29). -/
def State.resumeReq (s : State) : State := if s.driver = .paused then { s with driver := .running } else s

/-- A pause or resume request. -/
def State.driverReq (s : State) : DriverReq → State
  | .pause => s.pauseReq
  | .resume => s.resumeReq

/-- draw_ack: draw_requested <- 0, in every driver state (R147; log entry 11). -/
def State.ackDraw (s : State) : State := { s with drawRequested := false }

/-- The host's actions in one gap but the cycle request, in the order of R315: quit, whose taking effect makes the later
ones void; reset; pause and resume as sent; draw_ack. Diagnostics reads change nothing (R317). -/
def State.gapActions (s : State) (g : HostGap) : State :=
  if g.quit = true ∧ s.driver ≠ .stopped then s.quitReq
  else
    let s1 := if g.reset then s.resetReq else s
    let s2 := g.driverReqs.foldl State.driverReq s1
    if g.drawAck then s2.ackDraw else s2

/-! ## The gap (R315) -/

/-- What is sent in `g` and then, with no cycle request between, in `h`: the actions of one gap, which R315 orders
together. -/
def HostGap.join (g h : HostGap) : HostGap :=
  ⟨g.quit || h.quit, g.reset || h.reset, g.driverReqs ++ h.driverReqs, g.drawAck || h.drawAck, h.cycle⟩

/-- The whole gap that begins with the entry `g`, up to the first cycle request or the end of the script, and the entries
after it. A cycle request ends the gap in every driver state: it is the last item of R315's order (log entry 14). -/
def HostGap.take (g : HostGap) : List HostGap → HostGap × List HostGap
  | [] => (g, [])
  | h :: rest => if g.cycle.isSome then (g, h :: rest) else (g.join h).take rest

/-- The next gap of the host script, with what follows it. -/
def State.nextGap (s : State) : Option (HostGap × List HostGap) :=
  match s.host with
  | [] => none
  | g :: rest => some (g.take rest)

/-! ## One step -/

/-- A gap in which the host only requests a cycle. -/
def HostGap.plainCycle (inp : CycleInput) : HostGap := ⟨false, false, [], false, some inp⟩

/-- A cycle request: it runs a cycle only if the driver is Running (R311, R315). -/
def requestCycle (n : Nat) (inp : CycleInput) (s : State) : Outcome State Fault Refusal :=
  if s.driver = .running then runCycle n inp s else .next s

/-- One gap: its actions and the cycle requested at its end, if any. -/
def runGap (n : Nat) (g : HostGap) (s : State) : Outcome State Fault Refusal :=
  match g.cycle with
  | some inp => requestCycle n inp (s.gapActions g)
  | none => .next (s.gapActions g)

/-- One step with TIMER_DIVISOR `n`: the next gap of the host script; when the script is empty the host only requests a
cycle, whose key lines and random byte are free values (log entry 2). -/
def stepWith (n : Nat) (s : State) : Outcome State Fault Refusal :=
  match s.nextGap with
  | some (g, rest) => runGap n g { s with host := rest }
  | none =>
    if s.driver = .running then
      runCycle n ⟨Config.keysIn s.draws, Config.randIn s.draws⟩ { s with draws := s.draws + 1 }
    else .next s

/-- The host script with which the next step only runs a cycle: kept if its first entry is that, else emptied. -/
def plainHost : List HostGap → List HostGap
  | ⟨false, false, [], false, some inp⟩ :: rest => .plainCycle inp :: rest
  | _ => []

end Sys2Proof.Machine
end

