-- ==== Sys2Proof/Machine/Step.lean ====
section
/-! DEFINITION. The step of the block with the open TIMER_DIVISOR of Config (R18, R311, R315), and the placing of a word
where the next step fetches it. -/

namespace Sys2Proof.Machine

/-- One step: the host's actions in one gap and the cycle requested at its end (log entry 2). -/
def step (s : State) : Host.Outcome State Fault Refusal := stepWith Config.timerDivisor s

/-- The state whose next step fetches and runs exactly the instruction `w` (bits above `nbits` zero): the word at PC, the
driver Running, and the next entry of the host script, if any, a plain cycle request. It stands for the ROM load that
initialise does (R90, R360; log entry 1). PC is not moved: from a PC above 0xFFE nothing can be fetched (R77). -/
def State.withFetchWord (s : State) (nbits w : Nat) : State :=
  { s.placeWord (BitVec.ofNat 16 (w % 2 ^ nbits)) with driver := .running, host := plainHost s.host }

end Sys2Proof.Machine
end

