-- ==== Sys2Proof/Machine/Ports.lean ====
section
/-! DEFINITION. The block's output ports, as functions of the state: the STATUS word (10_state.md R50), the display
snapshot (40_display.md R146), the sound timer, err, the diagnostics (60_exceptions.md R314, R317) and the trace event of a
cycle (R318). Reading them changes nothing. -/

namespace Sys2Proof.Machine

/-- running: 1 in Running and Paused (R46, D36). -/
def State.running (s : State) : Bool :=
  match s.driver with
  | .running => true
  | .paused => true
  | .stopped => false

/-- paused: 1 in Paused only (R46, D36). -/
def State.paused (s : State) : Bool :=
  match s.driver with
  | .running => false
  | .paused => true
  | .stopped => false

/-- STATUS bits 1:0 (R50). -/
def driverCode : Driver → BitVec 2
  | .running => 0
  | .paused => 1
  | .stopped => 2

/-- The numeric error codes (R301). -/
def errCodeNumber : ErrCode → BitVec 4
  | .romTooLarge => 1
  | .decodeFailure => 2
  | .stackOverflow => 3
  | .stackUnderflow => 4
  | .addressRange => 5
  | .glyphWrite => 6
  | .keyIndexRange => 7
  | .iOverflow => 8

/-- err's code, 0 for none (R49). -/
def State.errCode (s : State) : BitVec 4 :=
  match s.err with
  | none => 0
  | some r => errCodeNumber r.code

/-- The STATUS word: 15:12 zero, 11:8 error code, 7:6 zero, 5 awaiting_key, 4 draw_requested, 3 paused, 2 running, 1:0
driver state (R50). -/
def State.status (s : State) : Word :=
  0#4 ++ s.errCode ++ 0#2 ++ BitVec.ofBool s.awaitingKey ++ BitVec.ofBool s.drawRequested ++ BitVec.ofBool s.paused ++
    BitVec.ofBool s.running ++ driverCode s.driver

/-- fb_out: the 2048-bit framebuffer, bit r*64 + c = fb[r][c] (R140, R146). -/
def State.fbOut (s : State) : BitVec 2048 :=
  BitVec.ofNat 2048 ((List.range 32).foldr (fun r acc => acc * 2 ^ 64 + (s.fb[r]?.getD 0).toNat) 0)

/-- sound_timer_out (R314). -/
def State.soundTimerOut (s : State) : Byte := s.st

/-- What the diagnostics port returns (R317). -/
structure Diagnostics where
  v         : Vector Byte 16
  regI      : Word
  pc        : Word
  sp        : BitVec 5
  stack     : Vector Word 16
  lastInstr : Word
  dt        : Byte
  st        : Byte
  status    : Word
  err       : Option ErrRecord
deriving DecidableEq, Repr

/-- The diagnostics port, stale stack entries included (R317, R40). -/
def State.diag (s : State) : Diagnostics :=
  ⟨s.v, s.regI, s.pc, s.spBits, s.stack, s.lastInstr, s.dt, s.st, s.status, s.err⟩

/-- A trace event (R318): the instruction's PC, the word, the operation tag (R110) and every field, whether or not the
instruction uses it (R101). -/
structure TraceEvent where
  pc   : Word
  word : Word
  tag  : OpTag
  x    : Reg
  y    : Reg
  n    : Nibble
  kk   : Byte
  nnn  : Addr12
deriving DecidableEq, Repr

/-- The event of the word `w` at `pc`, decoded as `i`. -/
def traceOf (pc w : Word) (i : Instr) : TraceEvent :=
  ⟨pc, w, i.tag, fieldX w, fieldY w, fieldN w, fieldKK w, fieldNNN w⟩

/-- trace_out of one cycle: one event if the cycle completes, none if it raises an error (R318). -/
def cycleTrace (inp : CycleInput) (s : State) : Option TraceEvent :=
  match (s.sample inp).fetchDecode with
  | .error _ => none
  | .ok (i, t) =>
    match exec i t with
    | .next u => if u.driver = .running then some (traceOf t.pc t.lastInstr i) else none
    | .fault _ => none
    | .refused _ => none

/-- trace_out of one step: the event of the cycle the step runs, none if it runs none (R316, R318). -/
def State.traceEvent (s : State) : Option TraceEvent :=
  match s.nextGap with
  | some (g, rest) =>
    let t := ({ s with host := rest } : State).gapActions g
    match g.cycle with
    | some inp => if t.driver = .running then cycleTrace inp t else none
    | none => none
  | none =>
    if s.driver = .running then cycleTrace ⟨Config.keysIn s.draws, Config.randIn s.draws⟩ { s with draws := s.draws + 1 }
    else none

end Sys2Proof.Machine
end

