-- ==== Sys2Proof/Safety.lean ====
section
/-! DEFINITION. The words the claims are written in: what an instruction leaves unchanged (its frame), what raising an
error means, which registers an instruction names (10_state.md R33), which pixels a sprite covers (40_display.md R141-R143),
the words of the rules' Encoding lines, and the invariant of the block. -/

namespace Sys2Proof.Machine

/-! ## Frames -/

/-- The parts of the state a frame speaks of. -/
inductive Part where
  | regs | index | pc | memory | stack | sp | delayTimer | soundTimer | display | keys | drawRequested | awaitingKey
  | driver | cyc | lastInstr | err
  /-- the model's own fields rand, host and draws -/
  | host
  /-- the parameter GLYPH_ROM -/
  | glyphRom
deriving DecidableEq, Repr

/-- A part reads the same in both states: registers, memory, stack and display through the model's own reads. -/
def Part.same (p : Part) (s t : State) : Prop :=
  match p with
  | .regs => ∀ r, t.getV r = s.getV r
  | .index => t.regI = s.regI
  | .pc => t.pc = s.pc
  | .memory => ∀ a, t.readByte a = s.readByte a
  | .stack => ∀ j, t.stackAt j = s.stackAt j
  | .sp => t.sp = s.sp
  | .delayTimer => t.dt = s.dt
  | .soundTimer => t.st = s.st
  | .display => ∀ r c, t.pixel r c = s.pixel r c
  | .keys => t.key = s.key
  | .drawRequested => t.drawRequested = s.drawRequested
  | .awaitingKey => t.awaitingKey = s.awaitingKey
  | .driver => t.driver = s.driver
  | .cyc => t.cyc = s.cyc
  | .lastInstr => t.lastInstr = s.lastInstr
  | .err => t.err = s.err
  | .host => t.rand = s.rand ∧ t.host = s.host ∧ t.draws = s.draws
  | .glyphRom => t.glyphRom = s.glyphRom

/-- Every part but the ones listed is unchanged. -/
def Frame (changed : List Part) (s t : State) : Prop := ∀ p, p ∉ changed → p.same s t

/-- The instruction ends in a next state with the property `P`. -/
def Completes (i : Instr) (s : State) (P : State → Prop) : Prop := ∃ t, exec i s = .next t ∧ P t

/-- `t` is `s` with the error `e` recorded for the instruction at PC and the block stopped, and nothing else changed
(60_exceptions.md R302-R304). -/
def Raised (e : BlockError) (s t : State) : Prop :=
  t.err = some ⟨e.code, s.pc, s.lastInstr, e.detail, e.kind⟩ ∧ t.driver = .stopped ∧ Frame [.err, .driver] s t

/-- The instruction ends with PC two further, V[x] holding `b`, and nothing else changed. -/
def SetsReg (i : Instr) (s : State) (x : Reg) (b : Nat) : Prop :=
  Completes i s fun t =>
    (t.getV x).toNat = b ∧ (∀ r, r ≠ x → t.getV r = s.getV r) ∧ t.pc = s.pc + 2 ∧ Frame [.regs, .pc] s t

/-- The instruction ends with PC two further, V[15] holding the flag, V[x] holding `b` unless x = 15, and nothing else
changed (42_alu.md R191). -/
def SetsRegAndFlag (i : Instr) (s : State) (x : Reg) (b : Nat) (flag : Prop) : Prop :=
  Completes i s fun t =>
    (flag → t.getV regVF = 1) ∧ (¬ flag → t.getV regVF = 0) ∧ (x ≠ regVF → (t.getV x).toNat = b) ∧
      (∀ r, r ≠ x → r ≠ regVF → t.getV r = s.getV r) ∧ t.pc = s.pc + 2 ∧ Frame [.regs, .pc] s t

/-- The instruction passes over the next word if `c` holds, advances to it if not, and changes nothing else
(41_control_flow.md R161). -/
def SkipsWhen (i : Instr) (s : State) (c : Prop) : Prop :=
  Completes i s fun t => (c → t.pc = s.pc + 4) ∧ (¬ c → t.pc = s.pc + 2) ∧ Frame [.pc] s t

/-- A fetch at `t`'s PC raises ADDRESS_RANGE at the address `a` (20_memory.md R77). -/
def NextFetchFails (t : State) (a : Nat) : Prop :=
  t.fetch16 t.pc.toNat = .error ⟨.addressRange, BitVec.ofNat 17 a, .fetch⟩

/-! ## Which registers an instruction names (10_state.md R33) -/

/-- V[r] is a destination of the instruction, or the flag it writes. -/
def writesReg (i : Instr) (r : Reg) : Bool :=
  match i with
  | .ldImm x _ | .addImm x _ | .ldReg x _ | .orReg x _ | .andReg x _ | .xorReg x _ | .rnd x _ => r == x
  | .ldVxDT x | .ldVxK x => r == x
  | .addReg x _ | .sub x _ | .shr x _ | .subn x _ | .shl x _ => r == x || r == regVF
  | .drw _ _ _ => r == regVF
  | .ldVxMem x => decide (r.toNat ≤ x.toNat)
  | .cls | .ret | .jp _ | .call _ | .seImm _ _ | .sneImm _ _ | .seReg _ _ | .sneReg _ _ | .ldI _ | .jpV0 _ => false
  | .skp _ | .sknp _ | .ldDTVx _ | .ldSTVx _ | .addIVx _ | .ldFVx _ | .ldBVx _ | .ldMemVx _ => false

/-- The instruction reads V[r]. -/
def readsReg (i : Instr) (r : Reg) : Bool :=
  match i with
  | .seImm x _ | .sneImm x _ | .addImm x _ | .skp x | .sknp x | .ldDTVx x | .ldSTVx x => r == x
  | .addIVx x | .ldFVx x | .ldBVx x | .shr x _ | .shl x _ => r == x
  | .seReg x y | .sneReg x y | .orReg x y | .andReg x y | .xorReg x y | .addReg x y => r == x || r == y
  | .sub x y | .subn x y | .drw x y _ => r == x || r == y
  | .ldReg _ y => r == y
  | .jpV0 _ => r == regV0
  | .ldMemVx x => decide (r.toNat ≤ x.toNat)
  | .cls | .ret | .jp _ | .call _ | .ldImm _ _ | .ldI _ | .rnd _ _ | .ldVxDT _ | .ldVxK _ | .ldVxMem _ => false

/-- The instructions whose entry names V[15] as a flag (42_alu.md R192). -/
def writesFlag : Instr → Bool
  | .addReg _ _ | .sub _ _ | .shr _ _ | .subn _ _ | .shl _ _ | .drw _ _ _ => true
  | .cls | .ret | .jp _ | .call _ | .seImm _ _ | .sneImm _ _ | .seReg _ _ | .ldImm _ _ | .addImm _ _ => false
  | .ldReg _ _ | .orReg _ _ | .andReg _ _ | .xorReg _ _ | .sneReg _ _ | .ldI _ | .jpV0 _ | .rnd _ _ => false
  | .skp _ | .sknp _ | .ldVxDT _ | .ldVxK _ | .ldDTVx _ | .ldSTVx _ | .addIVx _ | .ldFVx _ | .ldBVx _ => false
  | .ldMemVx _ | .ldVxMem _ => false

/-- The six conditional skips (41_control_flow.md R161). -/
def isSkip : Instr → Bool
  | .seImm _ _ | .sneImm _ _ | .seReg _ _ | .sneReg _ _ | .skp _ | .sknp _ => true
  | .cls | .ret | .jp _ | .call _ | .ldImm _ _ | .addImm _ _ | .ldReg _ _ | .orReg _ _ | .andReg _ _ => false
  | .xorReg _ _ | .addReg _ _ | .sub _ _ | .shr _ _ | .subn _ _ | .shl _ _ | .ldI _ | .jpV0 _ | .rnd _ _ => false
  | .drw _ _ _ | .ldVxDT _ | .ldVxK _ | .ldDTVx _ | .ldSTVx _ | .addIVx _ | .ldFVx _ | .ldBVx _ => false
  | .ldMemVx _ | .ldVxMem _ => false

/-- Where PC goes after an instruction that raises no error (41_control_flow.md R160), as an exact number. -/
def nextPC (i : Instr) (s : State) : Nat :=
  match i with
  | .jp nnn | .call nnn => nnn.toNat
  | .jpV0 nnn => nnn.toNat + (s.getV 0).toNat
  | .ret => (s.stack[s.sp.val - 1]?.getD 0).toNat
  | .seImm x kk => s.pc.toNat + if s.getV x = kk then 4 else 2
  | .sneImm x kk => s.pc.toNat + if s.getV x = kk then 2 else 4
  | .seReg x y => s.pc.toNat + if s.getV x = s.getV y then 4 else 2
  | .sneReg x y => s.pc.toNat + if s.getV x = s.getV y then 2 else 4
  | .skp x => s.pc.toNat + if s.key.getLsbD (s.getV x).toNat then 4 else 2
  | .sknp x => s.pc.toNat + if s.key.getLsbD (s.getV x).toNat then 2 else 4
  | .ldVxK _ => s.pc.toNat + if s.key = 0 then 0 else 2
  | .cls | .ldImm _ _ | .addImm _ _ | .ldReg _ _ | .orReg _ _ | .andReg _ _ | .xorReg _ _ => s.pc.toNat + 2
  | .addReg _ _ | .sub _ _ | .shr _ _ | .subn _ _ | .shl _ _ | .ldI _ | .rnd _ _ | .drw _ _ _ => s.pc.toNat + 2
  | .ldVxDT _ | .ldDTVx _ | .ldSTVx _ | .addIVx _ | .ldFVx _ | .ldBVx _ | .ldMemVx _ | .ldVxMem _ => s.pc.toNat + 2

/-- An instruction that moves `n` bytes between memory at I and the block, with the access kind (20_memory.md R79). -/
inductive MovesBytes : Instr → AccessKind → Nat → Prop
  | sprite (x y : Reg) (n : Nibble) : MovesBytes (.drw x y n) .read n.toNat
  | decimal (x : Reg) : MovesBytes (.ldBVx x) .write 3
  | store (x : Reg) : MovesBytes (.ldMemVx x) .write (x.toNat + 1)
  | load (x : Reg) : MovesBytes (.ldVxMem x) .read (x.toNat + 1)

/-- An access of that kind to the address `a` is an error (20_memory.md R74, R75). -/
def Offends (kind : AccessKind) (a : Nat) : Prop := 0xFFF < a ∨ (kind = .write ∧ a ≤ 0x04F)

/-! ## Sprites (40_display.md R141-R143) -/

/-- A 1 bit of the `n`-row sprite at I, drawn at (V[x] mod 64, V[y] mod 32), lands on pixel (r, c): bit 7 - j of byte i,
on row (Y0 + i) mod 32 and column (X0 + j) mod 64. -/
def SpriteCovers (s : State) (x y : Reg) (n : Nibble) (r : Fin 32) (c : Fin 64) : Prop :=
  ∃ i j, i < n.toNat ∧ j < 8 ∧ r.val = ((s.getV y).toNat % 32 + i) % 32 ∧ c.val = ((s.getV x).toNat % 64 + j) % 64 ∧
    (s.readByte (s.regI.toNat + i)).getLsbD (7 - j) = true

/-! ## The words of the rules' Encoding lines (30_encoding.md R101, R104) -/

/-- A word of class NNN: the row's match with the address in its low bits. -/
def wordNNN (m : Word) (nnn : Addr12) : Word := m ||| nnn.setWidth 16

/-- A word of class XKK. -/
def wordXKK (m : Word) (x : Reg) (kk : Byte) : Word := m ||| (x.setWidth 16 <<< 8) ||| kk.setWidth 16

/-- A word of class XYN with its n in the row's match. -/
def wordXY (m : Word) (x y : Reg) : Word := m ||| (x.setWidth 16 <<< 8) ||| (y.setWidth 16 <<< 4)

/-- A word of class XYN with n a row count (Dxyn). -/
def wordXYN (m : Word) (x y : Reg) (n : Nibble) : Word := wordXY m x y ||| n.setWidth 16

/-- A word of class XSUB. -/
def wordX (m : Word) (x : Reg) : Word := m ||| (x.setWidth 16 <<< 8)

/-! ## The cycle -/

/-- The state a fetched word executes in: the keys sampled, the random byte taken, last_instr written (60_exceptions.md
R311 steps 1 and 2). -/
def State.executing (s : State) (inp : CycleInput) (w : Word) : State :=
  { s with key := inp.keys, rand := inp.rand, lastInstr := w }

/-- The word at PC, when both its addresses exist (20_memory.md R77). -/
def State.wordAtPC (s : State) : Word := wordOfBytes (s.readByte s.pc.toNat) (s.readByte (s.pc.toNat + 1))

/-- The word at PC decodes to an Fx0A. -/
def State.atKeyWait (s : State) : Prop := s.pc.toNat ≤ 0xFFE ∧ ∃ x, decodeWord s.wordAtPC = .ok (.ldVxK x)

/-! ## The invariant -/

/-- What holds of every state the block can be in: memory in its canonical form with GLYPH_ROM, whatever it is, in the glyph
table (20_memory.md R73, R76); PC and the stack entries no larger than an instruction can make them (10_state.md R37, 41_control_flow.md R164);
cyc below TIMER_DIVISOR (10_state.md R47); an error only in Stopped (70_reset_and_hazards.md R361); awaiting_key only at an
Fx0A (10_state.md R52). -/
structure State.Inv (s : State) : Prop where
  memCanonical : Memory.wf s.glyphRom s.mem = true
  glyphsIntact : ∀ (a : Nat) (h : a < Config.glyphSize), s.readByte a = s.glyphRom[a]
  pcBound      : s.pc.toNat ≤ 0x10FE
  stackBound   : ∀ j, (s.stackAt j).toNat ≤ 0x1000
  cycBound     : s.cyc < Config.timerDivisor
  errStopped   : s.err ≠ none → s.driver = .stopped
  waitsAtFx0A  : s.awaitingKey = true → s.atKeyWait

end Sys2Proof.Machine
end

