-- ==== Sys2Proof/Certificates/Slice0/Obligations.lean ====
section
/-! DEFINITION. The statements for the provers, family by family of the opcode table, then the cycle, the driver and the
invariant. "D<n>" in a docstring names a decision of spec/92_eei_decisions.md on which a clause rests. -/

open Sys2Proof Sys2Proof.Machine

/-! ## Encoding (30_encoding.md) -/

/-- Words written out from R104's pattern column, at least one per family nibble, decode to their instructions, and words
of 95_test_vectors.md that match no row do not. -/
def Obligations.WrittenWordsDecode : Prop :=
  decodeWord 0x00E0 = .ok .cls ∧ decodeWord 0x00EE = .ok .ret ∧ decodeWord 0x1ABC = .ok (.jp 0xABC) ∧
    decodeWord 0x2210 = .ok (.call 0x210) ∧ decodeWord 0x3A42 = .ok (.seImm 0xA 0x42) ∧
    decodeWord 0x4342 = .ok (.sneImm 3 0x42) ∧ decodeWord 0x5120 = .ok (.seReg 1 2) ∧
    decodeWord 0x6005 = .ok (.ldImm 0 5) ∧ decodeWord 0x7AFF = .ok (.addImm 0xA 0xFF) ∧
    decodeWord 0x8124 = .ok (.addReg 1 2) ∧ decodeWord 0x81E6 = .ok (.shr 1 0xE) ∧
    decodeWord 0x9120 = .ok (.sneReg 1 2) ∧ decodeWord 0xA300 = .ok (.ldI 0x300) ∧
    decodeWord 0xBFFF = .ok (.jpV0 0xFFF) ∧ decodeWord 0xC30F = .ok (.rnd 3 0x0F) ∧
    decodeWord 0xD12F = .ok (.drw 1 2 0xF) ∧ decodeWord 0xE59E = .ok (.skp 5) ∧ decodeWord 0xE5A1 = .ok (.sknp 5) ∧
    decodeWord 0xF30A = .ok (.ldVxK 3) ∧ decodeWord 0xF265 = .ok (.ldVxMem 2) ∧
    decodeWord 0x0123 = .error (.decodeFailure 0x0123) ∧ decodeWord 0x8128 = .error (.decodeFailure 0x8128) ∧
    decodeBytes [0x60, 0x05, 0x70] = .ok (.ldImm 0 5, [0x70])

/-- Decoding an encoded instruction gives it back, with every operand at every value, as a word and as the two bytes
memory holds. -/
def Obligations.DecodeInvertsEncode : Prop :=
  ∀ i : Instr, decodeWord (encode i) = .ok i ∧ ∀ rest, decodeBytes (encodeBytes i ++ rest) = .ok (i, rest)

/-- A word that decodes is the encoding of what it decodes to: no bit of a legal word is lost. -/
def Obligations.EncodeInvertsDecode : Prop := ∀ (w : Word) (i : Instr), decodeWord w = .ok i → encode i = w

/-- R105: if some row of R104 has (w and mask) = match, the result is that row's tag with the word's own fields; otherwise
it is DECODE_FAILURE(w), which the cycle driver raises with the word and its PC. -/
def Obligations.DecoderFollowsTable : Prop :=
  ∀ w : Word,
    (∀ row ∈ opcodeTable, w &&& row.mask = row.mtch →
      ∃ i, decodeWord w = .ok i ∧ i.tag = row.tag ∧ encode i = w) ∧
    ((∀ row ∈ opcodeTable, w &&& row.mask ≠ row.mtch) →
      decodeWord w = .error (.decodeFailure w) ∧
      ∀ (n : Nat) (inp : CycleInput) (s : State), s.pc.toNat ≤ 0xFFE → s.wordAtPC = w →
        ∃ t, runCycle n inp s = .next t ∧
          t.err = some ⟨.decodeFailure, s.pc, w, w.setWidth 17, .none⟩ ∧ t.driver = .stopped)

/-- R104: the table has 34 rows, one per instruction, and no two rows overlap. -/
def Obligations.TableRowsNeverOverlap : Prop :=
  opcodeTable.length = 34 ∧ (∀ i : Instr, ∃ row ∈ opcodeTable, row.tag = i.tag) ∧
    ∀ (w : Word) (r q : Row), r ∈ opcodeTable → q ∈ opcodeTable → w &&& r.mask = r.mtch → w &&& q.mask = q.mtch → r = q

/-- The illegal words, family by family, as R106's dispatch (D33) and R107's table list them. -/
def Obligations.IllegalWordsByFamily : Prop :=
  ∀ w : Word, decodeWord w = .error (.decodeFailure w) ↔
    (w.toNat / 4096 = 0x0 ∧ w ≠ 0x00E0 ∧ w ≠ 0x00EE) ∨
    ((w.toNat / 4096 = 0x5 ∨ w.toNat / 4096 = 0x9) ∧ w.toNat % 16 ≠ 0) ∨
    (w.toNat / 4096 = 0x8 ∧ w.toNat % 16 ∈ [0x8, 0x9, 0xA, 0xB, 0xC, 0xD, 0xF]) ∨
    (w.toNat / 4096 = 0xE ∧ w.toNat % 256 ∉ [0x9E, 0xA1]) ∨
    (w.toNat / 4096 = 0xF ∧ w.toNat % 256 ∉ [0x07, 0x0A, 0x15, 0x18, 0x1E, 0x29, 0x33, 0x55, 0x65])

/-- The notation of every instruction is well formed and assembles to that instruction; SHR Vx and SHL Vx without Vy have
y = 0 (R112, R113; the notation is D28's). -/
def Obligations.AssemblerNamesEveryRow : Prop :=
  (∀ i : Instr, i.toAsm.wellFormed = true ∧ assemble i.toAsm = some i) ∧
    ∀ x : Reg, assemble ⟨.SHR, [.v x.toNat]⟩ = some (.shr x 0) ∧ assemble ⟨.SHL, [.v x.toNat]⟩ = some (.shl x 0)

/-! ## Register loads and the ALU (42_alu.md) -/

/-- R193, R194: 6xkk loads kk; 7xkk adds kk modulo 256 with no flag. Nothing else changes. -/
def Obligations.ImmediateLoadAndAdd : Prop :=
  ∀ (s : State) (x : Reg) (kk : Byte),
    decodeWord (wordXKK 0x6000 x kk) = .ok (.ldImm x kk) ∧ SetsReg (.ldImm x kk) s x kk.toNat ∧
    decodeWord (wordXKK 0x7000 x kk) = .ok (.addImm x kk) ∧
      SetsReg (.addImm x kk) s x (((s.getV x).toNat + kk.toNat) % 256)

/-- R195-R198: copy, OR, AND, XOR of V[y] into V[x], with no flag. Nothing else changes. -/
def Obligations.RegisterMovesAndLogic : Prop :=
  ∀ (s : State) (x y : Reg),
    decodeWord (wordXY 0x8000 x y) = .ok (.ldReg x y) ∧ SetsReg (.ldReg x y) s x (s.getV y).toNat ∧
    decodeWord (wordXY 0x8001 x y) = .ok (.orReg x y) ∧
      SetsReg (.orReg x y) s x ((s.getV x).toNat ||| (s.getV y).toNat) ∧
    decodeWord (wordXY 0x8002 x y) = .ok (.andReg x y) ∧
      SetsReg (.andReg x y) s x ((s.getV x).toNat &&& (s.getV y).toNat) ∧
    decodeWord (wordXY 0x8003 x y) = .ok (.xorReg x y) ∧
      SetsReg (.xorReg x y) s x ((s.getV x).toNat ^^^ (s.getV y).toNat)

/-- R199: 8xy4 adds modulo 256 and V[15] is the carry, written after V[x]. -/
def Obligations.AddSetsCarry : Prop :=
  ∀ (s : State) (x y : Reg),
    decodeWord (wordXY 0x8004 x y) = .ok (.addReg x y) ∧
    SetsRegAndFlag (.addReg x y) s x (((s.getV x).toNat + (s.getV y).toNat) % 256)
      (255 < (s.getV x).toNat + (s.getV y).toNat)

/-- R200, R202: 8xy5 and 8xy7 subtract modulo 256 and V[15] is the strict comparison, written after V[x]. -/
def Obligations.SubtractionsSetFlag : Prop :=
  ∀ (s : State) (x y : Reg),
    decodeWord (wordXY 0x8005 x y) = .ok (.sub x y) ∧
    SetsRegAndFlag (.sub x y) s x (((s.getV x).toNat + 256 - (s.getV y).toNat) % 256)
      ((s.getV y).toNat < (s.getV x).toNat) ∧
    decodeWord (wordXY 0x8007 x y) = .ok (.subn x y) ∧
    SetsRegAndFlag (.subn x y) s x (((s.getV y).toNat + 256 - (s.getV x).toNat) % 256)
      ((s.getV x).toNat < (s.getV y).toNat)

/-- R201, R203: 8xy6 halves V[x] and V[15] is its old bit 0; 8xyE doubles it modulo 256 and V[15] is its old bit 7; y is
ignored. -/
def Obligations.ShiftsSetFlag : Prop :=
  ∀ (s : State) (x y : Reg),
    decodeWord (wordXY 0x8006 x y) = .ok (.shr x y) ∧
    SetsRegAndFlag (.shr x y) s x ((s.getV x).toNat / 2) ((s.getV x).toNat % 2 = 1) ∧
    decodeWord (wordXY 0x800E x y) = .ok (.shl x y) ∧
    SetsRegAndFlag (.shl x y) s x (2 * (s.getV x).toNat % 256) (128 ≤ (s.getV x).toNat) ∧
    ∀ z, exec (.shr x y) s = exec (.shr x z) s ∧ exec (.shl x y) s = exec (.shl x z) s

/-- Cxkk sets V[x] to the cycle's random byte AND kk, whatever that byte is (R204; the byte is a draw with no law, D21). -/
def Obligations.RandomByteIsMasked : Prop :=
  ∀ (s : State) (x : Reg) (kk : Byte) (inp : CycleInput) (w : Word),
    decodeWord (wordXKK 0xC000 x kk) = .ok (.rnd x kk) ∧
    SetsReg (.rnd x kk) (s.executing inp w) x (inp.rand.toNat &&& kk.toNat)

/-- R192: only the instructions whose entry names V[15] write it as a flag; every other one leaves it unchanged unless
V[15] is its destination. -/
def Obligations.FlagOnlyFromFlagInstructions : Prop :=
  ∀ (i : Instr) (s t : State), exec i s = .next t →
    (writesFlag i = true → s.driver = .running → t.driver = .running → t.getV 15 = 0 ∨ t.getV 15 = 1) ∧
    (writesFlag i = false → writesReg i 15 = false → t.getV 15 = s.getV 15) ∧
    ∀ x y kk, x ≠ 15 →
      i ∈ [Instr.ldImm x kk, .addImm x kk, .ldReg x y, .orReg x y, .andReg x y, .xorReg x y, .rnd x kk] →
      t.getV 15 = s.getV 15

/-- The writers of R33: an instruction leaves every register alone that is neither its destination nor the flag it
writes. -/
def Obligations.RegisterWriters : Prop :=
  ∀ (i : Instr) (s t : State) (r : Reg), exec i s = .next t → writesReg i r = false → t.getV r = s.getV r

/-- The readers of R33: changing a register an instruction does not read changes nothing else in its result. -/
def Obligations.RegisterReaders : Prop :=
  ∀ (i : Instr) (s t : State) (r : Reg) (b : Byte), readsReg i r = false → exec i s = .next t →
    ∃ u, exec i (s.setV r b) = .next u ∧ (∀ q, q ≠ r → u.getV q = t.getV q) ∧
      (u.getV r = b ∨ u.getV r = t.getV r) ∧ Frame [.regs] t u

/-! ## Control transfer (41_control_flow.md) -/

/-- 1nnn jumps to nnn and Bnnn to nnn + V[0], exactly; a target above 0xFFE fails at the next fetch (R163, R169; D8,
D26). -/
def Obligations.JumpTargets : Prop :=
  ∀ (s : State) (nnn : Addr12),
    decodeWord (wordNNN 0x1000 nnn) = .ok (.jp nnn) ∧
    Completes (.jp nnn) s (fun t =>
      t.pc.toNat = nnn.toNat ∧ Frame [.pc] s t ∧ (nnn = 0xFFF → NextFetchFails t 0x1000)) ∧
    decodeWord (wordNNN 0xB000 nnn) = .ok (.jpV0 nnn) ∧
    Completes (.jpV0 nnn) s (fun t =>
      t.pc.toNat = nnn.toNat + (s.getV 0).toNat ∧ Frame [.pc] s t ∧
      (0xFFE < nnn.toNat + (s.getV 0).toNat → NextFetchFails t (max (nnn.toNat + (s.getV 0).toNat) 0x1000)))

/-- 2nnn pushes PC + 2 at stack[SP] and jumps (R164; PC + 2 rather than PC is D32); with SP = 16 it raises
STACK_OVERFLOW(16). -/
def Obligations.CallPushesReturnAddress : Prop :=
  ∀ (s : State) (nnn : Addr12),
    decodeWord (wordNNN 0x2000 nnn) = .ok (.call nnn) ∧
    (∀ h : s.sp.val < 16, Completes (.call nnn) s (fun t =>
      t.stackAt ⟨s.sp.val, h⟩ = s.pc + 2 ∧ (∀ j, j.val ≠ s.sp.val → t.stackAt j = s.stackAt j) ∧
      t.sp.val = s.sp.val + 1 ∧ t.pc.toNat = nnn.toNat ∧ Frame [.pc, .sp, .stack] s t)) ∧
    (s.sp.val = 16 → Completes (.call nnn) s (Raised ⟨.stackOverflow, 16, .none⟩ s))

/-- R162: 00EE pops the top entry into PC, which keeps its value in the stack; with SP = 0 it raises
STACK_UNDERFLOW(0). -/
def Obligations.ReturnPopsIntoPC : Prop :=
  decodeWord 0x00EE = .ok .ret ∧
  ∀ s : State,
    (∀ h : 0 < s.sp.val, Completes .ret s (fun t =>
      t.pc = s.stackAt ⟨s.sp.val - 1, by omega⟩ ∧ t.sp.val = s.sp.val - 1 ∧ Frame [.pc, .sp] s t)) ∧
    (s.sp.val = 0 → Completes .ret s (Raised ⟨.stackUnderflow, 0, .none⟩ s))

/-- A call followed, however much later, by the return that finds the stack and SP as the call left them resumes after
the call, with SP and the older entries as before the call. -/
def Obligations.CallThenReturnResumes : Prop :=
  ∀ (s t u : State) (nnn : Addr12), s.sp.val < 16 → exec (.call nnn) s = .next t → u.stack = t.stack → u.sp = t.sp →
    Completes .ret u fun v =>
      v.pc = s.pc + 2 ∧ v.sp = s.sp ∧ ∀ j : Fin 16, j.val < s.sp.val → v.stackAt j = s.stackAt j

/-- R165-R168: the four register skips; 5xyN and 9xyN with N other than 0 do not decode. -/
def Obligations.RegisterSkips : Prop :=
  ∀ (s : State) (x y : Reg) (kk : Byte),
    decodeWord (wordXKK 0x3000 x kk) = .ok (.seImm x kk) ∧ SkipsWhen (.seImm x kk) s (s.getV x = kk) ∧
    decodeWord (wordXKK 0x4000 x kk) = .ok (.sneImm x kk) ∧ SkipsWhen (.sneImm x kk) s (s.getV x ≠ kk) ∧
    decodeWord (wordXY 0x5000 x y) = .ok (.seReg x y) ∧ SkipsWhen (.seReg x y) s (s.getV x = s.getV y) ∧
    decodeWord (wordXY 0x9000 x y) = .ok (.sneReg x y) ∧ SkipsWhen (.sneReg x y) s (s.getV x ≠ s.getV y) ∧
    ∀ n, n ≠ 0 →
      decodeWord (wordXYN 0x5000 x y n) = .error (.decodeFailure (wordXYN 0x5000 x y n)) ∧
      decodeWord (wordXYN 0x9000 x y n) = .error (.decodeFailure (wordXYN 0x9000 x y n))

/-- A skip reads no memory, so whatever the skipped word holds it raises nothing; a skip taken from 0xFFC or 0xFFE fails at
the next fetch (R109, R161). -/
def Obligations.SkippedWordIsNotRead : Prop :=
  ∀ (i : Instr) (s : State) (m : Memory), isSkip i = true →
    ∃ t, exec i s = .next t ∧ exec i { s with mem := m } = .next { t with mem := m } ∧
      (s.pc = 0xFFC ∨ s.pc = 0xFFE → t.pc = s.pc + 4 → NextFetchFails t (s.pc.toNat + 4))

/-- Where PC goes after each instruction fetched from an address of memory; an instruction that raises an error leaves it
(R160). -/
def Obligations.PcAfterEachInstruction : Prop :=
  ∀ (i : Instr) (s t : State), s.pc.toNat ≤ 0xFFE → s.driver = .running → exec i s = .next t →
    (t.driver = .running → t.pc.toNat = nextPC i s) ∧ (t.driver ≠ .running → t.pc = s.pc)

/-! ## Index register and memory (43_index_memory.md, 20_memory.md) -/

/-- R231, R233: Annn loads nnn into I; Fx29 loads five times the full value of V[x]. -/
def Obligations.IndexLoads : Prop :=
  ∀ (s : State) (x : Reg) (nnn : Addr12),
    decodeWord (wordNNN 0xA000 nnn) = .ok (.ldI nnn) ∧
    Completes (.ldI nnn) s (fun t => t.regI.toNat = nnn.toNat ∧ t.pc = s.pc + 2 ∧ Frame [.index, .pc] s t) ∧
    decodeWord (wordX 0xF029 x) = .ok (.ldFVx x) ∧
    Completes (.ldFVx x) s (fun t =>
      t.regI.toNat = (s.getV x).toNat * 5 ∧ t.pc = s.pc + 2 ∧ Frame [.index, .pc] s t)

/-- Fx1E adds V[x] to I with no flag and no truncation (R232); a sum above 0xFFFF raises I_OVERFLOW(I) (D7). -/
def Obligations.IndexAddWidens : Prop :=
  ∀ (s : State) (x : Reg),
    decodeWord (wordX 0xF01E x) = .ok (.addIVx x) ∧
    (s.regI.toNat + (s.getV x).toNat ≤ 0xFFFF → Completes (.addIVx x) s (fun t =>
      t.regI.toNat = s.regI.toNat + (s.getV x).toNat ∧ t.pc = s.pc + 2 ∧ Frame [.index, .pc] s t)) ∧
    (0xFFFF < s.regI.toNat + (s.getV x).toNat →
      Completes (.addIVx x) s (Raised ⟨.iOverflow, s.regI.setWidth 17, .none⟩ s))

/-- Fx33 stores the decimal digits of V[x] at I, I+1, I+2, which `State.addrI` gives, and leaves I (R234); outside
0x050-0xFFF it raises the error of the lowest offending address and stores nothing (D8, D9). -/
def Obligations.DecimalDigitsStored : Prop :=
  ∀ (s : State) (x : Reg), Memory.wf s.glyphRom s.mem = true →
    decodeWord (wordX 0xF033 x) = .ok (.ldBVx x) ∧
    (0x050 ≤ s.addrI → s.addrI + 2 ≤ 0xFFF → Completes (.ldBVx x) s (fun t =>
      (t.readByte s.addrI).toNat = (s.getV x).toNat / 100 ∧
      (t.readByte (s.addrI + 1)).toNat = (s.getV x).toNat / 10 % 10 ∧
      (t.readByte (s.addrI + 2)).toNat = (s.getV x).toNat % 10 ∧
      (∀ a, a < s.addrI ∨ s.addrI + 3 ≤ a → t.readByte a = s.readByte a) ∧
      t.pc = s.pc + 2 ∧ Frame [.memory, .pc] s t)) ∧
    (s.addrI < 0x050 → Completes (.ldBVx x) s (Raised ⟨.glyphWrite, BitVec.ofNat 17 s.addrI, .none⟩ s)) ∧
    (0xFFF < s.addrI + 2 →
      Completes (.ldBVx x) s (Raised ⟨.addressRange, BitVec.ofNat 17 (max s.addrI 0x1000), .write⟩ s))

/-- Fx55 stores V[0..x] from I, which `State.addrI` gives, and advances I by x + 1 (R235); outside 0x050-0xFFF it raises
the error of the lowest offending address and changes neither memory nor I (D8, D9). -/
def Obligations.RegistersStored : Prop :=
  ∀ (s : State) (x : Reg), Memory.wf s.glyphRom s.mem = true →
    decodeWord (wordX 0xF055 x) = .ok (.ldMemVx x) ∧
    (0x050 ≤ s.addrI → s.addrI + x.toNat ≤ 0xFFF → Completes (.ldMemVx x) s (fun t =>
      (∀ k : Reg, k.toNat ≤ x.toNat → t.readByte (s.addrI + k.toNat) = s.getV k) ∧
      (∀ a, a < s.addrI ∨ s.addrI + x.toNat < a → t.readByte a = s.readByte a) ∧
      t.regI.toNat = s.addrI + x.toNat + 1 ∧ t.pc = s.pc + 2 ∧ Frame [.memory, .index, .pc] s t)) ∧
    (s.addrI < 0x050 → Completes (.ldMemVx x) s (Raised ⟨.glyphWrite, BitVec.ofNat 17 s.addrI, .none⟩ s)) ∧
    (0xFFF < s.addrI + x.toNat →
      Completes (.ldMemVx x) s (Raised ⟨.addressRange, BitVec.ofNat 17 (max s.addrI 0x1000), .write⟩ s))

/-- R236: Fx65 loads V[0..x] from memory at I and advances I by x + 1; above 0xFFF it raises ADDRESS_RANGE with the lowest
offending address and changes no register. Loading what an Fx55 stored from the same I gives the registers stored. -/
def Obligations.RegistersLoaded : Prop :=
  ∀ (s : State) (x : Reg),
    decodeWord (wordX 0xF065 x) = .ok (.ldVxMem x) ∧
    (s.addrI + x.toNat ≤ 0xFFF → Completes (.ldVxMem x) s (fun t =>
      (∀ k : Reg, k.toNat ≤ x.toNat → t.getV k = s.readByte (s.addrI + k.toNat)) ∧
      (∀ k : Reg, x.toNat < k.toNat → t.getV k = s.getV k) ∧
      t.regI.toNat = s.addrI + x.toNat + 1 ∧ t.pc = s.pc + 2 ∧ Frame [.regs, .index, .pc] s t)) ∧
    (0xFFF < s.addrI + x.toNat →
      Completes (.ldVxMem x) s (Raised ⟨.addressRange, BitVec.ofNat 17 (max s.addrI 0x1000), .read⟩ s)) ∧
    (∀ r t u : State, Memory.wf r.glyphRom r.mem = true → r.driver = .running → exec (.ldMemVx x) r = .next t →
      t.driver = .running → (∀ a, u.readByte a = t.readByte a) → u.regI = r.regI →
      Completes (.ldVxMem x) u (fun v => ∀ k : Reg, k.toNat ≤ x.toNat → v.getV k = r.getV k))

/-- Two stores of V[0..x] and V[0..y] to ranges that do not meet do not disturb each other, so both can be loaded back
(20_memory.md R84). -/
def Obligations.SeparateStoresBothLoadBack : Prop :=
  ∀ (s t u v : State) (x y : Reg), Memory.wf s.glyphRom s.mem = true → s.driver = .running →
    exec (.ldMemVx x) s = .next t → t.driver = .running →
    u.mem = t.mem → u.glyphRom = t.glyphRom → u.driver = .running → (u.addrI + y.toNat < s.addrI ∨ s.addrI + x.toNat < u.addrI) →
    exec (.ldMemVx y) u = .next v → v.driver = .running →
    (∀ k : Reg, k.toNat ≤ x.toNat → v.readByte (s.addrI + k.toNat) = s.getV k) ∧
    (∀ k : Reg, k.toNat ≤ y.toNat → v.readByte (u.addrI + k.toNat) = u.getV k)

/-- An instruction that moves several bytes raises the error of its lowest offending address, if it has one, with nothing
written; otherwise it raises none (R74, R75, R80; D8, D9). -/
def Obligations.LowestOffendingAddressDecides : Prop :=
  ∀ (s : State) (i : Instr) (kind : AccessKind) (n : Nat), MovesBytes i kind n →
    (∀ k, k < n → Offends kind (s.addrI + k) → (∀ j, j < k → ¬ Offends kind (s.addrI + j)) →
      Completes i s (Raised
        (if 0xFFF < s.addrI + k then ⟨.addressRange, BitVec.ofNat 17 (s.addrI + k), kind⟩
          else ⟨.glyphWrite, BitVec.ofNat 17 (s.addrI + k), .none⟩) s)) ∧
    ((∀ k, k < n → ¬ Offends kind (s.addrI + k)) → Completes i s (fun t => t.err = s.err ∧ t.driver = s.driver))

/-- No step changes a byte of the glyph table (R76, D9). -/
def Obligations.GlyphTableNeverChanges : Prop :=
  ∀ (s t : State) (a : Nat), a ≤ 0x04F → step s = .next t → t.readByte a = s.readByte a

/-- Only Fx33 and Fx55 change memory, and only the bytes they store (R70, R79). -/
def Obligations.MemoryWriters : Prop :=
  ∀ (i : Instr) (s t : State) (a : Nat), exec i s = .next t → t.readByte a ≠ s.readByte a →
    (∃ x, i = .ldBVx x ∧ s.addrI ≤ a ∧ a ≤ s.addrI + 2) ∨ (∃ x, i = .ldMemVx x ∧ s.addrI ≤ a ∧ a ≤ s.addrI + x.toNat)

/-- Memories in canonical form that read the same at every address of the space are the same data, so states that a
program cannot tell apart by reading are not two states (log entry 5). -/
def Obligations.EqualMemoriesAreEqualData : Prop :=
  ∀ (g : Config.GlyphRom) (m m' : Memory), Memory.wf g m = true → Memory.wf g m' = true →
    (∀ a, a < 0x1000 → Memory.read g m a = Memory.read g m' a) → m = m'

/-! ## Display (40_display.md) -/

/-- R144: 00E0 turns every pixel off and sets draw_requested; V[15] and everything else stay. -/
def Obligations.ClearTurnsEveryPixelOff : Prop :=
  decodeWord 0x00E0 = .ok .cls ∧
  ∀ s : State, Completes .cls s fun t =>
    (∀ r c, t.pixel r c = false) ∧ t.drawRequested = true ∧ t.pc = s.pc + 2 ∧ Frame [.display, .drawRequested, .pc] s t

/-- Dxyn flips exactly the pixels the sprite covers, sets V[15] to whether one of them was on, and sets draw_requested
(R143, R145; wrapping is D11, the bit order D12, the flag last D3); a sprite byte above 0xFFF raises ADDRESS_RANGE with
the lowest such address and draws nothing (D8). -/
def Obligations.DrawXorsSprite : Prop :=
  ∀ (s : State) (x y : Reg) (n : Nibble),
    decodeWord (wordXYN 0xD000 x y n) = .ok (.drw x y n) ∧
    (n = 0 ∨ s.addrI + n.toNat ≤ 0x1000 → Completes (.drw x y n) s (fun t =>
      (∀ r c, SpriteCovers s x y n r c → t.pixel r c = !s.pixel r c) ∧
      (∀ r c, ¬ SpriteCovers s x y n r c → t.pixel r c = s.pixel r c) ∧
      ((∃ r c, SpriteCovers s x y n r c ∧ s.pixel r c = true) → t.getV 15 = 1) ∧
      ((∀ r c, SpriteCovers s x y n r c → s.pixel r c = false) → t.getV 15 = 0) ∧
      (∀ r, r ≠ 15 → t.getV r = s.getV r) ∧ t.drawRequested = true ∧ t.pc = s.pc + 2 ∧
      Frame [.display, .regs, .drawRequested, .pc] s t)) ∧
    (n ≠ 0 → 0x1000 < s.addrI + n.toNat →
      Completes (.drw x y n) s (Raised ⟨.addressRange, BitVec.ofNat 17 (max s.addrI 0x1000), .read⟩ s))

/-- The same sprite drawn twice at the same place restores every pixel, and the second draw collides exactly when some
pixel the sprite covers was off before the first: so it does on a blank display if the sprite covers any (R143; log entry
13 on R145's shorter remark). -/
def Obligations.DrawTwiceRestores : Prop :=
  ∀ (s t u : State) (x y : Reg) (n : Nibble), x ≠ 15 → y ≠ 15 → n = 0 ∨ s.addrI + n.toNat ≤ 0x1000 →
    exec (.drw x y n) s = .next t → exec (.drw x y n) t = .next u →
    (∀ r c, u.pixel r c = s.pixel r c) ∧
    (u.getV 15 = 1 ↔ ∃ r c, SpriteCovers s x y n r c ∧ s.pixel r c = false)

/-- Only 00E0 and Dxyn change a pixel or draw_requested, and no instruction clears draw_requested (R43, R147). -/
def Obligations.DisplayWriters : Prop :=
  ∀ (i : Instr) (s t : State), exec i s = .next t →
    (s.drawRequested = true → t.drawRequested = true) ∧
    (i ≠ .cls → (∀ x y n, i ≠ .drw x y n) →
      t.drawRequested = s.drawRequested ∧ ∀ r c, t.pixel r c = s.pixel r c)

/-- R146 with R140's bit order: bit r*64 + c of the framebuffer port is pixel (column c, row r). -/
def Obligations.FramebufferBitOrder : Prop :=
  ∀ (s : State) (r : Fin 32) (c : Fin 64), s.fbOut.getLsbD (r.val * 64 + c.val) = s.pixel r c

/-! ## Keys and timers (44_keys_timers.md) -/

/-- Ex9E skips if the key numbered V[x] is down, ExA1 if it is up (R262, R263); above 15 both raise KEY_INDEX_RANGE (D5). -/
def Obligations.KeySkips : Prop :=
  ∀ (s : State) (x : Reg),
    decodeWord (wordX 0xE09E x) = .ok (.skp x) ∧ decodeWord (wordX 0xE0A1 x) = .ok (.sknp x) ∧
    ((s.getV x).toNat ≤ 15 →
      SkipsWhen (.skp x) s (s.key.getLsbD (s.getV x).toNat = true) ∧
      SkipsWhen (.sknp x) s (s.key.getLsbD (s.getV x).toNat = false)) ∧
    (15 < (s.getV x).toNat →
      Completes (.skp x) s (Raised ⟨.keyIndexRange, (s.getV x).setWidth 17, .none⟩ s) ∧
      Completes (.sknp x) s (Raised ⟨.keyIndexRange, (s.getV x).setWidth 17, .none⟩ s))

/-- Fx07 reads DT, Fx15 and Fx18 write DT and ST (the directions are D4), and no other instruction writes a timer (R41,
R42). -/
def Obligations.TimerMoves : Prop :=
  (∀ (s : State) (x : Reg),
    decodeWord (wordX 0xF007 x) = .ok (.ldVxDT x) ∧ SetsReg (.ldVxDT x) s x s.dt.toNat ∧
    decodeWord (wordX 0xF015 x) = .ok (.ldDTVx x) ∧
    Completes (.ldDTVx x) s (fun t => t.dt = s.getV x ∧ t.pc = s.pc + 2 ∧ Frame [.delayTimer, .pc] s t) ∧
    decodeWord (wordX 0xF018 x) = .ok (.ldSTVx x) ∧
    Completes (.ldSTVx x) s (fun t => t.st = s.getV x ∧ t.pc = s.pc + 2 ∧ Frame [.soundTimer, .pc] s t)) ∧
  ∀ (i : Instr) (s t : State), exec i s = .next t →
    ((∀ x, i ≠ .ldDTVx x) → t.dt = s.dt) ∧ ((∀ x, i ≠ .ldSTVx x) → t.st = s.st)

/-- Fx0A with no key down only sets awaiting_key; with a key down it loads the lowest such index (D6) and goes on
(R267). -/
def Obligations.KeyWaitTakesLowestKey : Prop :=
  ∀ (s : State) (x : Reg),
    decodeWord (wordX 0xF00A x) = .ok (.ldVxK x) ∧
    (s.key = 0 → Completes (.ldVxK x) s (fun t => t.awaitingKey = true ∧ Frame [.awaitingKey] s t)) ∧
    ∀ k : Fin 16, s.key.getLsbD k.val = true → (∀ j, j < k.val → s.key.getLsbD j = false) →
      Completes (.ldVxK x) s (fun t =>
        (t.getV x).toNat = k.val ∧ (∀ r, r ≠ x → t.getV r = s.getV r) ∧ t.awaitingKey = false ∧ t.pc = s.pc + 2 ∧
        Frame [.regs, .awaitingKey, .pc] s t)

/-- R312: the timer step of one cycle, its cadence over `j` cycles from cyc = 0 (both timers drop at the end of cycles N,
2N, 3N, ... and stay at 0), and no timer step in Paused or Stopped. -/
def Obligations.TimersDropEveryNCycles : Prop :=
  ∀ (n : Nat) (s : State), 1 ≤ n →
    ((s.timerStep n).cyc = if s.cyc + 1 = n then 0 else s.cyc + 1) ∧
    ((s.timerStep n).dt.toNat = if s.cyc + 1 = n then s.dt.toNat - 1 else s.dt.toNat) ∧
    ((s.timerStep n).st.toNat = if s.cyc + 1 = n then s.st.toNat - 1 else s.st.toNat) ∧
    Frame [.cyc, .delayTimer, .soundTimer] s (s.timerStep n) ∧
    (s.cyc = 0 → ∀ j, ((State.timerStep n)^[j] s).cyc = j % n ∧
      ((State.timerStep n)^[j] s).dt.toNat = s.dt.toNat - j / n ∧
      ((State.timerStep n)^[j] s).st.toNat = s.st.toNat - j / n) ∧
    (∀ inp, s.driver ≠ .running → requestCycle n inp s = .next s)

/-! ## The cycle and its errors (60_exceptions.md) -/

/-- R77: a fetch at a reads the two bytes at a and a + 1, high byte first, or raises ADDRESS_RANGE with the lower of the two
addresses that exceeds 0xFFF. -/
def Obligations.FetchIsBigEndian : Prop :=
  ∀ (s : State) (a : Nat),
    (a + 1 ≤ 0xFFF → ∃ w, s.fetch16 a = .ok w ∧
      w.toNat = (s.readByte a).toNat * 256 + (s.readByte (a + 1)).toNat) ∧
    (0xFFF < a → s.fetch16 a = .error ⟨.addressRange, BitVec.ofNat 17 a, .fetch⟩) ∧
    (a = 0xFFF → s.fetch16 a = .error ⟨.addressRange, 0x1000, .fetch⟩)

/-- The order of a cycle (R311; the timer step last is D15) and so the priority of its errors (R305): a PC above 0xFFE fails
at the fetch, whatever memory holds; a word that does not decode fails next; else the instruction runs on the sampled keys
and the timer step follows it, unless it raised an error. -/
def Obligations.CycleRunsInOrder : Prop :=
  ∀ (n : Nat) (inp : CycleInput) (s : State),
    (0xFFE < s.pc.toNat → runCycle n inp s =
      .next ((s.sample inp).raiseWith 0 ⟨.addressRange, BitVec.ofNat 17 (max s.pc.toNat 0x1000), .fetch⟩)) ∧
    (s.pc.toNat ≤ 0xFFE → ∀ d, decodeWord s.wordAtPC = .error d → runCycle n inp s =
      .next ((s.executing inp s.wordAtPC).raise ⟨.decodeFailure, s.wordAtPC.setWidth 17, .none⟩)) ∧
    (s.pc.toNat ≤ 0xFFE → ∀ i, decodeWord s.wordAtPC = .ok i →
      ∃ t, exec i (s.executing inp s.wordAtPC) = .next t ∧
        runCycle n inp s = .next (if t.driver = .running then t.timerStep n else t))

/-- A cycle that records an error changes nothing but the key sample, last_instr when the fetch succeeded, err and the
driver, which stops; cyc and the timers stay (R303, R304; D8, D15). -/
def Obligations.ErrorsArePrecise : Prop :=
  ∀ (n : Nat) (inp : CycleInput) (s t : State), s.driver = .running → s.err = none → runCycle n inp s = .next t →
    t.err ≠ none →
    t.driver = .stopped ∧ t.running = false ∧ t.paused = false ∧ t.key = inp.keys ∧
      (s.pc.toNat ≤ 0xFFE → t.lastInstr = s.wordAtPC) ∧ (0xFFE < s.pc.toNat → t.lastInstr = s.lastInstr) ∧
      Frame [.keys, .lastInstr, .err, .driver, .host] s t

/-- What the error record holds after a cycle: the instruction's address, the word fetched or 0 if the fetch failed, and a
kind exactly for ADDRESS_RANGE (R302, D16). -/
def Obligations.ErrorRecordContents : Prop :=
  ∀ (n : Nat) (inp : CycleInput) (s t : State) (r : ErrRecord), s.err = none → runCycle n inp s = .next t →
    t.err = some r →
    r.pc = s.pc ∧ (s.pc.toNat ≤ 0xFFE → r.word = s.wordAtPC) ∧ (0xFFE < s.pc.toNat → r.word = 0 ∧ r.kind = .fetch) ∧
      (r.kind = .none ↔ r.code ≠ .addressRange)

/-- Which instruction raises which error, when, and with what detail (R301; D5, D7, D9, D16). -/
def Obligations.ErrorsByInstruction : Prop :=
  ∀ (i : Instr) (s t : State) (r : ErrRecord), s.err = none → exec i s = .next t → t.err = some r →
    match r.code with
    | .romTooLarge => False
    | .decodeFailure => False
    | .stackOverflow => (∃ nnn, i = .call nnn) ∧ s.sp.val = 16 ∧ r.detail = 16
    | .stackUnderflow => i = .ret ∧ s.sp.val = 0 ∧ r.detail = 0
    | .addressRange => ∃ n, MovesBytes i r.kind n ∧ 0x1000 < s.addrI + n ∧ r.detail.toNat = max s.addrI 0x1000
    | .glyphWrite => ∃ n, MovesBytes i .write n ∧ s.addrI ≤ 0x04F ∧ r.detail.toNat = s.addrI
    | .keyIndexRange => ∃ x, (i = .skp x ∨ i = .sknp x) ∧ 15 < (s.getV x).toNat ∧ r.detail.toNat = (s.getV x).toNat
    | .iOverflow => ∃ x, i = .addIVx x ∧ 0xFFFF < s.regI.toNat + (s.getV x).toNat ∧ r.detail.toNat = s.regI.toNat

/-- No instruction reads cyc, err, draw_requested, awaiting_key, last_instr or the driver state: changing them changes
nothing else in its result (R50, R52). -/
def Obligations.BookkeepingIsUnread : Prop :=
  ∀ (i : Instr) (s : State) (c : Nat) (e : Option ErrRecord) (d k : Bool) (l : Word) (g : Driver),
    ∃ t u, exec i s = .next t ∧
      exec i { s with cyc := c, err := e, drawRequested := d, awaitingKey := k, lastInstr := l, driver := g } = .next u ∧
      Frame [.cyc, .err, .drawRequested, .awaitingKey, .lastInstr, .driver] t u

/-- An instruction word that Fx55 stores over the next address is the word the very next fetch reads (R88, R366; D23). -/
def Obligations.StoredWordIsFetchedNext : Prop :=
  ∀ (s t : State) (x : Reg), Memory.wf s.glyphRom s.mem = true → s.driver = .running → 1 ≤ x.toNat → s.pc.toNat ≤ 0xFFC →
    s.addrI = s.pc.toNat + 2 → exec (.ldMemVx x) s = .next t → t.driver = .running →
    t.fetch16 t.pc.toNat = .ok (wordOfBytes (s.getV 0) (s.getV 1))

/-- A cycle that completes emits one trace event: its PC, the word, the tag and every field of the word; a cycle that
raises an error emits none (R101, R318; D25). -/
def Obligations.TraceShowsCompletedCycles : Prop :=
  ∀ (n : Nat) (inp : CycleInput) (s t : State), s.driver = .running → runCycle n inp s = .next t →
    (t.driver = .running → ∃ e i, cycleTrace inp s = some e ∧ decodeWord s.wordAtPC = .ok i ∧ e.pc = s.pc ∧
      e.word = s.wordAtPC ∧ e.tag = i.tag ∧ e.x.toNat = s.wordAtPC.toNat / 256 % 16 ∧
      e.y.toNat = s.wordAtPC.toNat / 16 % 16 ∧ e.n.toNat = s.wordAtPC.toNat % 16 ∧
      e.kk.toNat = s.wordAtPC.toNat % 256 ∧ e.nnn.toNat = s.wordAtPC.toNat % 4096) ∧
    (t.driver ≠ .running → cycleTrace inp s = none)

/-! ## The driver and the host (60_exceptions.md, 70_reset_and_hazards.md, 10_state.md) -/

/-- In Stopped a step changes nothing of the block but draw_requested, which it clears if the host sends draw_ack and
leaves if not (D18; log entry 11); in Paused a step in whose gap the host sends nothing, or a cycle request only, changes
nothing of the block (R310, R320). -/
def Obligations.IdleStatesHoldEverything : Prop :=
  ∀ s t : State, step s = .next t →
    (s.driver = .stopped →
      Frame [.drawRequested, .host] s t ∧
      (∀ g rest, s.nextGap = some (g, rest) → t.drawRequested = if g.drawAck then false else s.drawRequested) ∧
      (s.host = [] → t.drawRequested = s.drawRequested)) ∧
    (s.driver = .paused → (∀ g rest, s.nextGap = some (g, rest) → ∃ c, g = ⟨false, false, [], false, c⟩) →
      Frame [.host] s t)

/-- The driver's transitions, one request at a time (R310; the no-ops are D18 and D29): a reset_req is the reset of
ResetClearsVolatileState, and leaves the driver Running. A draw_ack alone clears draw_requested and changes nothing else, in
every driver state (R147; log entry 11). -/
def Obligations.DriverTransitions : Prop :=
  ∀ s : State,
    (s.driver = .running →
      s.gapActions ⟨false, false, [.pause], false, none⟩ = { s with driver := .paused } ∧
      s.gapActions ⟨false, false, [.resume], false, none⟩ = s) ∧
    (s.driver = .paused →
      s.gapActions ⟨false, false, [.resume], false, none⟩ = { s with driver := .running } ∧
      s.gapActions ⟨false, false, [.pause], false, none⟩ = s) ∧
    (s.driver ≠ .stopped →
      s.gapActions ⟨true, false, [], false, none⟩ = { s with driver := .stopped } ∧
      s.gapActions ⟨false, true, [], false, none⟩ = s.resetReq ∧ s.resetReq.driver = .running) ∧
    (s.driver = .stopped → ∀ q r l, s.gapActions ⟨q, r, l, false, none⟩ = s) ∧
    ∀ c, s.gapActions ⟨false, false, [], true, c⟩ = { s with drawRequested := false }

/-- The order of the host's actions in one gap (R315, D19): a quit that takes effect voids the rest; a reset comes before
pause and resume, of which the later sent decides; draw_ack comes last. Every field but the driver and draw_requested is as
the reset leaves it, or as it was if the gap holds none. What is sent in two entries of the script with no
cycle request between is one gap: the step is that of the one entry with the actions of both. -/
def Obligations.HostActionsInOrder : Prop :=
  (∀ (s : State) (g h : HostGap) (rest : List HostGap), g.cycle = none →
    step { s with host := g :: h :: rest } =
      step { s with host := ⟨g.quit || h.quit, g.reset || h.reset, g.driverReqs ++ h.driverReqs, g.drawAck || h.drawAck,
        h.cycle⟩ :: rest }) ∧
  ∀ (s : State), s.driver ≠ .stopped → ∀ (r a : Bool) (l : List DriverReq) (c : Option CycleInput),
    s.gapActions ⟨true, r, l, a, c⟩ = { s with driver := .stopped } ∧
    (s.gapActions ⟨false, r, l ++ [.pause], a, c⟩).driver = .paused ∧
    (s.gapActions ⟨false, r, l ++ [.resume], a, c⟩).driver = .running ∧
    (s.gapActions ⟨false, r, l, true, c⟩).drawRequested = false ∧
    Frame [.driver, .drawRequested] (if r then s.resetReq else s) (s.gapActions ⟨false, r, l, a, c⟩) ∧
    (s.gapActions ⟨false, true, l, false, c⟩).drawRequested = true

/-- What a reset leaves (R361, R362; the values of the status fields are D17's, the return to Running D29's), and that it
does nothing in Stopped (R363, D18). -/
def Obligations.ResetClearsVolatileState : Prop :=
  ∀ s : State,
    (s.driver = .stopped → s.resetReq = s) ∧
    (s.driver ≠ .stopped →
      (∀ r, s.resetReq.getV r = 0) ∧ s.resetReq.regI = 0 ∧ s.resetReq.pc = 0x200 ∧
      (∀ j, s.resetReq.stackAt j = 0) ∧ s.resetReq.sp = 0 ∧ s.resetReq.dt = 0 ∧ s.resetReq.st = 0 ∧
      (∀ r c, s.resetReq.pixel r c = false) ∧ s.resetReq.key = 0 ∧ s.resetReq.awaitingKey = false ∧
      s.resetReq.cyc = 0 ∧ s.resetReq.lastInstr = 0 ∧ s.resetReq.drawRequested = true ∧
      s.resetReq.driver = .running ∧ s.resetReq.running = true ∧ s.resetReq.paused = false ∧
      (∀ a, s.resetReq.readByte a = s.readByte a) ∧ s.resetReq.err = s.err)

/-- The fields of the STATUS word (R50, R46; the layout is D36's), with the error codes 1 to 8 of R301, whose numbers are
D16's. -/
def Obligations.StatusWordLayout : Prop :=
  ∀ s : State, s.status.toNat =
    (match s.driver with | .running => 0 | .paused => 1 | .stopped => 2) +
    (match s.driver with | .running => 4 | .paused => 4 | .stopped => 0) +
    (match s.driver with | .running => 0 | .paused => 8 | .stopped => 0) +
    s.drawRequested.toNat * 16 + s.awaitingKey.toNat * 32 +
    (match s.err with
      | none => 0
      | some r => (match r.code with
        | .romTooLarge => 1 | .decodeFailure => 2 | .stackOverflow => 3 | .stackUnderflow => 4
        | .addressRange => 5 | .glyphWrite => 6 | .keyIndexRange => 7 | .iOverflow => 8)) * 256

/-- Initialise (R360, R90; D27), whatever the parameter GLYPH_ROM: the glyph table is at 0x000-0x04F, every register, stack
entry, timer, pixel, key, status flag and cyc is zero and PC is 0x200. A ROM of at most 3584 bytes lies at 0x200, all other
memory is zero, and the block is Running with no error. A longer one leaves memory without any of it and the block Stopped
with ROM_TOO_LARGE (PC there is the model's choice, log entry 19). What it leaves meets the invariant. -/
def Obligations.InitialiseResult : Prop :=
  ∀ (rom : List Byte) (glyphs : Config.GlyphRom) (s : State), s = State.initialise rom glyphs →
    (∀ r, s.getV r = 0) ∧ s.regI = 0 ∧ s.pc = 0x200 ∧ (∀ j, s.stackAt j = 0) ∧ s.sp = 0 ∧ s.dt = 0 ∧ s.st = 0 ∧
    (∀ r c, s.pixel r c = false) ∧ s.key = 0 ∧ s.drawRequested = false ∧ s.awaitingKey = false ∧ s.cyc = 0 ∧
    s.lastInstr = 0 ∧ s.glyphRom = glyphs ∧ (∀ i (h : i < 80), s.readByte i = glyphs[i]) ∧
    (∀ a, 0x050 ≤ a → a < 0x200 → s.readByte a = 0) ∧
    (rom.length ≤ 3584 →
      (∀ i (h : i < rom.length), s.readByte (0x200 + i) = rom[i]) ∧
      (∀ a, 0x200 + rom.length ≤ a → s.readByte a = 0) ∧
      s.driver = .running ∧ s.running = true ∧ s.paused = false ∧ s.err = none) ∧
    (3584 < rom.length →
      (∀ a, 0x200 ≤ a → s.readByte a = 0) ∧
      s.driver = .stopped ∧ s.running = false ∧ s.paused = false ∧
      s.err = some ⟨.romTooLarge, 0, 0, BitVec.ofNat 17 (min rom.length 0x1FFFF), .none⟩) ∧
    s.Inv

/-- A step in which a cycle is requested of the Running block is that cycle, whatever PC and the word there are; so what the
other statements say of a cycle is said of a step. When the bytes at PC decode to i, the step is i's execution, on the state
with the keys sampled, the random byte taken and last_instr written, followed by the timer step unless i raised an error. The
cycle takes the inputs of the request at the end of the gap, after the gap's actions; with an empty host script it takes the
free values of Config, where that a cycle is requested at all is the model's choice (log entry 2; R316 has the block idle
without a request). A step whose gap leaves the block not Running, or ends the script without a cycle request, is the gap's
actions alone. -/
def Obligations.StepRunsDecodedInstruction : Prop :=
  (∀ (s : State) (i : Instr),
    (s.host = [] → s.driver = .running → s.pc.toNat ≤ 0xFFE → decodeWord s.wordAtPC = .ok i →
      ∃ t, exec i (({ s with draws := s.draws + 1 } : State).executing
          ⟨Config.keysIn s.draws, Config.randIn s.draws⟩ s.wordAtPC) = .next t ∧
        step s = .next (if t.driver = .running then t.timerStep Config.timerDivisor else t)) ∧
    (∀ (g : HostGap) (rest : List HostGap) (inp : CycleInput) (u : State), s.host = g :: rest → g.cycle = some inp →
      u = ({ s with host := rest } : State).gapActions g → u.driver = .running → u.pc.toNat ≤ 0xFFE →
      decodeWord u.wordAtPC = .ok i →
      ∃ t, exec i (u.executing inp u.wordAtPC) = .next t ∧
        step s = .next (if t.driver = .running then t.timerStep Config.timerDivisor else t))) ∧
  (∀ s : State, s.host = [] → s.driver = .running →
    step s = runCycle Config.timerDivisor ⟨Config.keysIn s.draws, Config.randIn s.draws⟩ { s with draws := s.draws + 1 }) ∧
  (∀ (s u : State) (g : HostGap) (rest : List HostGap) (inp : CycleInput), s.host = g :: rest → g.cycle = some inp →
    u = ({ s with host := rest } : State).gapActions g → u.driver = .running →
    step s = runCycle Config.timerDivisor inp u) ∧
  ∀ (s u : State) (g : HostGap) (rest : List HostGap), s.host = g :: rest →
    u = ({ s with host := rest } : State).gapActions g →
    (u.driver ≠ .running ∧ g.cycle ≠ none) ∨ (g.cycle = none ∧ rest = []) → step s = .next u

/-- Nothing stops the model: every step of every state answers a next state (an error of the block is a next state in
Stopped, R304; log entry 10), takes one gap of the host script (log entries 2, 14), and with none left changes nothing
unless the block is Running. -/
def Obligations.EveryStepAnswersNext : Prop :=
  ∀ s : State, ∃ t, step s = .next t ∧
    (s.driver ≠ .running → s.host = [] → t = s) ∧ t.host = (match s.nextGap with | none => [] | some (_, rest) => rest)

/-! ## The invariant -/

/-- The invariant holds right after reset. -/
def Obligations.InvHoldsAtReset : Prop := State.reset.Inv

/-- Every step keeps the invariant: canonical memory with the glyph table intact, PC and stack entries in their bounds, cyc
below TIMER_DIVISOR, errors only in Stopped, awaiting_key only at an Fx0A. -/
def Obligations.StepKeepsInv : Prop := ∀ s t : State, s.Inv → step s = .next t → t.Inv
end

