-- ==== Sys2Proof/Laws/Memory.lean ====
section
/-! SUPPORT. The laws of memory: what a byte reads after a write, that every write keeps the canonical form, and what the
range check of 20_memory.md R80 answers. -/

namespace Sys2Proof.Machine

variable {g : Config.GlyphRom}

/-! ## The contents no store has touched (R51, R71, R73) -/

/-- The glyph table reads as the parameter GLYPH_ROM. -/
theorem Memory.background_glyph {a : Nat} (h : a < Config.glyphSize) : Memory.background g a = g[a] := dif_pos h

/-- The rest of memory starts at zero. -/
theorem Memory.background_zero {a : Nat} (h : Config.glyphSize ≤ a) : Memory.background g a = 0 :=
  dif_neg (Nat.not_lt.2 h)

@[simp] theorem Memory.read_nil (a : Nat) : Memory.read g [] a = Memory.background g a := rfl

/-! ## One byte -/

/-- A write leaves every other address alone. -/
theorem Memory.read_write_ne {a c : Nat} (h : c ≠ a) (m : Memory) (b : Byte) :
    Memory.read g (Memory.write g m a b) c = Memory.read g m c := by
  induction m with
  | nil =>
    simp only [Memory.write]
    split <;> simp [Memory.read, h]
  | cons e t ih =>
    obtain ⟨k, d⟩ := e
    simp only [Memory.write]
    split
    · split <;> simp [Memory.read, h]
    · split
      · rename_i hak
        subst hak
        split <;> simp [Memory.read, h]
      · simp [Memory.read, ih]

/-- Below the first listed address, a canonical memory reads as the background. -/
theorem Memory.read_of_lt {lo a : Nat} {m : Memory} (hm : Memory.wfFrom g lo m = true) (h : a < lo) :
    Memory.read g m a = Memory.background g a := by
  induction m generalizing lo with
  | nil => rfl
  | cons e t ih =>
    obtain ⟨k, d⟩ := e
    simp only [Memory.wfFrom, Bool.and_eq_true, decide_eq_true_eq] at hm
    have hak : a ≠ k := by omega
    simp only [Memory.read, if_neg hak]
    exact ih hm.2 (by omega)

/-- A read after a write to the same address gives the byte written. -/
theorem Memory.read_write_self {lo a : Nat} {m : Memory} (hm : Memory.wfFrom g lo m = true) (b : Byte) :
    Memory.read g (Memory.write g m a b) a = b := by
  induction m generalizing lo with
  | nil =>
    simp only [Memory.write]
    split
    · next hb => simp [Memory.read, hb]
    · simp [Memory.read]
  | cons e t ih =>
    obtain ⟨k, d⟩ := e
    have hwf := hm
    simp only [Memory.wfFrom, Bool.and_eq_true, decide_eq_true_eq] at hwf
    simp only [Memory.write]
    split
    · next hlt =>
      split
      · next hb =>
        rw [hb]
        simp only [Memory.read, if_neg (by omega : a ≠ k)]
        exact Memory.read_of_lt hwf.2 (by omega)
      · simp [Memory.read]
    · split
      · next heq =>
        subst heq
        split
        · next hb =>
          rw [hb]
          exact Memory.read_of_lt hwf.2 (by omega)
        · simp [Memory.read]
      · next hne =>
        simp only [Memory.read, if_neg hne]
        exact ih hwf.2

theorem Memory.wfFrom_mono {lo lo' : Nat} {m : Memory} (hm : Memory.wfFrom g lo m = true) (h : lo' ≤ lo) :
    Memory.wfFrom g lo' m = true := by
  cases m with
  | nil => rfl
  | cons e t =>
    obtain ⟨k, d⟩ := e
    simp only [Memory.wfFrom, Bool.and_eq_true, decide_eq_true_eq] at hm ⊢
    exact ⟨⟨⟨by omega, hm.1.1.2⟩, hm.1.2⟩, hm.2⟩

/-- A write inside the address space keeps the canonical form. -/
theorem Memory.wfFrom_write {lo a : Nat} {m : Memory} (hm : Memory.wfFrom g lo m = true) (hlo : lo ≤ a)
    (ha : a < Config.memSize) (b : Byte) : Memory.wfFrom g lo (Memory.write g m a b) = true := by
  induction m generalizing lo with
  | nil =>
    simp only [Memory.write]
    split
    · rfl
    · next hb => simp [Memory.wfFrom, hlo, ha, hb]
  | cons e t ih =>
    obtain ⟨k, d⟩ := e
    have hwf := hm
    simp only [Memory.wfFrom, Bool.and_eq_true, decide_eq_true_eq] at hwf
    simp only [Memory.write]
    split
    · next hlt =>
      split
      · exact hm
      · next hb =>
        simp only [Memory.wfFrom, Bool.and_eq_true, decide_eq_true_eq]
        exact ⟨⟨⟨hlo, ha⟩, hb⟩, ⟨⟨⟨by omega, hwf.1.1.2⟩, hwf.1.2⟩, hwf.2⟩⟩
    · split
      · next heq =>
        subst heq
        split
        · exact Memory.wfFrom_mono hwf.2 (by omega)
        · next hb =>
          simp only [Memory.wfFrom, Bool.and_eq_true, decide_eq_true_eq]
          exact ⟨⟨⟨hlo, ha⟩, hb⟩, hwf.2⟩
      · next hne =>
        simp only [Memory.wfFrom, Bool.and_eq_true, decide_eq_true_eq]
        exact ⟨hwf.1, ih hwf.2 (by omega)⟩

/-- `Memory.write` keeps the canonical form. -/
theorem Memory.wf_write {a : Nat} {m : Memory} (hm : Memory.wf g m = true) (ha : a < Config.memSize) (b : Byte) :
    Memory.wf g (Memory.write g m a b) = true := Memory.wfFrom_write hm (Nat.zero_le a) ha b

/-! ## Several bytes -/

/-- Outside the bytes stored, memory reads as before. -/
theorem Memory.read_writeBytes_outside (m : Memory) (a c : Nat) (bs : List Byte)
    (h : c < a ∨ a + bs.length ≤ c) : Memory.read g (Memory.writeBytes g m a bs) c = Memory.read g m c := by
  induction bs generalizing m a with
  | nil => rfl
  | cons b bs ih =>
    simp only [List.length_cons] at h
    simp only [Memory.writeBytes]
    rw [ih _ _ (by omega), Memory.read_write_ne (by omega)]

/-- `Memory.writeBytes` keeps the canonical form. -/
theorem Memory.wf_writeBytes {m : Memory} (hm : Memory.wf g m = true) (a : Nat) (bs : List Byte)
    (h : a + bs.length ≤ Config.memSize) : Memory.wf g (Memory.writeBytes g m a bs) = true := by
  induction bs generalizing m a with
  | nil => exact hm
  | cons b bs ih =>
    simp only [List.length_cons] at h
    exact ih (Memory.wf_write hm (by omega) b) (a + 1) (by omega)

/-- The k-th byte stored is what its address reads. -/
theorem Memory.read_writeBytes_inside {m : Memory} (hm : Memory.wf g m = true) (a : Nat) (bs : List Byte)
    (h : a + bs.length ≤ Config.memSize) (k : Nat) (hk : k < bs.length) :
    Memory.read g (Memory.writeBytes g m a bs) (a + k) = bs[k] := by
  induction bs generalizing m a k with
  | nil => simp at hk
  | cons b bs ih =>
    simp only [List.length_cons] at h hk
    simp only [Memory.writeBytes]
    cases k with
    | zero =>
      show Memory.read g _ a = b
      rw [Memory.read_writeBytes_outside _ (a + 1) a _ (by omega)]
      exact Memory.read_write_self (lo := 0) hm b
    | succ k =>
      have := ih (Memory.wf_write (a := a) hm (by omega) b) (a + 1) (by omega) k (by omega)
      simpa [Nat.add_assoc, Nat.add_comm 1 k] using this

/-! ## The checks of an access (R74, R75, R80) -/

theorem accessError_eq_none {kind : AccessKind} {a : Nat} :
    accessError kind a = none ↔ a ≤ 0xFFF ∧ (kind = .write → 0x50 ≤ a) := by
  simp only [accessError, Config.lastAddr, Config.glyphSize]
  by_cases h1 : 0xFFF < a
  · rw [if_pos h1]
    simp only [reduceCtorEq, false_iff]
    omega
  · by_cases h2 : kind = .write ∧ a < 80
    · rw [if_neg h1, if_pos h2]
      simp only [reduceCtorEq, false_iff, not_and]
      intro _ h
      have := h h2.1
      omega
    · rw [if_neg h1, if_neg h2]
      simp only [true_iff]
      exact ⟨by omega, fun hk => by by_contra hlt; exact h2 ⟨hk, by omega⟩⟩

theorem rangeError_eq_none {kind : AccessKind} {a n : Nat} :
    rangeError kind a n = none ↔ ∀ k, k < n → accessError kind (a + k) = none := by
  simp [rangeError, List.findSome?_eq_none_iff]

/-- A read or fetch of at least one byte has no error exactly when its last byte is at most 0xFFF. -/
theorem rangeError_read_eq_none {kind : AccessKind} (hk : kind ≠ .write) {a n : Nat} (hn : 0 < n) :
    rangeError kind a n = none ↔ a + n ≤ 0x1000 := by
  simp only [rangeError_eq_none, accessError_eq_none]
  constructor
  · intro h
    have := h (n - 1) (by omega)
    omega
  · intro h k hkn
    exact ⟨by omega, fun hw => absurd hw hk⟩

/-- A write of at least one byte has no error exactly when it lies in 0x050-0xFFF. -/
theorem rangeError_write_eq_none {a n : Nat} (hn : 0 < n) :
    rangeError .write a n = none ↔ 0x50 ≤ a ∧ a + n ≤ 0x1000 := by
  simp only [rangeError_eq_none, accessError_eq_none, forall_const]
  constructor
  · intro h
    have h0 := h 0 hn
    have := h (n - 1) (by omega)
    omega
  · intro h k hkn
    omega

theorem rangeError_zero (kind : AccessKind) (a : Nat) : rangeError kind a 0 = none := rfl

/-- The error of a range is that of its lowest byte that has one (R80). -/
theorem rangeError_eq_some {kind : AccessKind} {a n : Nat} {e : BlockError} :
    rangeError kind a n = some e ↔
      ∃ k, k < n ∧ accessError kind (a + k) = some e ∧ ∀ j, j < k → accessError kind (a + j) = none := by
  induction n generalizing e with
  | zero => simp [rangeError]
  | succ n ih =>
    have hsplit : rangeError kind a (n + 1) =
        (match rangeError kind a n with
          | some e => some e
          | none => accessError kind (a + n)) := by
      simp only [rangeError, List.range_succ, List.findSome?_append, List.findSome?_cons, List.findSome?_nil]
      cases (List.range n).findSome? fun k => accessError kind (a + k) <;> simp
      cases accessError kind (a + n) <;> rfl
    rw [hsplit]
    cases hr : rangeError kind a n with
    | some e' =>
      simp only [Option.some.injEq]
      constructor
      · rintro rfl
        obtain ⟨k, hk, h1, h2⟩ := ih.1 hr
        exact ⟨k, by omega, h1, h2⟩
      · rintro ⟨k, hk, h1, h2⟩
        have : rangeError kind a n = some e := by
          refine ih.2 ⟨k, ?_, h1, h2⟩
          by_contra hkn
          have hkn' : k = n := by omega
          subst hkn'
          have := rangeError_eq_none.2 h2
          rw [this] at hr
          cases hr
        rw [hr] at this
        exact Option.some.inj this
    | none =>
      simp only
      have hall := rangeError_eq_none.1 hr
      constructor
      · intro h
        exact ⟨n, by omega, h, hall⟩
      · rintro ⟨k, hk, h1, h2⟩
        have hkn : k = n := by
          by_contra hne
          rw [hall k (by omega)] at h1
          cases h1
        subst hkn
        exact h1

/-! ## Fetch (R77) -/

/-- What `Fetch16` answers: the two bytes when both addresses exist. -/
theorem State.fetch16_ok (s : State) {a : Nat} (h : a ≤ 0xFFE) :
    s.fetch16 a = .ok (wordOfBytes (s.readByte a) (s.readByte (a + 1))) := by
  have : rangeError .fetch a 2 = none := (rangeError_read_eq_none (by decide) (by omega)).2 (by omega)
  simp only [State.fetch16, this]

/-- What `Fetch16` answers: ADDRESS_RANGE at the lowest address above 0xFFF. -/
theorem State.fetch16_error (s : State) {a : Nat} (h : 0xFFE < a) :
    s.fetch16 a = .error ⟨.addressRange, BitVec.ofNat 17 (max a 0x1000), .fetch⟩ := by
  have : rangeError .fetch a 2 = some ⟨.addressRange, BitVec.ofNat 17 (max a 0x1000), .fetch⟩ := by
    rw [rangeError_eq_some]
    by_cases ha : 0xFFF < a
    · exact ⟨0, by omega, by simp [accessError, Config.lastAddr, ha, Nat.max_eq_left (by omega : 0x1000 ≤ a)],
        fun j hj => by omega⟩
    · have ha' : a = 0xFFF := by omega
      subst ha'
      refine ⟨1, by omega, by simp [accessError, Config.lastAddr], fun j hj => ?_⟩
      obtain rfl : j = 0 := by omega
      exact accessError_eq_none.2 ⟨by omega, by simp⟩
  simp only [State.fetch16, this]

end Sys2Proof.Machine
end

