-- ==== Sys2Proof/Laws/State.lean ====
section
/-! SUPPORT. One lemma per field per named update of State, each true by rfl, and what a register reads after a write
(10_state.md R32, 42_alu.md R191), so that no later proof unfolds a record update. -/

namespace Sys2Proof.Machine

variable (s : State)

/-! ## setV -/

@[simp] theorem State.setV_mem (x : Reg) (b : Byte) : (s.setV x b).mem = s.mem := rfl
@[simp] theorem State.setV_v (x : Reg) (b : Byte) : (s.setV x b).v = s.v.set x.toNat b x.isLt := rfl
@[simp] theorem State.setV_regI (x : Reg) (b : Byte) : (s.setV x b).regI = s.regI := rfl
@[simp] theorem State.setV_pc (x : Reg) (b : Byte) : (s.setV x b).pc = s.pc := rfl
@[simp] theorem State.setV_stack (x : Reg) (b : Byte) : (s.setV x b).stack = s.stack := rfl
@[simp] theorem State.setV_sp (x : Reg) (b : Byte) : (s.setV x b).sp = s.sp := rfl
@[simp] theorem State.setV_dt (x : Reg) (b : Byte) : (s.setV x b).dt = s.dt := rfl
@[simp] theorem State.setV_st (x : Reg) (b : Byte) : (s.setV x b).st = s.st := rfl
@[simp] theorem State.setV_fb (x : Reg) (b : Byte) : (s.setV x b).fb = s.fb := rfl
@[simp] theorem State.setV_key (x : Reg) (b : Byte) : (s.setV x b).key = s.key := rfl
@[simp] theorem State.setV_drawRequested (x : Reg) (b : Byte) : (s.setV x b).drawRequested = s.drawRequested := rfl
@[simp] theorem State.setV_awaitingKey (x : Reg) (b : Byte) : (s.setV x b).awaitingKey = s.awaitingKey := rfl
@[simp] theorem State.setV_driver (x : Reg) (b : Byte) : (s.setV x b).driver = s.driver := rfl
@[simp] theorem State.setV_cyc (x : Reg) (b : Byte) : (s.setV x b).cyc = s.cyc := rfl
@[simp] theorem State.setV_lastInstr (x : Reg) (b : Byte) : (s.setV x b).lastInstr = s.lastInstr := rfl
@[simp] theorem State.setV_err (x : Reg) (b : Byte) : (s.setV x b).err = s.err := rfl
@[simp] theorem State.setV_rand (x : Reg) (b : Byte) : (s.setV x b).rand = s.rand := rfl
@[simp] theorem State.setV_host (x : Reg) (b : Byte) : (s.setV x b).host = s.host := rfl
@[simp] theorem State.setV_draws (x : Reg) (b : Byte) : (s.setV x b).draws = s.draws := rfl
@[simp] theorem State.setV_glyphRom (x : Reg) (b : Byte) : (s.setV x b).glyphRom = s.glyphRom := rfl

/-! ## setI -/

@[simp] theorem State.setI_mem (a : Word) : (s.setI a).mem = s.mem := rfl
@[simp] theorem State.setI_v (a : Word) : (s.setI a).v = s.v := rfl
@[simp] theorem State.setI_regI (a : Word) : (s.setI a).regI = a := rfl
@[simp] theorem State.setI_pc (a : Word) : (s.setI a).pc = s.pc := rfl
@[simp] theorem State.setI_stack (a : Word) : (s.setI a).stack = s.stack := rfl
@[simp] theorem State.setI_sp (a : Word) : (s.setI a).sp = s.sp := rfl
@[simp] theorem State.setI_dt (a : Word) : (s.setI a).dt = s.dt := rfl
@[simp] theorem State.setI_st (a : Word) : (s.setI a).st = s.st := rfl
@[simp] theorem State.setI_fb (a : Word) : (s.setI a).fb = s.fb := rfl
@[simp] theorem State.setI_key (a : Word) : (s.setI a).key = s.key := rfl
@[simp] theorem State.setI_drawRequested (a : Word) : (s.setI a).drawRequested = s.drawRequested := rfl
@[simp] theorem State.setI_awaitingKey (a : Word) : (s.setI a).awaitingKey = s.awaitingKey := rfl
@[simp] theorem State.setI_driver (a : Word) : (s.setI a).driver = s.driver := rfl
@[simp] theorem State.setI_cyc (a : Word) : (s.setI a).cyc = s.cyc := rfl
@[simp] theorem State.setI_lastInstr (a : Word) : (s.setI a).lastInstr = s.lastInstr := rfl
@[simp] theorem State.setI_err (a : Word) : (s.setI a).err = s.err := rfl
@[simp] theorem State.setI_rand (a : Word) : (s.setI a).rand = s.rand := rfl
@[simp] theorem State.setI_host (a : Word) : (s.setI a).host = s.host := rfl
@[simp] theorem State.setI_draws (a : Word) : (s.setI a).draws = s.draws := rfl
@[simp] theorem State.setI_glyphRom (a : Word) : (s.setI a).glyphRom = s.glyphRom := rfl

/-! ## setPC -/

@[simp] theorem State.setPC_mem (a : Word) : (s.setPC a).mem = s.mem := rfl
@[simp] theorem State.setPC_v (a : Word) : (s.setPC a).v = s.v := rfl
@[simp] theorem State.setPC_regI (a : Word) : (s.setPC a).regI = s.regI := rfl
@[simp] theorem State.setPC_pc (a : Word) : (s.setPC a).pc = a := rfl
@[simp] theorem State.setPC_stack (a : Word) : (s.setPC a).stack = s.stack := rfl
@[simp] theorem State.setPC_sp (a : Word) : (s.setPC a).sp = s.sp := rfl
@[simp] theorem State.setPC_dt (a : Word) : (s.setPC a).dt = s.dt := rfl
@[simp] theorem State.setPC_st (a : Word) : (s.setPC a).st = s.st := rfl
@[simp] theorem State.setPC_fb (a : Word) : (s.setPC a).fb = s.fb := rfl
@[simp] theorem State.setPC_key (a : Word) : (s.setPC a).key = s.key := rfl
@[simp] theorem State.setPC_drawRequested (a : Word) : (s.setPC a).drawRequested = s.drawRequested := rfl
@[simp] theorem State.setPC_awaitingKey (a : Word) : (s.setPC a).awaitingKey = s.awaitingKey := rfl
@[simp] theorem State.setPC_driver (a : Word) : (s.setPC a).driver = s.driver := rfl
@[simp] theorem State.setPC_cyc (a : Word) : (s.setPC a).cyc = s.cyc := rfl
@[simp] theorem State.setPC_lastInstr (a : Word) : (s.setPC a).lastInstr = s.lastInstr := rfl
@[simp] theorem State.setPC_err (a : Word) : (s.setPC a).err = s.err := rfl
@[simp] theorem State.setPC_rand (a : Word) : (s.setPC a).rand = s.rand := rfl
@[simp] theorem State.setPC_host (a : Word) : (s.setPC a).host = s.host := rfl
@[simp] theorem State.setPC_draws (a : Word) : (s.setPC a).draws = s.draws := rfl
@[simp] theorem State.setPC_glyphRom (a : Word) : (s.setPC a).glyphRom = s.glyphRom := rfl

/-! ## advance -/

@[simp] theorem State.advance_mem : (s.advance).mem = s.mem := rfl
@[simp] theorem State.advance_v : (s.advance).v = s.v := rfl
@[simp] theorem State.advance_regI : (s.advance).regI = s.regI := rfl
@[simp] theorem State.advance_pc : (s.advance).pc = s.pc + 2 := rfl
@[simp] theorem State.advance_stack : (s.advance).stack = s.stack := rfl
@[simp] theorem State.advance_sp : (s.advance).sp = s.sp := rfl
@[simp] theorem State.advance_dt : (s.advance).dt = s.dt := rfl
@[simp] theorem State.advance_st : (s.advance).st = s.st := rfl
@[simp] theorem State.advance_fb : (s.advance).fb = s.fb := rfl
@[simp] theorem State.advance_key : (s.advance).key = s.key := rfl
@[simp] theorem State.advance_drawRequested : (s.advance).drawRequested = s.drawRequested := rfl
@[simp] theorem State.advance_awaitingKey : (s.advance).awaitingKey = s.awaitingKey := rfl
@[simp] theorem State.advance_driver : (s.advance).driver = s.driver := rfl
@[simp] theorem State.advance_cyc : (s.advance).cyc = s.cyc := rfl
@[simp] theorem State.advance_lastInstr : (s.advance).lastInstr = s.lastInstr := rfl
@[simp] theorem State.advance_err : (s.advance).err = s.err := rfl
@[simp] theorem State.advance_rand : (s.advance).rand = s.rand := rfl
@[simp] theorem State.advance_host : (s.advance).host = s.host := rfl
@[simp] theorem State.advance_draws : (s.advance).draws = s.draws := rfl
@[simp] theorem State.advance_glyphRom : (s.advance).glyphRom = s.glyphRom := rfl

/-! ## skipIf -/

@[simp] theorem State.skipIf_mem (c : Bool) : (s.skipIf c).mem = s.mem := rfl
@[simp] theorem State.skipIf_v (c : Bool) : (s.skipIf c).v = s.v := rfl
@[simp] theorem State.skipIf_regI (c : Bool) : (s.skipIf c).regI = s.regI := rfl
@[simp] theorem State.skipIf_pc (c : Bool) : (s.skipIf c).pc = s.pc + if c then 4 else 2 := rfl
@[simp] theorem State.skipIf_stack (c : Bool) : (s.skipIf c).stack = s.stack := rfl
@[simp] theorem State.skipIf_sp (c : Bool) : (s.skipIf c).sp = s.sp := rfl
@[simp] theorem State.skipIf_dt (c : Bool) : (s.skipIf c).dt = s.dt := rfl
@[simp] theorem State.skipIf_st (c : Bool) : (s.skipIf c).st = s.st := rfl
@[simp] theorem State.skipIf_fb (c : Bool) : (s.skipIf c).fb = s.fb := rfl
@[simp] theorem State.skipIf_key (c : Bool) : (s.skipIf c).key = s.key := rfl
@[simp] theorem State.skipIf_drawRequested (c : Bool) : (s.skipIf c).drawRequested = s.drawRequested := rfl
@[simp] theorem State.skipIf_awaitingKey (c : Bool) : (s.skipIf c).awaitingKey = s.awaitingKey := rfl
@[simp] theorem State.skipIf_driver (c : Bool) : (s.skipIf c).driver = s.driver := rfl
@[simp] theorem State.skipIf_cyc (c : Bool) : (s.skipIf c).cyc = s.cyc := rfl
@[simp] theorem State.skipIf_lastInstr (c : Bool) : (s.skipIf c).lastInstr = s.lastInstr := rfl
@[simp] theorem State.skipIf_err (c : Bool) : (s.skipIf c).err = s.err := rfl
@[simp] theorem State.skipIf_rand (c : Bool) : (s.skipIf c).rand = s.rand := rfl
@[simp] theorem State.skipIf_host (c : Bool) : (s.skipIf c).host = s.host := rfl
@[simp] theorem State.skipIf_draws (c : Bool) : (s.skipIf c).draws = s.draws := rfl
@[simp] theorem State.skipIf_glyphRom (c : Bool) : (s.skipIf c).glyphRom = s.glyphRom := rfl

/-! ## storeBytes -/

@[simp] theorem State.storeBytes_mem (a : Nat) (bs : List Byte) : (s.storeBytes a bs).mem = Memory.writeBytes s.glyphRom s.mem a bs := rfl
@[simp] theorem State.storeBytes_v (a : Nat) (bs : List Byte) : (s.storeBytes a bs).v = s.v := rfl
@[simp] theorem State.storeBytes_regI (a : Nat) (bs : List Byte) : (s.storeBytes a bs).regI = s.regI := rfl
@[simp] theorem State.storeBytes_pc (a : Nat) (bs : List Byte) : (s.storeBytes a bs).pc = s.pc := rfl
@[simp] theorem State.storeBytes_stack (a : Nat) (bs : List Byte) : (s.storeBytes a bs).stack = s.stack := rfl
@[simp] theorem State.storeBytes_sp (a : Nat) (bs : List Byte) : (s.storeBytes a bs).sp = s.sp := rfl
@[simp] theorem State.storeBytes_dt (a : Nat) (bs : List Byte) : (s.storeBytes a bs).dt = s.dt := rfl
@[simp] theorem State.storeBytes_st (a : Nat) (bs : List Byte) : (s.storeBytes a bs).st = s.st := rfl
@[simp] theorem State.storeBytes_fb (a : Nat) (bs : List Byte) : (s.storeBytes a bs).fb = s.fb := rfl
@[simp] theorem State.storeBytes_key (a : Nat) (bs : List Byte) : (s.storeBytes a bs).key = s.key := rfl
@[simp] theorem State.storeBytes_drawRequested (a : Nat) (bs : List Byte) : (s.storeBytes a bs).drawRequested = s.drawRequested := rfl
@[simp] theorem State.storeBytes_awaitingKey (a : Nat) (bs : List Byte) : (s.storeBytes a bs).awaitingKey = s.awaitingKey := rfl
@[simp] theorem State.storeBytes_driver (a : Nat) (bs : List Byte) : (s.storeBytes a bs).driver = s.driver := rfl
@[simp] theorem State.storeBytes_cyc (a : Nat) (bs : List Byte) : (s.storeBytes a bs).cyc = s.cyc := rfl
@[simp] theorem State.storeBytes_lastInstr (a : Nat) (bs : List Byte) : (s.storeBytes a bs).lastInstr = s.lastInstr := rfl
@[simp] theorem State.storeBytes_err (a : Nat) (bs : List Byte) : (s.storeBytes a bs).err = s.err := rfl
@[simp] theorem State.storeBytes_rand (a : Nat) (bs : List Byte) : (s.storeBytes a bs).rand = s.rand := rfl
@[simp] theorem State.storeBytes_host (a : Nat) (bs : List Byte) : (s.storeBytes a bs).host = s.host := rfl
@[simp] theorem State.storeBytes_draws (a : Nat) (bs : List Byte) : (s.storeBytes a bs).draws = s.draws := rfl
@[simp] theorem State.storeBytes_glyphRom (a : Nat) (bs : List Byte) : (s.storeBytes a bs).glyphRom = s.glyphRom := rfl

/-! ## raiseWith -/

@[simp] theorem State.raiseWith_mem (w : Word) (e : BlockError) : (s.raiseWith w e).mem = s.mem := rfl
@[simp] theorem State.raiseWith_v (w : Word) (e : BlockError) : (s.raiseWith w e).v = s.v := rfl
@[simp] theorem State.raiseWith_regI (w : Word) (e : BlockError) : (s.raiseWith w e).regI = s.regI := rfl
@[simp] theorem State.raiseWith_pc (w : Word) (e : BlockError) : (s.raiseWith w e).pc = s.pc := rfl
@[simp] theorem State.raiseWith_stack (w : Word) (e : BlockError) : (s.raiseWith w e).stack = s.stack := rfl
@[simp] theorem State.raiseWith_sp (w : Word) (e : BlockError) : (s.raiseWith w e).sp = s.sp := rfl
@[simp] theorem State.raiseWith_dt (w : Word) (e : BlockError) : (s.raiseWith w e).dt = s.dt := rfl
@[simp] theorem State.raiseWith_st (w : Word) (e : BlockError) : (s.raiseWith w e).st = s.st := rfl
@[simp] theorem State.raiseWith_fb (w : Word) (e : BlockError) : (s.raiseWith w e).fb = s.fb := rfl
@[simp] theorem State.raiseWith_key (w : Word) (e : BlockError) : (s.raiseWith w e).key = s.key := rfl
@[simp] theorem State.raiseWith_drawRequested (w : Word) (e : BlockError) : (s.raiseWith w e).drawRequested = s.drawRequested := rfl
@[simp] theorem State.raiseWith_awaitingKey (w : Word) (e : BlockError) : (s.raiseWith w e).awaitingKey = s.awaitingKey := rfl
@[simp] theorem State.raiseWith_driver (w : Word) (e : BlockError) : (s.raiseWith w e).driver = .stopped := rfl
@[simp] theorem State.raiseWith_cyc (w : Word) (e : BlockError) : (s.raiseWith w e).cyc = s.cyc := rfl
@[simp] theorem State.raiseWith_lastInstr (w : Word) (e : BlockError) : (s.raiseWith w e).lastInstr = s.lastInstr := rfl
@[simp] theorem State.raiseWith_err (w : Word) (e : BlockError) : (s.raiseWith w e).err = some ⟨e.code, s.pc, w, e.detail, e.kind⟩ := rfl
@[simp] theorem State.raiseWith_rand (w : Word) (e : BlockError) : (s.raiseWith w e).rand = s.rand := rfl
@[simp] theorem State.raiseWith_host (w : Word) (e : BlockError) : (s.raiseWith w e).host = s.host := rfl
@[simp] theorem State.raiseWith_draws (w : Word) (e : BlockError) : (s.raiseWith w e).draws = s.draws := rfl
@[simp] theorem State.raiseWith_glyphRom (w : Word) (e : BlockError) : (s.raiseWith w e).glyphRom = s.glyphRom := rfl

/-! ## raise -/

@[simp] theorem State.raise_mem (e : BlockError) : (s.raise e).mem = s.mem := rfl
@[simp] theorem State.raise_v (e : BlockError) : (s.raise e).v = s.v := rfl
@[simp] theorem State.raise_regI (e : BlockError) : (s.raise e).regI = s.regI := rfl
@[simp] theorem State.raise_pc (e : BlockError) : (s.raise e).pc = s.pc := rfl
@[simp] theorem State.raise_stack (e : BlockError) : (s.raise e).stack = s.stack := rfl
@[simp] theorem State.raise_sp (e : BlockError) : (s.raise e).sp = s.sp := rfl
@[simp] theorem State.raise_dt (e : BlockError) : (s.raise e).dt = s.dt := rfl
@[simp] theorem State.raise_st (e : BlockError) : (s.raise e).st = s.st := rfl
@[simp] theorem State.raise_fb (e : BlockError) : (s.raise e).fb = s.fb := rfl
@[simp] theorem State.raise_key (e : BlockError) : (s.raise e).key = s.key := rfl
@[simp] theorem State.raise_drawRequested (e : BlockError) : (s.raise e).drawRequested = s.drawRequested := rfl
@[simp] theorem State.raise_awaitingKey (e : BlockError) : (s.raise e).awaitingKey = s.awaitingKey := rfl
@[simp] theorem State.raise_driver (e : BlockError) : (s.raise e).driver = .stopped := rfl
@[simp] theorem State.raise_cyc (e : BlockError) : (s.raise e).cyc = s.cyc := rfl
@[simp] theorem State.raise_lastInstr (e : BlockError) : (s.raise e).lastInstr = s.lastInstr := rfl
@[simp] theorem State.raise_err (e : BlockError) : (s.raise e).err = some ⟨e.code, s.pc, s.lastInstr, e.detail, e.kind⟩ := rfl
@[simp] theorem State.raise_rand (e : BlockError) : (s.raise e).rand = s.rand := rfl
@[simp] theorem State.raise_host (e : BlockError) : (s.raise e).host = s.host := rfl
@[simp] theorem State.raise_draws (e : BlockError) : (s.raise e).draws = s.draws := rfl
@[simp] theorem State.raise_glyphRom (e : BlockError) : (s.raise e).glyphRom = s.glyphRom := rfl

/-! ## Registers -/

/-- What V[y] reads after V[x] is written. -/
theorem State.getV_setV (x y : Reg) (b : Byte) : (s.setV x b).getV y = if y = x then b else s.getV y := by
  simp only [State.setV, State.getV, Vector.getElem_set, BitVec.toNat_inj, eq_comm]

@[simp] theorem State.getV_setV_self (x : Reg) (b : Byte) : (s.setV x b).getV x = b := by
  simp [State.getV_setV]

theorem State.getV_setV_ne (x y : Reg) (b : Byte) (h : y ≠ x) : (s.setV x b).getV y = s.getV y := by
  simp [State.getV_setV, h]

/-- A register reads only the field v. -/
theorem State.getV_congr (t : State) (h : t.v = s.v) (x : Reg) : t.getV x = s.getV x := by
  simp only [State.getV, h]

/-- What V[y] reads after a result and then the flag are written: the flag wins in V[15] (R191). -/
theorem State.getV_setVFlag (x y : Reg) (b f : Byte) :
    (s.setVFlag x b f).getV y = if y = regVF then f else if y = x then b else s.getV y := by
  simp only [State.setVFlag, State.getV_setV]

/-- Every V register determines the register file. -/
theorem State.v_ext (t : State) (h : ∀ x : Reg, t.getV x = s.getV x) : t.v = s.v := by
  refine Vector.ext fun k hk => ?_
  have := h (BitVec.ofNat 4 k)
  simpa [State.getV, Nat.mod_eq_of_lt hk] using this

/-! ## What the readers of one field see -/

theorem State.readByte_congr (t : State) (h : t.mem = s.mem) (hg : t.glyphRom = s.glyphRom) (a : Nat) :
    t.readByte a = s.readByte a := by
  simp only [State.readByte, h, hg]

theorem State.pixel_congr (t : State) (h : t.fb = s.fb) (r : Fin 32) (c : Fin 64) : t.pixel r c = s.pixel r c := by
  simp only [State.pixel, h]

theorem State.stackAt_congr (t : State) (h : t.stack = s.stack) (j : Fin 16) : t.stackAt j = s.stackAt j := by
  simp only [State.stackAt, h]

@[simp] theorem State.readByte_setV (x : Reg) (b : Byte) (k : Nat) : (s.setV x b).readByte k = s.readByte k := rfl
@[simp] theorem State.pixel_setV (x : Reg) (b : Byte) (r : Fin 32) (k : Fin 64) : (s.setV x b).pixel r k = s.pixel r k := rfl
@[simp] theorem State.stackAt_setV (x : Reg) (b : Byte) (j : Fin 16) : (s.setV x b).stackAt j = s.stackAt j := rfl
@[simp] theorem State.getV_setI (a : Word) (r : Reg) : (s.setI a).getV r = s.getV r := rfl
@[simp] theorem State.readByte_setI (a : Word) (k : Nat) : (s.setI a).readByte k = s.readByte k := rfl
@[simp] theorem State.pixel_setI (a : Word) (r : Fin 32) (k : Fin 64) : (s.setI a).pixel r k = s.pixel r k := rfl
@[simp] theorem State.stackAt_setI (a : Word) (j : Fin 16) : (s.setI a).stackAt j = s.stackAt j := rfl
@[simp] theorem State.getV_setPC (a : Word) (r : Reg) : (s.setPC a).getV r = s.getV r := rfl
@[simp] theorem State.readByte_setPC (a : Word) (k : Nat) : (s.setPC a).readByte k = s.readByte k := rfl
@[simp] theorem State.pixel_setPC (a : Word) (r : Fin 32) (k : Fin 64) : (s.setPC a).pixel r k = s.pixel r k := rfl
@[simp] theorem State.stackAt_setPC (a : Word) (j : Fin 16) : (s.setPC a).stackAt j = s.stackAt j := rfl
@[simp] theorem State.getV_advance (r : Reg) : (s.advance).getV r = s.getV r := rfl
@[simp] theorem State.readByte_advance (k : Nat) : (s.advance).readByte k = s.readByte k := rfl
@[simp] theorem State.pixel_advance (r : Fin 32) (k : Fin 64) : (s.advance).pixel r k = s.pixel r k := rfl
@[simp] theorem State.stackAt_advance (j : Fin 16) : (s.advance).stackAt j = s.stackAt j := rfl
@[simp] theorem State.getV_skipIf (c : Bool) (r : Reg) : (s.skipIf c).getV r = s.getV r := rfl
@[simp] theorem State.readByte_skipIf (c : Bool) (k : Nat) : (s.skipIf c).readByte k = s.readByte k := rfl
@[simp] theorem State.pixel_skipIf (c : Bool) (r : Fin 32) (k : Fin 64) : (s.skipIf c).pixel r k = s.pixel r k := rfl
@[simp] theorem State.stackAt_skipIf (c : Bool) (j : Fin 16) : (s.skipIf c).stackAt j = s.stackAt j := rfl
@[simp] theorem State.getV_storeBytes (a : Nat) (bs : List Byte) (r : Reg) : (s.storeBytes a bs).getV r = s.getV r := rfl
@[simp] theorem State.pixel_storeBytes (a : Nat) (bs : List Byte) (r : Fin 32) (k : Fin 64) : (s.storeBytes a bs).pixel r k = s.pixel r k := rfl
@[simp] theorem State.stackAt_storeBytes (a : Nat) (bs : List Byte) (j : Fin 16) : (s.storeBytes a bs).stackAt j = s.stackAt j := rfl
@[simp] theorem State.getV_raiseWith (w : Word) (e : BlockError) (r : Reg) : (s.raiseWith w e).getV r = s.getV r := rfl
@[simp] theorem State.readByte_raiseWith (w : Word) (e : BlockError) (k : Nat) : (s.raiseWith w e).readByte k = s.readByte k := rfl
@[simp] theorem State.pixel_raiseWith (w : Word) (e : BlockError) (r : Fin 32) (k : Fin 64) : (s.raiseWith w e).pixel r k = s.pixel r k := rfl
@[simp] theorem State.stackAt_raiseWith (w : Word) (e : BlockError) (j : Fin 16) : (s.raiseWith w e).stackAt j = s.stackAt j := rfl
@[simp] theorem State.getV_raise (e : BlockError) (r : Reg) : (s.raise e).getV r = s.getV r := rfl
@[simp] theorem State.readByte_raise (e : BlockError) (k : Nat) : (s.raise e).readByte k = s.readByte k := rfl
@[simp] theorem State.pixel_raise (e : BlockError) (r : Fin 32) (k : Fin 64) : (s.raise e).pixel r k = s.pixel r k := rfl
@[simp] theorem State.stackAt_raise (e : BlockError) (j : Fin 16) : (s.raise e).stackAt j = s.stackAt j := rfl

end Sys2Proof.Machine
end

