-- ==== Sys2Proof/Laws/Ops.lean ====
section
/-! SUPPORT. One specification lemma per shared operation over the stack, the register block moves, the flags and the
raising of an error, which later proofs cite instead of unfolding the operation. -/

namespace Sys2Proof.Machine

/-! ## The stack (R39, R40, R162, R164) -/

/-- Everything a push does when it succeeds. -/
theorem State.push?_of_lt (s : State) (a : Word) (h : s.sp.val < 16) :
    s.push? a = some { s with stack := s.stack.set s.sp.val a h, sp := ⟨s.sp.val + 1, by omega⟩ } := by
  simp only [State.push?, dif_pos h]

theorem State.push?_of_full (s : State) (a : Word) (h : s.sp.val = 16) : s.push? a = none := by
  simp only [State.push?, dif_neg (by omega : ¬ s.sp.val < 16)]

/-- Everything a pop does when it succeeds. -/
theorem State.pop?_of_pos (s : State) (h : 0 < s.sp.val) :
    s.pop? = some (s.stack[s.sp.val - 1]'(by omega), { s with sp := ⟨s.sp.val - 1, by omega⟩ }) := by
  simp only [State.pop?, dif_pos h]

theorem State.pop?_of_empty (s : State) (h : s.sp.val = 0) : s.pop? = none := by
  simp only [State.pop?, dif_neg (by omega : ¬ 0 < s.sp.val)]

/-! ## Errors (R301-R304) -/

@[simp] theorem State.raiseOr_some (s : State) (e : BlockError) (t : State) : s.raiseOr (some e) t = s.raise e := rfl
@[simp] theorem State.raiseOr_none (s : State) (t : State) : s.raiseOr none t = t := rfl

/-- An instruction that may raise an error either raises it or ends in its own state. -/
theorem State.raiseOr_cases (s : State) (e? : Option BlockError) (t : State) :
    (∃ e, e? = some e ∧ s.raiseOr e? t = s.raise e) ∨ (e? = none ∧ s.raiseOr e? t = t) := by
  cases e? with
  | none => exact .inr ⟨rfl, rfl⟩
  | some e => exact .inl ⟨e, rfl, rfl⟩

/-! ## Block moves (R235, R236) -/

@[simp] theorem State.regBytes_length (s : State) (x : Reg) : (s.regBytes x).length = x.toNat + 1 := by
  simp [State.regBytes]

/-- The k-th byte of V[0..x] is V[k]. -/
theorem State.regBytes_getElem (s : State) (x : Reg) (k : Nat) (h : k < (s.regBytes x).length) :
    (s.regBytes x)[k] = s.getV (BitVec.ofNat 4 k) := by
  simp [State.regBytes]

@[simp] theorem State.readBytes_length (s : State) (a n : Nat) : (s.readBytes a n).length = n := by
  simp [State.readBytes]

/-- The k-th byte read is the byte at `a + k`. -/
theorem State.readBytes_getElem (s : State) (a n k : Nat) (h : k < (s.readBytes a n).length) :
    (s.readBytes a n)[k] = s.readByte (a + k) := by
  simp [State.readBytes]

/-- A block load writes the field v only. -/
theorem State.loadRegs_eq (s : State) (a : Nat) (x : Reg) : s.loadRegs a x = { s with v := (s.loadRegs a x).v } := by
  have h : ∀ (l : List Nat) (t : State),
      l.foldl (fun t k => t.setV (BitVec.ofNat 4 k) (s.readByte (a + k))) t =
        { t with v := (l.foldl (fun t k => t.setV (BitVec.ofNat 4 k) (s.readByte (a + k))) t).v } := by
    intro l
    induction l with
    | nil => intro t; rfl
    | cons k l ih =>
      intro t
      simp only [List.foldl_cons]
      rw [ih]
      rfl
  exact h _ s

/-- What V[r] reads after a block load. -/
theorem State.getV_loadRegs (s : State) (a : Nat) (x r : Reg) :
    (s.loadRegs a x).getV r = if r.toNat ≤ x.toNat then s.readByte (a + r.toNat) else s.getV r := by
  have h : ∀ n, n ≤ 16 →
      ((List.range n).foldl (fun t k => t.setV (BitVec.ofNat 4 k) (s.readByte (a + k))) s).getV r =
        if r.toNat < n then s.readByte (a + r.toNat) else s.getV r := by
    intro n hn
    induction n with
    | zero => simp
    | succ n ih =>
      rw [List.range_succ, List.foldl_append, List.foldl_cons, List.foldl_nil, State.getV_setV, ih (by omega)]
      by_cases hr : r = BitVec.ofNat 4 n
      · have : r.toNat = n := by
          rw [hr, BitVec.toNat_ofNat]
          exact Nat.mod_eq_of_lt (by omega)
        rw [if_pos hr, if_pos (by omega), this]
      · have hne : r.toNat ≠ n := by
          intro h
          apply hr
          rw [← h]
          simp
        rw [if_neg hr]
        by_cases hlt : r.toNat < n
        · rw [if_pos hlt, if_pos (by omega)]
        · rw [if_neg hlt, if_neg (by omega)]
  have := h (x.toNat + 1) (by have := x.isLt; omega)
  rw [State.loadRegs, this]
  simp only [Nat.lt_succ_iff]

/-! ## Flags (R190) -/

theorem flagByte_eq_one {c : Bool} : flagByte c = 1 ↔ c = true := by cases c <;> decide

theorem flagByte_eq_zero {c : Bool} : flagByte c = 0 ↔ c = false := by cases c <;> decide

/-! ## Key scan (R267) -/

/-- No key is down exactly when the scan finds none. -/
theorem State.lowestKey?_eq_none (s : State) : s.lowestKey? = none ↔ ∀ k, k < 16 → s.keyDown k = false := by
  simp [State.lowestKey?]

/-- The scan finds the lowest key that is down. -/
theorem State.lowestKey?_eq_some (s : State) (k : Nat) :
    s.lowestKey? = some k ↔ k < 16 ∧ s.keyDown k = true ∧ ∀ j, j < k → s.keyDown j = false := by
  simp only [State.lowestKey?, List.find?_range_eq_some, List.mem_range]
  constructor
  · rintro ⟨h1, h2, h3⟩
    exact ⟨h2, h1, fun j hj => by simpa using h3 j hj⟩
  · rintro ⟨h1, h2, h3⟩
    exact ⟨h2, h1, fun j hj => by simpa using h3 j hj⟩

end Sys2Proof.Machine
end

