-- ==== Sys2Proof/Laws/Exec.lean ====
section
/-! SUPPORT. What executing any instruction can do, said once per concern: it always ends in a next state; it either raises
one error or leaves the driver's own fields alone; how it writes memory, PC, the stack and awaiting_key. -/

namespace Sys2Proof.Machine

open Host (Outcome)

/-- Every instruction ends in a next state. -/
theorem exec_next (i : Instr) (s : State) : ∃ t, exec i s = .next t := by cases i <;> exact ⟨_, rfl⟩

/-- Two next states are the same outcome only if they are the same state. -/
theorem next_inj {t u : State} (h : (Outcome.next t : Outcome State Fault Refusal) = .next u) : t = u := by
  cases h; rfl

/-- The fields only the cycle driver writes, and the model's own (R44, R46-R49). -/
def SameDriverFields (s t : State) : Prop :=
  t.key = s.key ∧ t.driver = s.driver ∧ t.cyc = s.cyc ∧ t.lastInstr = s.lastInstr ∧ t.err = s.err ∧ t.rand = s.rand ∧
    t.host = s.host ∧ t.draws = s.draws ∧ t.glyphRom = s.glyphRom

theorem SameDriverFields.refl (s : State) : SameDriverFields s s := ⟨rfl, rfl, rfl, rfl, rfl, rfl, rfl, rfl, rfl⟩

theorem sameDriverFields_loadRegs (s : State) (a : Nat) (x : Reg) : SameDriverFields s (s.loadRegs a x) := by
  rw [State.loadRegs_eq]; exact .refl _

/-- A block load leaves every field but v alone. -/
theorem State.loadRegs_fields (s : State) (a : Nat) (x : Reg) :
    (s.loadRegs a x).mem = s.mem ∧ (s.loadRegs a x).pc = s.pc ∧ (s.loadRegs a x).stack = s.stack ∧
      (s.loadRegs a x).sp = s.sp ∧ (s.loadRegs a x).awaitingKey = s.awaitingKey ∧ (s.loadRegs a x).fb = s.fb ∧
      (s.loadRegs a x).dt = s.dt ∧ (s.loadRegs a x).st = s.st ∧ (s.loadRegs a x).drawRequested = s.drawRequested ∧
      (s.loadRegs a x).regI = s.regI := by
  rw [State.loadRegs_eq]
  exact ⟨rfl, rfl, rfl, rfl, rfl, rfl, rfl, rfl, rfl, rfl⟩

/-- An executed instruction either raises one error, which changes err and driver only, or leaves the driver's fields
alone. -/
theorem exec_driver_fields {i : Instr} {s t : State} (h : exec i s = .next t) :
    (∃ e, t = s.raise e) ∨ SameDriverFields s t := by
  cases i
  case ret =>
    obtain rfl := next_inj h
    cases hp : s.pop? with
    | none => exact .inl ⟨_, rfl⟩
    | some p =>
      obtain ⟨a, u⟩ := p
      refine .inr ?_
      simp only [State.pop?] at hp
      split at hp
      · cases hp; exact .refl _
      · cases hp
  case call nnn =>
    obtain rfl := next_inj h
    cases hp : s.push? (s.pc + 2) with
    | none => exact .inl ⟨_, rfl⟩
    | some u =>
      refine .inr ?_
      simp only [State.push?] at hp
      split at hp
      · cases hp; exact .refl _
      · cases hp
  case ldVxK x =>
    obtain rfl := next_inj h
    cases s.lowestKey? <;> exact .inr (.refl _)
  case ldVxMem x =>
    obtain rfl := next_inj h
    cases rangeError .read s.addrI (x.toNat + 1) with
    | some e => exact .inl ⟨e, rfl⟩
    | none => exact .inr (sameDriverFields_loadRegs s s.addrI x)
  case drw x y n =>
    obtain rfl := next_inj h
    cases rangeError .read s.addrI n.toNat with
    | some e => exact .inl ⟨e, rfl⟩
    | none => exact .inr (.refl _)
  case ldBVx x =>
    obtain rfl := next_inj h
    cases rangeError .write s.addrI 3 with
    | some e => exact .inl ⟨e, rfl⟩
    | none => exact .inr (.refl _)
  case ldMemVx x =>
    obtain rfl := next_inj h
    cases rangeError .write s.addrI (x.toNat + 1) with
    | some e => exact .inl ⟨e, rfl⟩
    | none => exact .inr (.refl _)
  case addIVx x =>
    obtain rfl := next_inj h
    cases indexSumError s x with
    | some e => exact .inl ⟨e, rfl⟩
    | none => exact .inr (.refl _)
  case skp x =>
    obtain rfl := next_inj h
    cases keyIndexError (s.getV x) with
    | some e => exact .inl ⟨e, rfl⟩
    | none => exact .inr (.refl _)
  case sknp x =>
    obtain rfl := next_inj h
    cases keyIndexError (s.getV x) with
    | some e => exact .inl ⟨e, rfl⟩
    | none => exact .inr (.refl _)
  all_goals
    obtain rfl := next_inj h
    exact .inr (.refl _)

/-- No instruction writes the parameter GLYPH_ROM. -/
theorem exec_glyphRom {i : Instr} {s t : State} (h : exec i s = .next t) : t.glyphRom = s.glyphRom := by
  rcases exec_driver_fields h with ⟨e, rfl⟩ | h
  · rfl
  · exact h.2.2.2.2.2.2.2.2

/-- An executed instruction leaves memory alone, or is an Fx33 or an Fx55 that stores inside 0x050-0xFFF. -/
theorem exec_mem {i : Instr} {s t : State} (h : exec i s = .next t) :
    t.mem = s.mem ∨
      (∃ x, i = .ldBVx x ∧ t.mem = Memory.writeBytes s.glyphRom s.mem s.addrI (bcdDigits (s.getV x)) ∧
        0x50 ≤ s.addrI ∧ s.addrI + 3 ≤ 0x1000) ∨
      (∃ x, i = .ldMemVx x ∧ t.mem = Memory.writeBytes s.glyphRom s.mem s.addrI (s.regBytes x) ∧
        0x50 ≤ s.addrI ∧ s.addrI + (x.toNat + 1) ≤ 0x1000) := by
  cases i
  case ret =>
    obtain rfl := next_inj h
    refine .inl ?_
    by_cases hs : 0 < s.sp.val
    · rw [State.pop?_of_pos s hs]; rfl
    · rw [State.pop?_of_empty s (by omega)]; rfl
  case call nnn =>
    obtain rfl := next_inj h
    refine .inl ?_
    by_cases hs : s.sp.val < 16
    · rw [State.push?_of_lt s _ hs]; rfl
    · rw [State.push?_of_full s _ (by omega)]; rfl
  case ldVxK x =>
    obtain rfl := next_inj h
    cases s.lowestKey? <;> exact .inl rfl
  case ldVxMem x =>
    obtain rfl := next_inj h
    cases rangeError .read s.addrI (x.toNat + 1) with
    | some e => exact .inl rfl
    | none => exact .inl (State.loadRegs_fields s s.addrI x).1
  case drw x y n =>
    obtain rfl := next_inj h
    cases rangeError .read s.addrI n.toNat <;> exact .inl rfl
  case ldBVx x =>
    obtain rfl := next_inj h
    cases hr : rangeError .write s.addrI 3 with
    | some e => exact .inl rfl
    | none => exact .inr (.inl ⟨x, rfl, rfl, (rangeError_write_eq_none (by omega)).1 hr⟩)
  case ldMemVx x =>
    obtain rfl := next_inj h
    cases hr : rangeError .write s.addrI (x.toNat + 1) with
    | some e => exact .inl rfl
    | none => exact .inr (.inr ⟨x, rfl, rfl, (rangeError_write_eq_none (by omega)).1 hr⟩)
  case addIVx x =>
    obtain rfl := next_inj h
    cases indexSumError s x <;> exact .inl rfl
  case skp x =>
    obtain rfl := next_inj h
    cases keyIndexError (s.getV x) <;> exact .inl rfl
  case sknp x =>
    obtain rfl := next_inj h
    cases keyIndexError (s.getV x) <;> exact .inl rfl
  all_goals
    obtain rfl := next_inj h
    exact .inl rfl

/-- Only Fx0A writes awaiting_key; while it waits, PC and memory stay. -/
theorem exec_awaitingKey {i : Instr} {s t : State} (h : exec i s = .next t) :
    t.awaitingKey = s.awaitingKey ∨
      (∃ x, i = .ldVxK x ∧ (t.awaitingKey = false ∨ (t.awaitingKey = true ∧ t.pc = s.pc ∧ t.mem = s.mem))) := by
  cases i
  case ret =>
    obtain rfl := next_inj h
    refine .inl ?_
    by_cases hs : 0 < s.sp.val
    · rw [State.pop?_of_pos s hs]; rfl
    · rw [State.pop?_of_empty s (by omega)]; rfl
  case call nnn =>
    obtain rfl := next_inj h
    refine .inl ?_
    by_cases hs : s.sp.val < 16
    · rw [State.push?_of_lt s _ hs]; rfl
    · rw [State.push?_of_full s _ (by omega)]; rfl
  case ldVxK x =>
    obtain rfl := next_inj h
    cases s.lowestKey? with
    | none => exact .inr ⟨x, rfl, .inr ⟨rfl, rfl, rfl⟩⟩
    | some k => exact .inr ⟨x, rfl, .inl rfl⟩
  case ldVxMem x =>
    obtain rfl := next_inj h
    cases rangeError .read s.addrI (x.toNat + 1) with
    | some e => exact .inl rfl
    | none => exact .inl (State.loadRegs_fields s s.addrI x).2.2.2.2.1
  case drw x y n =>
    obtain rfl := next_inj h
    cases rangeError .read s.addrI n.toNat <;> exact .inl rfl
  case ldBVx x =>
    obtain rfl := next_inj h
    cases rangeError .write s.addrI 3 <;> exact .inl rfl
  case ldMemVx x =>
    obtain rfl := next_inj h
    cases rangeError .write s.addrI (x.toNat + 1) <;> exact .inl rfl
  case addIVx x =>
    obtain rfl := next_inj h
    cases indexSumError s x <;> exact .inl rfl
  case skp x =>
    obtain rfl := next_inj h
    cases keyIndexError (s.getV x) <;> exact .inl rfl
  case sknp x =>
    obtain rfl := next_inj h
    cases keyIndexError (s.getV x) <;> exact .inl rfl
  all_goals
    obtain rfl := next_inj h
    exact .inl rfl

/-- Only CALL writes the stack, at the entry SP. -/
theorem exec_stack {i : Instr} {s t : State} (h : exec i s = .next t) :
    t.stack = s.stack ∨
      (∃ nnn, i = .call nnn ∧ ∃ hs : s.sp.val < 16, t.stack = s.stack.set s.sp.val (s.pc + 2) hs) := by
  cases i
  case ret =>
    obtain rfl := next_inj h
    refine .inl ?_
    by_cases hs : 0 < s.sp.val
    · rw [State.pop?_of_pos s hs]; rfl
    · rw [State.pop?_of_empty s (by omega)]; rfl
  case call nnn =>
    obtain rfl := next_inj h
    by_cases hs : s.sp.val < 16
    · rw [State.push?_of_lt s _ hs]
      exact .inr ⟨nnn, rfl, hs, rfl⟩
    · rw [State.push?_of_full s _ (by omega)]
      exact .inl rfl
  case ldVxK x =>
    obtain rfl := next_inj h
    cases s.lowestKey? <;> exact .inl rfl
  case ldVxMem x =>
    obtain rfl := next_inj h
    cases rangeError .read s.addrI (x.toNat + 1) with
    | some e => exact .inl rfl
    | none => exact .inl (State.loadRegs_fields s s.addrI x).2.2.1
  case drw x y n =>
    obtain rfl := next_inj h
    cases rangeError .read s.addrI n.toNat <;> exact .inl rfl
  case ldBVx x =>
    obtain rfl := next_inj h
    cases rangeError .write s.addrI 3 <;> exact .inl rfl
  case ldMemVx x =>
    obtain rfl := next_inj h
    cases rangeError .write s.addrI (x.toNat + 1) <;> exact .inl rfl
  case addIVx x =>
    obtain rfl := next_inj h
    cases indexSumError s x <;> exact .inl rfl
  case skp x =>
    obtain rfl := next_inj h
    cases keyIndexError (s.getV x) <;> exact .inl rfl
  case sknp x =>
    obtain rfl := next_inj h
    cases keyIndexError (s.getV x) <;> exact .inl rfl
  all_goals
    obtain rfl := next_inj h
    exact .inl rfl

/-- An operation with an optional error either raises it or goes on. -/
theorem exec_raiseOr {s t u : State} {e? : Option BlockError}
    (h : (Outcome.next (s.raiseOr e? t) : Outcome State Fault Refusal) = .next u) :
    (∃ e, e? = some e ∧ u = s.raise e) ∨ (e? = none ∧ u = t) := by
  obtain rfl := next_inj h
  exact s.raiseOr_cases e? t

end Sys2Proof.Machine
end

