-- ==== Sys2Proof/Laws/Cycle.lean ====
section
/-! SUPPORT. What a cycle, a host gap and a step can do, said once: the lemmas later proofs cite instead of unfolding
60_exceptions.md R311, R312 and R315. -/

namespace Sys2Proof.Machine

open Host (Outcome)

theorem timerDivisor_pos : 0 < Config.timerDivisor := Nat.succ_pos _

/-! ## The fields of the cycle's own updates -/

variable (s : State)

@[simp] theorem State.sample_mem (inp : CycleInput) : (s.sample inp).mem = s.mem := rfl
@[simp] theorem State.sample_glyphRom (inp : CycleInput) : (s.sample inp).glyphRom = s.glyphRom := rfl
@[simp] theorem State.sample_pc (inp : CycleInput) : (s.sample inp).pc = s.pc := rfl
@[simp] theorem State.sample_driver (inp : CycleInput) : (s.sample inp).driver = s.driver := rfl
@[simp] theorem State.sample_err (inp : CycleInput) : (s.sample inp).err = s.err := rfl
@[simp] theorem State.sample_awaitingKey (inp : CycleInput) : (s.sample inp).awaitingKey = s.awaitingKey := rfl
@[simp] theorem State.sample_key (inp : CycleInput) : (s.sample inp).key = inp.keys := rfl
@[simp] theorem State.sample_rand (inp : CycleInput) : (s.sample inp).rand = inp.rand := rfl
@[simp] theorem State.readByte_sample (inp : CycleInput) (a : Nat) : (s.sample inp).readByte a = s.readByte a := rfl

@[simp] theorem State.timerStep_mem (n : Nat) : (s.timerStep n).mem = s.mem := rfl
@[simp] theorem State.timerStep_v (n : Nat) : (s.timerStep n).v = s.v := rfl
@[simp] theorem State.timerStep_regI (n : Nat) : (s.timerStep n).regI = s.regI := rfl
@[simp] theorem State.timerStep_pc (n : Nat) : (s.timerStep n).pc = s.pc := rfl
@[simp] theorem State.timerStep_stack (n : Nat) : (s.timerStep n).stack = s.stack := rfl
@[simp] theorem State.timerStep_sp (n : Nat) : (s.timerStep n).sp = s.sp := rfl
@[simp] theorem State.timerStep_fb (n : Nat) : (s.timerStep n).fb = s.fb := rfl
@[simp] theorem State.timerStep_key (n : Nat) : (s.timerStep n).key = s.key := rfl
@[simp] theorem State.timerStep_drawRequested (n : Nat) : (s.timerStep n).drawRequested = s.drawRequested := rfl
@[simp] theorem State.timerStep_awaitingKey (n : Nat) : (s.timerStep n).awaitingKey = s.awaitingKey := rfl
@[simp] theorem State.timerStep_driver (n : Nat) : (s.timerStep n).driver = s.driver := rfl
@[simp] theorem State.timerStep_lastInstr (n : Nat) : (s.timerStep n).lastInstr = s.lastInstr := rfl
@[simp] theorem State.timerStep_err (n : Nat) : (s.timerStep n).err = s.err := rfl
@[simp] theorem State.timerStep_rand (n : Nat) : (s.timerStep n).rand = s.rand := rfl
@[simp] theorem State.timerStep_host (n : Nat) : (s.timerStep n).host = s.host := rfl
@[simp] theorem State.timerStep_draws (n : Nat) : (s.timerStep n).draws = s.draws := rfl
@[simp] theorem State.timerStep_glyphRom (n : Nat) : (s.timerStep n).glyphRom = s.glyphRom := rfl

/-- cyc stays below N. -/
theorem State.timerStep_cyc_lt {n : Nat} (hn : 0 < n) (h : s.cyc < n) : (s.timerStep n).cyc < n := by
  simp only [State.timerStep]
  split <;> omega

theorem State.finishCycle_of_running {n : Nat} (h : s.driver = .running) : s.finishCycle n = s.timerStep n := if_pos h

theorem State.finishCycle_of_not {n : Nat} (h : s.driver ≠ .running) : s.finishCycle n = s := if_neg h

/-- The end of a cycle touches cyc and the timers only. -/
theorem State.finishCycle_cases (n : Nat) :
    (s.driver = .running ∧ s.finishCycle n = s.timerStep n) ∨ (s.driver ≠ .running ∧ s.finishCycle n = s) := by
  by_cases h : s.driver = .running
  · exact .inl ⟨h, s.finishCycle_of_running h⟩
  · exact .inr ⟨h, s.finishCycle_of_not h⟩

/-- The end of a cycle changes no byte of memory. -/
@[simp] theorem State.readByte_finishCycle (n a : Nat) : (s.finishCycle n).readByte a = s.readByte a := by
  rcases s.finishCycle_cases n with ⟨-, h⟩ | ⟨-, h⟩ <;> rw [h]
  rfl

@[simp] theorem finishOutcome_next (n : Nat) (t : State) :
    finishOutcome n (.next t : Outcome State Fault Refusal) = .next (t.finishCycle n) := rfl

/-! ## Initialise (R360, R90) -/

/-- What initialise is for a ROM that fits. -/
theorem State.initialise_of_le {rom : List Byte} (glyphs : Config.GlyphRom) (h : rom.length ≤ 3584) :
    State.initialise rom glyphs = { (State.created glyphs).loadRom rom with driver := .running } :=
  if_pos (by simpa [romWellFormed, Config.maxRom] using h)

/-- What initialise is for a ROM that does not. -/
theorem State.initialise_of_gt {rom : List Byte} (glyphs : Config.GlyphRom) (h : 3584 < rom.length) :
    State.initialise rom glyphs =
      { State.created glyphs with err := some (romTooLargeRecord rom.length), driver := .stopped } :=
  if_neg (by simpa [romWellFormed, Config.maxRom] using h)

/-! ## Fetch and decode -/

/-- Everything fetch and decode can do: the fetch fails, the word does not decode, or an instruction is ready. -/
theorem State.fetchDecode_cases :
    (0xFFE < s.pc.toNat ∧ s.fetchDecode =
      .error (s.raiseWith 0 ⟨.addressRange, BitVec.ofNat 17 (max s.pc.toNat 0x1000), .fetch⟩)) ∨
    (s.pc.toNat ≤ 0xFFE ∧
      ∃ w, w = wordOfBytes (s.readByte s.pc.toNat) (s.readByte (s.pc.toNat + 1)) ∧
        ((∃ d, decodeWord w = .error d ∧ s.fetchDecode =
            .error (({ s with lastInstr := w } : State).raise ⟨.decodeFailure, w.setWidth 17, .none⟩)) ∨
          (∃ i, decodeWord w = .ok i ∧ s.fetchDecode = .ok (i, { s with lastInstr := w })))) := by
  by_cases h : 0xFFE < s.pc.toNat
  · refine .inl ⟨h, ?_⟩
    simp only [State.fetchDecode, s.fetch16_error h]
  · refine .inr ⟨by omega, _, rfl, ?_⟩
    cases hd : decodeWord (wordOfBytes (s.readByte s.pc.toNat) (s.readByte (s.pc.toNat + 1))) with
    | error d =>
      refine .inl ⟨d, rfl, ?_⟩
      simp only [State.fetchDecode, s.fetch16_ok (by omega : s.pc.toNat ≤ 0xFFE), hd]
    | ok i =>
      refine .inr ⟨i, rfl, ?_⟩
      simp only [State.fetchDecode, s.fetch16_ok (by omega : s.pc.toNat ≤ 0xFFE), hd]

/-- Everything one cycle can do. -/
theorem runCycle_cases (n : Nat) (inp : CycleInput) :
    ∃ t, runCycle n inp s = .next t ∧
      ((0xFFE < s.pc.toNat ∧
          t = (s.sample inp).raiseWith 0 ⟨.addressRange, BitVec.ofNat 17 (max s.pc.toNat 0x1000), .fetch⟩) ∨
        (s.pc.toNat ≤ 0xFFE ∧ ∃ w, w = wordOfBytes (s.readByte s.pc.toNat) (s.readByte (s.pc.toNat + 1)) ∧
          ((∃ d, decodeWord w = .error d ∧
              t = ({ s.sample inp with lastInstr := w } : State).raise ⟨.decodeFailure, w.setWidth 17, .none⟩) ∨
            (∃ i u, decodeWord w = .ok i ∧ exec i { s.sample inp with lastInstr := w } = .next u ∧
              t = u.finishCycle n)))) := by
  rcases (s.sample inp).fetchDecode_cases with ⟨h, he⟩ | ⟨h, w, hw, ⟨d, hd, he⟩ | ⟨i, hd, he⟩⟩
  · exact ⟨_, by simp only [runCycle, he]; rfl, .inl ⟨h, rfl⟩⟩
  · exact ⟨_, by simp only [runCycle, he], .inr ⟨h, w, hw, .inl ⟨d, hd, rfl⟩⟩⟩
  · obtain ⟨u, hu⟩ := exec_next i { s.sample inp with lastInstr := w }
    exact ⟨u.finishCycle n, by simp only [runCycle, he, hu, finishOutcome_next], .inr ⟨h, w, hw, .inr ⟨i, u, hd, hu, rfl⟩⟩⟩

/-! ## The host's gap and the step -/

/-- A property that every driver action keeps is kept by a whole gap. -/
theorem State.gapActions_keeps {P : State → Prop} (g : HostGap) (hquit : ∀ t, P t → P t.quitReq)
    (hreset : ∀ t, P t → P t.resetReq) (hreq : ∀ t r, P t → P (t.driverReq r)) (hack : ∀ t, P t → P t.ackDraw)
    (h : P s) : P (s.gapActions g) := by
  have hfold : ∀ (l : List DriverReq) (t : State), P t → P (l.foldl State.driverReq t) := by
    intro l
    induction l with
    | nil => intro t ht; exact ht
    | cons r l ih => intro t ht; exact ih _ (hreq t r ht)
  simp only [State.gapActions]
  split
  · exact hquit s h
  · have h1 : P (if g.reset then s.resetReq else s) := by
      split
      · exact hreset s h
      · exact h
    have h2 := hfold g.driverReqs _ h1
    split
    · exact hack _ h2
    · exact h2

/-- A host's gap changes no byte of memory (R361). -/
@[simp] theorem State.readByte_gapActions (g : HostGap) (a : Nat) : (s.gapActions g).readByte a = s.readByte a := by
  refine State.gapActions_keeps (P := fun t => t.readByte a = s.readByte a) s g (fun _ h => h) (fun t h => ?_)
    (fun t r h => ?_) (fun _ h => h) rfl
  · simp only [State.resetReq]
    split <;> exact h
  · cases r <;> simp only [State.driverReq, State.pauseReq, State.resumeReq] <;> split <;> exact h

/-- An entry that requests a cycle is a gap by itself. -/
theorem HostGap.take_of_cycle {g : HostGap} {inp : CycleInput} (h : g.cycle = some inp) (rest : List HostGap) :
    g.take rest = (g, rest) := by
  cases rest with
  | nil => rfl
  | cons k rest => exact if_pos (by rw [h]; rfl)

/-- An entry that requests none is one gap with the next. -/
theorem HostGap.take_join {g : HostGap} (h : g.cycle = none) (k : HostGap) (rest : List HostGap) :
    g.take (k :: rest) = (g.join k).take rest := if_neg (by rw [h]; simp)

/-- A gap that requests no cycle is the end of the script. -/
theorem HostGap.take_none {g : HostGap} {l : List HostGap} (h : (g.take l).1.cycle = none) : (g.take l).2 = [] := by
  induction l generalizing g with
  | nil => rfl
  | cons k rest ih =>
    cases hc : g.cycle with
    | some inp =>
      rw [HostGap.take_of_cycle hc, hc] at h
      cases h
    | none =>
      rw [HostGap.take_join hc] at h ⊢
      exact ih h

theorem State.nextGap_cons {g : HostGap} {rest : List HostGap} (h : s.host = g :: rest) :
    s.nextGap = some (g.take rest) := by simp only [State.nextGap, h]

theorem State.nextGap_eq_none : s.nextGap = none ↔ s.host = [] := by
  cases h : s.host <;> simp [State.nextGap, h]

/-- Everything one step can do: the host's gap, then at most one cycle of a Running block. -/
theorem stepWith_cases (n : Nat) :
    (∃ g rest, s.nextGap = some (g, rest) ∧ ∃ t, t = ({ s with host := rest } : State).gapActions g ∧
      ((∃ inp, g.cycle = some inp ∧ t.driver = .running ∧ stepWith n s = runCycle n inp t) ∨
        ((g.cycle = none ∨ t.driver ≠ .running) ∧ stepWith n s = .next t))) ∨
    (s.host = [] ∧
      ((s.driver = .running ∧ stepWith n s =
          runCycle n ⟨Config.keysIn s.draws, Config.randIn s.draws⟩ { s with draws := s.draws + 1 }) ∨
        (s.driver ≠ .running ∧ stepWith n s = .next s))) := by
  cases hh : s.nextGap with
  | none =>
    refine .inr ⟨s.nextGap_eq_none.1 hh, ?_⟩
    by_cases hd : s.driver = .running
    · exact .inl ⟨hd, by simp only [stepWith, hh, if_pos hd]⟩
    · exact .inr ⟨hd, by simp only [stepWith, hh, if_neg hd]⟩
  | some p =>
    obtain ⟨g, rest⟩ := p
    refine .inl ⟨g, rest, rfl, _, rfl, ?_⟩
    cases hc : g.cycle with
    | none => exact .inr ⟨.inl rfl, by simp only [stepWith, hh, runGap, hc]⟩
    | some inp =>
      by_cases hd : (({ s with host := rest } : State).gapActions g).driver = .running
      · exact .inl ⟨inp, rfl, hd, by simp only [stepWith, hh, runGap, hc, requestCycle, if_pos hd]⟩
      · exact .inr ⟨.inr hd, by simp only [stepWith, hh, runGap, hc, requestCycle, if_neg hd]⟩

end Sys2Proof.Machine
end

