-- ==== Sys2Proof/Laws/Decode.lean ====
section
/-! SUPPORT. What the fields of a word laid out as R101's nibbles are, so that a decode of an encoded word reduces by simp;
and the two bytes of a word. -/

namespace Sys2Proof

/-! ## The layouts of R103: family ++ nnn, family ++ x ++ kk, family ++ x ++ y ++ n -/

@[simp] theorem fieldFamily_nnn (f : Nibble) (a : Addr12) : fieldFamily (f ++ a) = f :=
  BitVec.extractLsb'_append_eq_left

@[simp] theorem fieldNNN_nnn (f : Nibble) (a : Addr12) : fieldNNN (f ++ a) = a :=
  BitVec.extractLsb'_append_eq_right

@[simp] theorem fieldFamily_xkk (f : Nibble) (x : Reg) (k : Byte) : fieldFamily (f ++ x ++ k) = f :=
  (BitVec.extractLsb'_append_eq_of_le (by decide)).trans BitVec.extractLsb'_append_eq_left

@[simp] theorem fieldX_xkk (f : Nibble) (x : Reg) (k : Byte) : fieldX (f ++ x ++ k) = x :=
  (BitVec.extractLsb'_append_eq_of_le (by decide)).trans BitVec.extractLsb'_append_eq_right

@[simp] theorem fieldKK_xkk (f : Nibble) (x : Reg) (k : Byte) : fieldKK (f ++ x ++ k) = k :=
  BitVec.extractLsb'_append_eq_right

@[simp] theorem fieldFamily_xyn (f : Nibble) (x y : Reg) (n : Nibble) : fieldFamily (f ++ x ++ y ++ n) = f :=
  (BitVec.extractLsb'_append_eq_of_le (by decide)).trans
    ((BitVec.extractLsb'_append_eq_of_le (by decide)).trans BitVec.extractLsb'_append_eq_left)

@[simp] theorem fieldX_xyn (f : Nibble) (x y : Reg) (n : Nibble) : fieldX (f ++ x ++ y ++ n) = x :=
  (BitVec.extractLsb'_append_eq_of_le (by decide)).trans
    ((BitVec.extractLsb'_append_eq_of_le (by decide)).trans BitVec.extractLsb'_append_eq_right)

@[simp] theorem fieldY_xyn (f : Nibble) (x y : Reg) (n : Nibble) : fieldY (f ++ x ++ y ++ n) = y :=
  (BitVec.extractLsb'_append_eq_of_le (by decide)).trans BitVec.extractLsb'_append_eq_right

@[simp] theorem fieldN_xyn (f : Nibble) (x y : Reg) (n : Nibble) : fieldN (f ++ x ++ y ++ n) = n :=
  BitVec.extractLsb'_append_eq_right

/-! ## A word from its fields -/

theorem word_of_nnn (w : Word) : w = fieldFamily w ++ fieldNNN w := by
  refine BitVec.eq_of_getLsbD_eq fun k hk => ?_
  rw [fieldFamily, fieldNNN, BitVec.getLsbD_append]
  simp only [BitVec.getLsbD_extractLsb']
  split
  · simp_all
  · rw [show 12 + (k - 12) = k by omega]
    simp
    omega

theorem word_of_xkk (w : Word) : w = fieldFamily w ++ fieldX w ++ fieldKK w := by
  refine BitVec.eq_of_getLsbD_eq fun k hk => ?_
  rw [fieldFamily, fieldX, fieldKK, BitVec.getLsbD_append]
  simp only [BitVec.getLsbD_append, BitVec.getLsbD_extractLsb']
  split
  · simp_all
  · split
    · rw [show 8 + (k - 8) = k by omega]
      simp_all
    · rw [show 12 + (k - 8 - 4) = k by omega]
      simp
      omega

theorem word_of_xyn (w : Word) : w = fieldFamily w ++ fieldX w ++ fieldY w ++ fieldN w := by
  refine BitVec.eq_of_getLsbD_eq fun k hk => ?_
  rw [fieldFamily, fieldX, fieldY, fieldN, BitVec.getLsbD_append]
  simp only [BitVec.getLsbD_append, BitVec.getLsbD_extractLsb']
  split
  · simp_all
  · split
    · rw [show 4 + (k - 4) = k by omega]
      simp_all
    · split
      · rw [show 8 + (k - 4 - 4) = k by omega]
        simp_all
      · rw [show 12 + (k - 4 - 4 - 4) = k by omega]
        simp
        omega

variable {w : Word} {i : Instr}

/-! ## The dispatch on the family (R106), one equation per family -/

theorem nibble_cases (f : Nibble) : f = 0x0#4 ∨ f = 0x1#4 ∨ f = 0x2#4 ∨ f = 0x3#4 ∨ f = 0x4#4 ∨ f = 0x5#4 ∨ f = 0x6#4 ∨
    f = 0x7#4 ∨ f = 0x8#4 ∨ f = 0x9#4 ∨ f = 0xA#4 ∨ f = 0xB#4 ∨ f = 0xC#4 ∨ f = 0xD#4 ∨ f = 0xE#4 ∨ f = 0xF#4 := by
  revert f
  decide

theorem decodeWord_family0 (h : fieldFamily w = 0x0#4) :
    decodeWord w = decodeFamily0 w := by
  simp only [decodeWord, h]

theorem decodeWord_family1 (h : fieldFamily w = 0x1#4) :
    decodeWord w = .ok (.jp (fieldNNN w)) := by
  simp only [decodeWord, h]

theorem decodeWord_family2 (h : fieldFamily w = 0x2#4) :
    decodeWord w = .ok (.call (fieldNNN w)) := by
  simp only [decodeWord, h]

theorem decodeWord_family3 (h : fieldFamily w = 0x3#4) :
    decodeWord w = .ok (.seImm (fieldX w) (fieldKK w)) := by
  simp only [decodeWord, h]

theorem decodeWord_family4 (h : fieldFamily w = 0x4#4) :
    decodeWord w = .ok (.sneImm (fieldX w) (fieldKK w)) := by
  simp only [decodeWord, h]

theorem decodeWord_family5 (h : fieldFamily w = 0x5#4) :
    decodeWord w = if fieldN w = 0#4 then .ok (.seReg (fieldX w) (fieldY w)) else .error (.decodeFailure w) := by
  simp only [decodeWord, h]

theorem decodeWord_family6 (h : fieldFamily w = 0x6#4) :
    decodeWord w = .ok (.ldImm (fieldX w) (fieldKK w)) := by
  simp only [decodeWord, h]

theorem decodeWord_family7 (h : fieldFamily w = 0x7#4) :
    decodeWord w = .ok (.addImm (fieldX w) (fieldKK w)) := by
  simp only [decodeWord, h]

theorem decodeWord_family8 (h : fieldFamily w = 0x8#4) :
    decodeWord w = decodeFamily8 w := by
  simp only [decodeWord, h]

theorem decodeWord_family9 (h : fieldFamily w = 0x9#4) :
    decodeWord w = if fieldN w = 0#4 then .ok (.sneReg (fieldX w) (fieldY w)) else .error (.decodeFailure w) := by
  simp only [decodeWord, h]

theorem decodeWord_familyA (h : fieldFamily w = 0xA#4) :
    decodeWord w = .ok (.ldI (fieldNNN w)) := by
  simp only [decodeWord, h]

theorem decodeWord_familyB (h : fieldFamily w = 0xB#4) :
    decodeWord w = .ok (.jpV0 (fieldNNN w)) := by
  simp only [decodeWord, h]

theorem decodeWord_familyC (h : fieldFamily w = 0xC#4) :
    decodeWord w = .ok (.rnd (fieldX w) (fieldKK w)) := by
  simp only [decodeWord, h]

theorem decodeWord_familyD (h : fieldFamily w = 0xD#4) :
    decodeWord w = .ok (.drw (fieldX w) (fieldY w) (fieldN w)) := by
  simp only [decodeWord, h]

theorem decodeWord_familyE (h : fieldFamily w = 0xE#4) :
    decodeWord w = decodeFamilyE w := by
  simp only [decodeWord, h]

theorem decodeWord_familyF (h : fieldFamily w = 0xF#4) :
    decodeWord w = decodeFamilyF w := by
  simp only [decodeWord, h]
  rfl

/-! ## What a family's second level accepts is the word itself -/

theorem encode_of_nnn {f : Nibble} (h : fieldFamily w = f) : f ++ fieldNNN w = w := by
  subst h
  exact (word_of_nnn w).symm

theorem encode_of_xkk {f : Nibble} (h : fieldFamily w = f) : f ++ fieldX w ++ fieldKK w = w := by
  subst h
  exact (word_of_xkk w).symm

theorem encode_of_xyn {f : Nibble} (h : fieldFamily w = f) : f ++ fieldX w ++ fieldY w ++ fieldN w = w := by
  subst h
  exact (word_of_xyn w).symm

theorem encode_of_x {f : Nibble} {k : Byte} (h : fieldFamily w = f) (hk : fieldKK w = k) : f ++ fieldX w ++ k = w := by
  subst h hk
  exact (word_of_xkk w).symm

theorem encode_of_xy {f n : Nibble} (h : fieldFamily w = f) (hn : fieldN w = n) :
    f ++ fieldX w ++ fieldY w ++ n = w := by
  subst h hn
  exact (word_of_xyn w).symm

theorem decodeFamily0_ok (h : decodeFamily0 w = .ok i) : encode i = w := by
  unfold decodeFamily0 at h
  split at h
  · cases h
    simp_all [encode]
  · split at h <;> cases h
    simp_all [encode]

theorem decodeFamily8_ok (hf : fieldFamily w = 0x8#4) (h : decodeFamily8 w = .ok i) : encode i = w := by
  unfold decodeFamily8 at h
  simp only at h
  split at h <;> first | (cases h; done) | (cases h; rename_i hn; exact encode_of_xy hf hn)

theorem decodeFamilyE_ok (hf : fieldFamily w = 0xE#4) (h : decodeFamilyE w = .ok i) : encode i = w := by
  unfold decodeFamilyE at h
  simp only at h
  split at h <;> first | (cases h; done) | (cases h; rename_i hn; exact encode_of_x hf hn)

theorem decodeFamilyF_ok (hf : fieldFamily w = 0xF#4) (h : decodeFamilyF w = .ok i) : encode i = w := by
  unfold decodeFamilyF at h
  simp only at h
  split at h <;> first | (cases h; done) | (cases h; rename_i hn; exact encode_of_x hf hn)

/-! ## The bytes of a word (R77) -/

@[simp] theorem wordOfBytes_split (w : Word) : wordOfBytes (highByte w) (lowByte w) = w := by
  refine BitVec.eq_of_getLsbD_eq fun k hk => ?_
  rw [wordOfBytes, highByte, lowByte, BitVec.getLsbD_append]
  simp only [BitVec.getLsbD_extractLsb']
  split
  · simp_all
  · rw [show 8 + (k - 8) = k by omega]
    simp
    omega

@[simp] theorem highByte_wordOfBytes (h l : Byte) : highByte (wordOfBytes h l) = h :=
  BitVec.extractLsb'_append_eq_left

@[simp] theorem lowByte_wordOfBytes (h l : Byte) : lowByte (wordOfBytes h l) = l :=
  BitVec.extractLsb'_append_eq_right

end Sys2Proof
end

