-- ==== Sys2Proof/Laws/Display.lean ====
section
/-! SUPPORT. What compositing a sprite does to each pixel and when it collides (40_display.md R142, R143): one lemma per
drawing operation. -/

namespace Sys2Proof.Machine

/-- A flip changes its own pixel only. -/
theorem pixelOf_flipPixel (fb : Vector (BitVec 64) 32) (r r' : Fin 32) (c c' : Fin 64) :
    pixelOf (flipPixel fb r c) r' c' = (pixelOf fb r' c' ^^ decide (r' = r ∧ c' = c)) := by
  have hrow : (flipPixel fb r c)[r'] = if r = r' then fb[r] ^^^ (1#64 <<< c.val) else fb[r'] := by
    unfold flipPixel
    rw [Fin.getElem_fin, Vector.getElem_set]
    by_cases h : r = r'
    · rw [if_pos h, if_pos (congrArg Fin.val h)]
    · rw [if_neg h, if_neg (fun hv => h (Fin.ext hv))]
      rfl
  show ((flipPixel fb r c)[r']).getLsbD c'.val = _
  rw [hrow]
  by_cases hr : r = r'
  · subst hr
    rw [if_pos rfl, BitVec.getLsbD_xor]
    congr 1
    have hc := c'.isLt
    rw [BitVec.getLsbD_shiftLeft, BitVec.getLsbD_one]
    by_cases hcc : c' = c
    · subst hcc
      simp
    · have : c'.val ≠ c.val := fun h => hcc (Fin.ext h)
      simp [hcc]
      omega
  · rw [if_neg hr]
    simp [Ne.symm hr, pixelOf]

@[simp] theorem drawBit_false (r : Fin 32) (c : Fin 64) (p : Canvas) : drawBit r c false p = p := rfl

@[simp] theorem drawBit_true (r : Fin 32) (c : Fin 64) (p : Canvas) :
    drawBit r c true p = (flipPixel p.1 r c, p.2 || pixelOf p.1 r c) := rfl

theorem wrapCol_inj {x0 i j : Nat} (hi : i < 64) (hj : j < 64) (h : wrapCol (x0 + i) = wrapCol (x0 + j)) : i = j := by
  have : (x0 + i) % 64 = (x0 + j) % 64 := congrArg Fin.val h
  omega

theorem wrapRow_inj {y0 i j : Nat} (hi : i < 32) (hj : j < 32) (h : wrapRow (y0 + i) = wrapRow (y0 + j)) : i = j := by
  have : (y0 + i) % 32 = (y0 + j) % 32 := congrArg Fin.val h
  omega

/-- A 1 bit among the first `m` of the byte `b`, drawn on row `r` from column `x0`, lands on pixel (r', c'). -/
def ByteHits (x0 : Nat) (r : Fin 32) (b : Byte) (m : Nat) (r' : Fin 32) (c' : Fin 64) : Prop :=
  r' = r ∧ ∃ j < m, c' = wrapCol (x0 + j) ∧ spriteBit b j = true

theorem byteHits_succ (x0 : Nat) (r : Fin 32) (b : Byte) (m : Nat) (r' : Fin 32) (c' : Fin 64) :
    ByteHits x0 r b (m + 1) r' c' ↔
      ByteHits x0 r b m r' c' ∨ (r' = r ∧ c' = wrapCol (x0 + m) ∧ spriteBit b m = true) := by
  constructor
  · rintro ⟨hr, j, hj, h⟩
    by_cases hjm : j = m
    · subst hjm
      exact .inr ⟨hr, h⟩
    · exact .inl ⟨hr, j, by omega, h⟩
  · rintro (⟨hr, j, hj, h⟩ | ⟨hr, h⟩)
    · exact ⟨hr, j, by omega, h⟩
    · exact ⟨hr, m, by omega, h⟩

/-- No earlier bit of the byte lands where bit `m` lands (R143: no pixel is touched twice). -/
theorem not_byteHits_wrapCol {x0 : Nat} {r : Fin 32} {b : Byte} {m : Nat} (hm : m < 8) (r' : Fin 32) :
    ¬ ByteHits x0 r b m r' (wrapCol (x0 + m)) := by
  rintro ⟨-, j, hj, h, -⟩
  have := wrapCol_inj (x0 := x0) (by omega : m < 64) (by omega : j < 64) h
  omega

/-- Everything one sprite byte does: a pixel flips exactly when a 1 bit lands on it, and the byte collides exactly when a
1 bit lands on a pixel that was on. -/
theorem drawByte_spec (x0 : Nat) (r : Fin 32) (b : Byte) (p : Canvas) :
    (∀ r' c', (ByteHits x0 r b 8 r' c' → pixelOf (drawByte x0 r b p).1 r' c' = !pixelOf p.1 r' c') ∧
      (¬ ByteHits x0 r b 8 r' c' → pixelOf (drawByte x0 r b p).1 r' c' = pixelOf p.1 r' c')) ∧
    ((drawByte x0 r b p).2 = true ↔ p.2 = true ∨ ∃ r' c', ByteHits x0 r b 8 r' c' ∧ pixelOf p.1 r' c' = true) := by
  have h : ∀ m, m ≤ 8 → ∀ q,
      q = (List.range m).foldl (fun q j => drawBit r (wrapCol (x0 + j)) (spriteBit b j) q) p →
      (∀ r' c', (ByteHits x0 r b m r' c' → pixelOf q.1 r' c' = !pixelOf p.1 r' c') ∧
        (¬ ByteHits x0 r b m r' c' → pixelOf q.1 r' c' = pixelOf p.1 r' c')) ∧
      (q.2 = true ↔ p.2 = true ∨ ∃ r' c', ByteHits x0 r b m r' c' ∧ pixelOf p.1 r' c' = true) := by
    intro m hm
    induction m with
    | zero =>
      rintro q rfl
      simp [ByteHits]
    | succ m ih =>
      rintro q' rfl
      rw [List.range_succ, List.foldl_append, List.foldl_cons, List.foldl_nil]
      generalize hq : (List.range m).foldl (fun q j => drawBit r (wrapCol (x0 + j)) (spriteBit b j) q) p = q
      obtain ⟨ih1, ih2⟩ := ih (by omega) q hq.symm
      cases hb : spriteBit b m with
      | false =>
        rw [drawBit_false]
        simp only [byteHits_succ, hb, Bool.false_eq_true, and_false, or_false]
        exact ⟨ih1, ih2⟩
      | true =>
        rw [drawBit_true]
        simp only [byteHits_succ, hb, and_true]
        have hnew := not_byteHits_wrapCol (x0 := x0) (r := r) (b := b) (by omega : m < 8)
        refine ⟨fun r' c' => ?_, ?_⟩
        · rw [pixelOf_flipPixel]
          by_cases hrc : r' = r ∧ c' = wrapCol (x0 + m)
          · rw [decide_eq_true hrc, Bool.xor_true, (ih1 r' c').2 (hrc.2 ▸ hnew r')]
            exact ⟨fun _ => rfl, fun h => absurd (.inr hrc) h⟩
          · rw [decide_eq_false hrc, Bool.xor_false]
            simp only [hrc, or_false]
            exact ih1 r' c'
        · rw [Bool.or_eq_true, ih2, (ih1 r (wrapCol (x0 + m))).2 (hnew r)]
          constructor
          · rintro ((h | ⟨r', c', h, hon⟩) | hon)
            · exact .inl h
            · exact .inr ⟨r', c', .inl h, hon⟩
            · exact .inr ⟨r, _, .inr ⟨rfl, rfl⟩, hon⟩
          · rintro (h | ⟨r', c', h | ⟨rfl, rfl⟩, hon⟩)
            · exact .inl (.inl h)
            · exact .inl (.inr ⟨r', c', h, hon⟩)
            · exact .inr hon
  exact h 8 (Nat.le_refl 8) _ rfl

/-- A 1 bit of the sprite `bs`, drawn from row `y0` and column `x0`, lands on pixel (r, c). -/
def LandsOn (x0 y0 : Nat) (bs : List Byte) (r : Fin 32) (c : Fin 64) : Prop :=
  ∃ i j b, bs[i]? = some b ∧ j < 8 ∧ r = wrapRow (y0 + i) ∧ c = wrapCol (x0 + j) ∧ spriteBit b j = true

theorem landsOn_nil (x0 y0 : Nat) (r : Fin 32) (c : Fin 64) : ¬ LandsOn x0 y0 [] r c := by
  rintro ⟨i, j, b, h, -⟩
  simp at h

theorem landsOn_cons (x0 y0 : Nat) (b : Byte) (bs : List Byte) (r : Fin 32) (c : Fin 64) :
    LandsOn x0 y0 (b :: bs) r c ↔ ByteHits x0 (wrapRow y0) b 8 r c ∨ LandsOn x0 (y0 + 1) bs r c := by
  constructor
  · rintro ⟨i, j, d, h, hj, hr, hc, hs⟩
    cases i with
    | zero =>
      simp only [List.getElem?_cons_zero, Option.some.injEq] at h
      subst h
      exact .inl ⟨hr, j, hj, hc, hs⟩
    | succ i =>
      refine .inr ⟨i, j, d, by simpa using h, hj, ?_, hc, hs⟩
      rw [hr, show y0 + (i + 1) = y0 + 1 + i by omega]
  · rintro (⟨hr, j, hj, hc, hs⟩ | ⟨i, j, d, h, hj, hr, hc, hs⟩)
    · exact ⟨0, j, b, rfl, hj, hr, hc, hs⟩
    · refine ⟨i + 1, j, d, by simpa using h, hj, ?_, hc, hs⟩
      rw [hr, show y0 + (i + 1) = y0 + 1 + i by omega]

/-- Everything compositing a sprite of at most 32 rows does: a pixel flips exactly when a 1 bit lands on it, and there is a
collision exactly when a 1 bit lands on a pixel that was on (no pixel is touched twice, R143). -/
theorem drawBytes_spec (x0 : Nat) (bs : List Byte) : ∀ (y0 : Nat) (p : Canvas), bs.length ≤ 32 →
    (∀ r c, (LandsOn x0 y0 bs r c → pixelOf (drawBytes x0 y0 bs p).1 r c = !pixelOf p.1 r c) ∧
      (¬ LandsOn x0 y0 bs r c → pixelOf (drawBytes x0 y0 bs p).1 r c = pixelOf p.1 r c)) ∧
    ((drawBytes x0 y0 bs p).2 = true ↔ p.2 = true ∨ ∃ r c, LandsOn x0 y0 bs r c ∧ pixelOf p.1 r c = true) := by
  induction bs with
  | nil =>
    intro y0 p _
    refine ⟨fun r c => ⟨fun h => absurd h (landsOn_nil x0 y0 r c), fun _ => rfl⟩, ?_⟩
    constructor
    · exact .inl
    · rintro (h | ⟨r, c, h, -⟩)
      · exact h
      · exact absurd h (landsOn_nil x0 y0 r c)
  | cons b bs ih =>
    intro y0 p hlen
    simp only [List.length_cons] at hlen
    obtain ⟨hp, hh⟩ := drawByte_spec x0 (wrapRow y0) b p
    obtain ⟨ih1, ih2⟩ := ih (y0 + 1) (drawByte x0 (wrapRow y0) b p) (by omega)
    have hdisj : ∀ r c, LandsOn x0 (y0 + 1) bs r c → ¬ ByteHits x0 (wrapRow y0) b 8 r c := by
      rintro r c ⟨i, j, d, h, -, hr, -⟩ ⟨hr0, -⟩
      have hi : i < bs.length := by
        by_contra hge
        rw [List.getElem?_eq_none (by omega)] at h
        cases h
      have := wrapRow_inj (y0 := y0) (i := 1 + i) (j := 0) (by omega) (by omega)
        (by rw [Nat.add_zero, ← hr0, hr, Nat.add_assoc])
      omega
    simp only [drawBytes]
    refine ⟨fun r c => ?_, ?_⟩
    · rw [landsOn_cons]
      by_cases hl : LandsOn x0 (y0 + 1) bs r c
      · rw [(ih1 r c).1 hl, (hp r c).2 (hdisj r c hl)]
        exact ⟨fun _ => rfl, fun h => absurd (.inr hl) h⟩
      · rw [(ih1 r c).2 hl]
        simp only [hl, or_false]
        exact hp r c
    · rw [ih2, hh]
      constructor
      · rintro ((h | ⟨r, c, hb, hon⟩) | ⟨r, c, hl, hon⟩)
        · exact .inl h
        · exact .inr ⟨r, c, (landsOn_cons ..).2 (.inl hb), hon⟩
        · exact .inr ⟨r, c, (landsOn_cons ..).2 (.inr hl), (hp r c).2 (hdisj r c hl) ▸ hon⟩
      · rintro (h | ⟨r, c, hl, hon⟩)
        · exact .inl (.inl h)
        · rcases (landsOn_cons ..).1 hl with hb | hl'
          · exact .inl (.inr ⟨r, c, hb, hon⟩)
          · exact .inr ⟨r, c, hl', by rw [(hp r c).2 (hdisj r c hl')]; exact hon⟩

end Sys2Proof.Machine
end

