-- ==== Sys2Proof/Laws/Frame.lean ====
section
/-! SUPPORT. The frames of the shared endings of an instruction, so that no proof unfolds `Frame` again. -/

namespace Sys2Proof.Machine

theorem Frame.refl (l : List Part) (s : State) : Frame l s s := by
  intro p _
  cases p <;> simp [Part.same]

/-- A frame with a longer list of changed parts holds too. -/
theorem Frame.mono {l l' : List Part} {s t : State} (h : Frame l s t) (hl : ∀ p ∈ l, p ∈ l') : Frame l' s t :=
  fun p hp => h p (fun hm => hp (hl p hm))

/-- Raising an error is what `Raised` says. -/
theorem raised_raise (e : BlockError) (s : State) : Raised e s (s.raise e) := by
  refine ⟨rfl, rfl, ?_⟩
  intro p hp
  cases p <;> first | (simp at hp; done) | simp [Part.same]

theorem completes_raise {i : Instr} {s : State} {e : BlockError} (h : exec i s = .next (s.raise e)) :
    Completes i s (Raised e s) := ⟨_, h, raised_raise e s⟩

theorem frame_setV_advance (s : State) (x : Reg) (b : Byte) : Frame [.regs, .pc] s (s.setV x b).advance := by
  intro p hp
  cases p <;> first | (simp at hp; done) | simp [Part.same]

theorem frame_setVFlag_advance (s : State) (x : Reg) (b f : Byte) : Frame [.regs, .pc] s (s.setVFlag x b f).advance := by
  intro p hp
  cases p <;> first | (simp at hp; done) | simp [Part.same, State.setVFlag]

theorem frame_setI_advance (s : State) (a : Word) : Frame [.index, .pc] s (s.setI a).advance := by
  intro p hp
  cases p <;> first | (simp at hp; done) | simp [Part.same]

theorem frame_setPC (s : State) (a : Word) : Frame [.pc] s (s.setPC a) := by
  intro p hp
  cases p <;> first | (simp at hp; done) | simp [Part.same]

theorem frame_skipIf (s : State) (c : Bool) : Frame [.pc] s (s.skipIf c) := by
  intro p hp
  cases p <;> first | (simp at hp; done) | simp [Part.same]

theorem frame_storeBytes_advance (s : State) (a : Nat) (bs : List Byte) :
    Frame [.memory, .pc] s (s.storeBytes a bs).advance := by
  intro p hp
  cases p <;> first | (simp at hp; done) | simp [Part.same]

theorem frame_timerStep (n : Nat) (s : State) : Frame [.cyc, .delayTimer, .soundTimer] s (s.timerStep n) := by
  intro p hp
  cases p <;> first | (simp at hp; done) | simp [Part.same, State.getV, State.readByte, State.stackAt, State.pixel]

/-- Writing V[x] and advancing is what `SetsReg` says. -/
theorem setsReg_of_exec {i : Instr} {s : State} {x : Reg} {b : Byte} {n : Nat}
    (h : exec i s = .next (s.setV x b).advance) (hb : b.toNat = n) : SetsReg i s x n := by
  refine ⟨_, h, ?_, fun r hr => ?_, rfl, frame_setV_advance s x b⟩
  · simpa using hb
  · simpa using s.getV_setV_ne x r b hr

/-- Writing V[x], then the flag, and advancing is what `SetsRegAndFlag` says. -/
theorem setsRegAndFlag_of_exec {i : Instr} {s : State} {x : Reg} {b : Byte} {n : Nat} {c : Bool} {flag : Prop}
    (h : exec i s = .next (s.setVFlag x b (flagByte c)).advance) (hb : b.toNat = n) (hc : c = true ↔ flag) :
    SetsRegAndFlag i s x n flag := by
  refine ⟨_, h, fun hf => ?_, fun hf => ?_, fun hx => ?_, fun r hx hr => ?_, rfl, frame_setVFlag_advance s x b _⟩
  · rw [State.getV_advance, State.getV_setVFlag, if_pos rfl]
    exact flagByte_eq_one.2 (hc.2 hf)
  · rw [State.getV_advance, State.getV_setVFlag, if_pos rfl]
    exact flagByte_eq_zero.2 (by simpa using fun ht => hf (hc.1 ht))
  · rw [State.getV_advance, State.getV_setVFlag, if_neg hx, if_pos rfl]
    exact hb
  · rw [State.getV_advance, State.getV_setVFlag, if_neg hr, if_neg hx]

/-- A conditional skip is what `SkipsWhen` says. -/
theorem skipsWhen_of_exec {i : Instr} {s : State} {c : Bool} {p : Prop} (h : exec i s = .next (s.skipIf c))
    (hc : c = true ↔ p) : SkipsWhen i s p := by
  refine ⟨_, h, fun hp => ?_, fun hp => ?_, frame_skipIf s c⟩
  · simp [hc.2 hp]
  · have : c = false := by simpa using fun ht => hp (hc.1 ht)
    simp [this]

/-- The sprite's covered pixels are where the compositing of `drawBytes` lands (R142). -/
theorem spriteCovers_iff (s : State) (x y : Reg) (n : Nibble) (r : Fin 32) (c : Fin 64) :
    SpriteCovers s x y n r c ↔ LandsOn (spriteX s x) (spriteY s y) (s.readBytes s.addrI n.toNat) r c := by
  constructor
  · rintro ⟨i, j, hi, hj, hr, hc, hb⟩
    refine ⟨i, j, s.readByte (s.addrI + i), ?_, hj, Fin.ext hr, Fin.ext hc, hb⟩
    simp [State.readBytes, hi]
  · rintro ⟨i, j, b, hb, hj, hr, hc, hs⟩
    have hi : i < n.toNat := by
      by_contra hge
      rw [List.getElem?_eq_none (by simp; omega)] at hb
      cases hb
    simp [State.readBytes, hi] at hb
    subst hb
    exact ⟨i, j, hi, hj, congrArg Fin.val hr, congrArg Fin.val hc, hs⟩

/-- What a draw leaves: the pixels the sprite covers flipped, the collision flag in V[15], draw_requested set. -/
theorem drawSprite_spec (s : State) (x y : Reg) (n : Nibble) :
    (∀ r c, (SpriteCovers s x y n r c → (drawSprite s x y n).pixel r c = !s.pixel r c) ∧
      (¬ SpriteCovers s x y n r c → (drawSprite s x y n).pixel r c = s.pixel r c)) ∧
    ((drawSprite s x y n).getV regVF = 1 ↔ ∃ r c, SpriteCovers s x y n r c ∧ s.pixel r c = true) ∧
    ((drawSprite s x y n).getV regVF = 0 ↔ ¬ ∃ r c, SpriteCovers s x y n r c ∧ s.pixel r c = true) ∧
    (∀ r, r ≠ regVF → (drawSprite s x y n).getV r = s.getV r) := by
  have hlen : (s.readBytes s.addrI n.toNat).length ≤ 32 := by
    have := n.isLt
    simp
    omega
  obtain ⟨hp, hc⟩ := drawBytes_spec (spriteX s x) (s.readBytes s.addrI n.toNat) (spriteY s y) (s.fb, false) hlen
  simp only [spriteCovers_iff]
  have hcol : (drawBytes (spriteX s x) (spriteY s y) (s.readBytes s.addrI n.toNat) (s.fb, false)).2 = true ↔
      ∃ r c, LandsOn (spriteX s x) (spriteY s y) (s.readBytes s.addrI n.toNat) r c ∧ s.pixel r c = true := by
    rw [hc]
    simp [State.pixel]
  have hvf : (drawSprite s x y n).getV regVF =
      flagByte (drawBytes (spriteX s x) (spriteY s y) (s.readBytes s.addrI n.toNat) (s.fb, false)).2 :=
    State.getV_setV_self _ _ _
  refine ⟨hp, ?_, ?_, fun r hr => ?_⟩
  · rw [hvf, flagByte_eq_one, hcol]
  · rw [hvf, flagByte_eq_zero, ← hcol, Bool.not_eq_true]
  · exact State.getV_setV_ne _ _ _ _ hr

end Sys2Proof.Machine
end

