-- ==== Sys2Proof/Laws/PerInstr.lean ====
section
/-! SUPPORT. A statement about every instruction as syntax, constructor by constructor: its encoding is selected by the row
of the decode table that carries its tag (30_encoding.md R104, R110). -/

namespace Sys2Proof

/-! ## What a row's mask leaves of an encoding -/

theorem and_nibble (f : Nibble) : f &&& 0xF#4 = f := BitVec.and_allOnes (x := f)

theorem and_byte (k : Byte) : k &&& 0xFF#8 = k := BitVec.and_allOnes (x := k)

theorem mask_nnn (f : Nibble) (a : Addr12) : (f ++ a) &&& 0xF000#16 = f ++ 0#12 := by
  rw [show 0xF000#16 = 0xF#4 ++ 0#12 from rfl, BitVec.and_append, and_nibble, BitVec.and_zero]

theorem mask_xkk (f : Nibble) (x : Reg) (k : Byte) : (f ++ x ++ k) &&& 0xF000#16 = f ++ 0#4 ++ 0#8 := by
  rw [show 0xF000#16 = 0xF#4 ++ 0#4 ++ 0#8 from rfl, BitVec.and_append, BitVec.and_append, and_nibble, BitVec.and_zero,
    BitVec.and_zero]

theorem mask_x (f : Nibble) (x : Reg) (k : Byte) : (f ++ x ++ k) &&& 0xF0FF#16 = f ++ 0#4 ++ k := by
  rw [show 0xF0FF#16 = 0xF#4 ++ 0#4 ++ 0xFF#8 from rfl, BitVec.and_append, BitVec.and_append, and_nibble, BitVec.and_zero,
    and_byte]

theorem mask_xyn (f : Nibble) (x y : Reg) (n : Nibble) :
    (f ++ x ++ y ++ n) &&& 0xF000#16 = f ++ 0#4 ++ 0#4 ++ 0#4 := by
  rw [show 0xF000#16 = 0xF#4 ++ 0#4 ++ 0#4 ++ 0#4 from rfl, BitVec.and_append, BitVec.and_append, BitVec.and_append,
    and_nibble, BitVec.and_zero, BitVec.and_zero, BitVec.and_zero]

theorem mask_xy (f : Nibble) (x y : Reg) (n : Nibble) : (f ++ x ++ y ++ n) &&& 0xF00F#16 = f ++ 0#4 ++ 0#4 ++ n := by
  rw [show 0xF00F#16 = 0xF#4 ++ 0#4 ++ 0#4 ++ 0xF#4 from rfl, BitVec.and_append, BitVec.and_append, BitVec.and_append,
    and_nibble, BitVec.and_zero, BitVec.and_zero, and_nibble]

/-- A row whose match is what its mask leaves of a word selects that word. -/
theorem Row.selects_of_mask {r : Row} {w : Word} (h : w &&& r.mask = r.mtch) : r.selects w = true := by
  simp only [Row.selects, h, beq_self_eq_true]

end Sys2Proof

namespace Sys2Proof.Laws.EncodingMatchesRow

/-- Some row of the decode table carries the instruction's tag and selects its encoding. -/
def Statement (i : Instr) : Prop := ∃ row ∈ opcodeTable, row.tag = i.tag ∧ row.selects (encode i) = true

theorem cls : Statement .cls :=
  ⟨⟨.CLS, 0x00E0, 0xFFFF⟩, by decide, rfl, by decide⟩

theorem ret : Statement .ret :=
  ⟨⟨.RET, 0x00EE, 0xFFFF⟩, by decide, rfl, by decide⟩

theorem jp (nnn : Addr12) : Statement (.jp nnn) :=
  ⟨⟨.JP, 0x1000, 0xF000⟩, by decide, rfl, Row.selects_of_mask (mask_nnn ..)⟩

theorem call (nnn : Addr12) : Statement (.call nnn) :=
  ⟨⟨.CALL, 0x2000, 0xF000⟩, by decide, rfl, Row.selects_of_mask (mask_nnn ..)⟩

theorem seImm (x : Reg) (kk : Byte) : Statement (.seImm x kk) :=
  ⟨⟨.SE_IMM, 0x3000, 0xF000⟩, by decide, rfl, Row.selects_of_mask (mask_xkk ..)⟩

theorem sneImm (x : Reg) (kk : Byte) : Statement (.sneImm x kk) :=
  ⟨⟨.SNE_IMM, 0x4000, 0xF000⟩, by decide, rfl, Row.selects_of_mask (mask_xkk ..)⟩

theorem seReg (x y : Reg) : Statement (.seReg x y) :=
  ⟨⟨.SE_REG, 0x5000, 0xF00F⟩, by decide, rfl, Row.selects_of_mask (mask_xy ..)⟩

theorem ldImm (x : Reg) (kk : Byte) : Statement (.ldImm x kk) :=
  ⟨⟨.LD_IMM, 0x6000, 0xF000⟩, by decide, rfl, Row.selects_of_mask (mask_xkk ..)⟩

theorem addImm (x : Reg) (kk : Byte) : Statement (.addImm x kk) :=
  ⟨⟨.ADD_IMM, 0x7000, 0xF000⟩, by decide, rfl, Row.selects_of_mask (mask_xkk ..)⟩

theorem ldReg (x y : Reg) : Statement (.ldReg x y) :=
  ⟨⟨.LD_REG, 0x8000, 0xF00F⟩, by decide, rfl, Row.selects_of_mask (mask_xy ..)⟩

theorem orReg (x y : Reg) : Statement (.orReg x y) :=
  ⟨⟨.OR, 0x8001, 0xF00F⟩, by decide, rfl, Row.selects_of_mask (mask_xy ..)⟩

theorem andReg (x y : Reg) : Statement (.andReg x y) :=
  ⟨⟨.AND, 0x8002, 0xF00F⟩, by decide, rfl, Row.selects_of_mask (mask_xy ..)⟩

theorem xorReg (x y : Reg) : Statement (.xorReg x y) :=
  ⟨⟨.XOR, 0x8003, 0xF00F⟩, by decide, rfl, Row.selects_of_mask (mask_xy ..)⟩

theorem addReg (x y : Reg) : Statement (.addReg x y) :=
  ⟨⟨.ADD_REG, 0x8004, 0xF00F⟩, by decide, rfl, Row.selects_of_mask (mask_xy ..)⟩

theorem sub (x y : Reg) : Statement (.sub x y) :=
  ⟨⟨.SUB, 0x8005, 0xF00F⟩, by decide, rfl, Row.selects_of_mask (mask_xy ..)⟩

theorem shr (x y : Reg) : Statement (.shr x y) :=
  ⟨⟨.SHR, 0x8006, 0xF00F⟩, by decide, rfl, Row.selects_of_mask (mask_xy ..)⟩

theorem subn (x y : Reg) : Statement (.subn x y) :=
  ⟨⟨.SUBN, 0x8007, 0xF00F⟩, by decide, rfl, Row.selects_of_mask (mask_xy ..)⟩

theorem shl (x y : Reg) : Statement (.shl x y) :=
  ⟨⟨.SHL, 0x800E, 0xF00F⟩, by decide, rfl, Row.selects_of_mask (mask_xy ..)⟩

theorem sneReg (x y : Reg) : Statement (.sneReg x y) :=
  ⟨⟨.SNE_REG, 0x9000, 0xF00F⟩, by decide, rfl, Row.selects_of_mask (mask_xy ..)⟩

theorem ldI (nnn : Addr12) : Statement (.ldI nnn) :=
  ⟨⟨.LD_I, 0xA000, 0xF000⟩, by decide, rfl, Row.selects_of_mask (mask_nnn ..)⟩

theorem jpV0 (nnn : Addr12) : Statement (.jpV0 nnn) :=
  ⟨⟨.JP_V0, 0xB000, 0xF000⟩, by decide, rfl, Row.selects_of_mask (mask_nnn ..)⟩

theorem rnd (x : Reg) (kk : Byte) : Statement (.rnd x kk) :=
  ⟨⟨.RND, 0xC000, 0xF000⟩, by decide, rfl, Row.selects_of_mask (mask_xkk ..)⟩

theorem drw (x y : Reg) (n : Nibble) : Statement (.drw x y n) :=
  ⟨⟨.DRW, 0xD000, 0xF000⟩, by decide, rfl, Row.selects_of_mask (mask_xyn ..)⟩

theorem skp (x : Reg) : Statement (.skp x) :=
  ⟨⟨.SKP, 0xE09E, 0xF0FF⟩, by decide, rfl, Row.selects_of_mask (mask_x ..)⟩

theorem sknp (x : Reg) : Statement (.sknp x) :=
  ⟨⟨.SKNP, 0xE0A1, 0xF0FF⟩, by decide, rfl, Row.selects_of_mask (mask_x ..)⟩

theorem ldVxDT (x : Reg) : Statement (.ldVxDT x) :=
  ⟨⟨.LD_VX_DT, 0xF007, 0xF0FF⟩, by decide, rfl, Row.selects_of_mask (mask_x ..)⟩

theorem ldVxK (x : Reg) : Statement (.ldVxK x) :=
  ⟨⟨.LD_VX_K, 0xF00A, 0xF0FF⟩, by decide, rfl, Row.selects_of_mask (mask_x ..)⟩

theorem ldDTVx (x : Reg) : Statement (.ldDTVx x) :=
  ⟨⟨.LD_DT_VX, 0xF015, 0xF0FF⟩, by decide, rfl, Row.selects_of_mask (mask_x ..)⟩

theorem ldSTVx (x : Reg) : Statement (.ldSTVx x) :=
  ⟨⟨.LD_ST_VX, 0xF018, 0xF0FF⟩, by decide, rfl, Row.selects_of_mask (mask_x ..)⟩

theorem addIVx (x : Reg) : Statement (.addIVx x) :=
  ⟨⟨.ADD_I_VX, 0xF01E, 0xF0FF⟩, by decide, rfl, Row.selects_of_mask (mask_x ..)⟩

theorem ldFVx (x : Reg) : Statement (.ldFVx x) :=
  ⟨⟨.LD_F_VX, 0xF029, 0xF0FF⟩, by decide, rfl, Row.selects_of_mask (mask_x ..)⟩

theorem ldBVx (x : Reg) : Statement (.ldBVx x) :=
  ⟨⟨.LD_B_VX, 0xF033, 0xF0FF⟩, by decide, rfl, Row.selects_of_mask (mask_x ..)⟩

theorem ldMemVx (x : Reg) : Statement (.ldMemVx x) :=
  ⟨⟨.LD_MEM_VX, 0xF055, 0xF0FF⟩, by decide, rfl, Row.selects_of_mask (mask_x ..)⟩

theorem ldVxMem (x : Reg) : Statement (.ldVxMem x) :=
  ⟨⟨.LD_VX_MEM, 0xF065, 0xF0FF⟩, by decide, rfl, Row.selects_of_mask (mask_x ..)⟩

end Sys2Proof.Laws.EncodingMatchesRow
end

