-- ==== Sys2Proof/Laws/Words.lean ====
section
/-! SUPPORT. The words of the rules' Encoding lines (`wordNNN`, `wordXKK`, `wordXY`, `wordXYN`, `wordX`) are the encoder's
layouts, so that a claim about what such a word decodes to reduces to a claim about an encoding. -/

namespace Sys2Proof.Machine

theorem wordNNN_eq (f : Nibble) (a : Addr12) : wordNNN (f ++ 0#12) a = f ++ a := by
  refine BitVec.eq_of_getLsbD_eq fun k hk => ?_
  rw [wordNNN, BitVec.getLsbD_or, BitVec.getLsbD_append, BitVec.getLsbD_append, BitVec.getLsbD_setWidth]
  by_cases h : k < 12
  · simp [h, hk]
  · simp [h, BitVec.getLsbD_of_ge a k (by omega)]

theorem wordXKK_eq (f : Nibble) (x : Reg) (kk : Byte) : wordXKK (f ++ 0#12) x kk = f ++ x ++ kk := by
  refine BitVec.eq_of_getLsbD_eq fun k hk => ?_
  rw [wordXKK, BitVec.getLsbD_or, BitVec.getLsbD_or, BitVec.getLsbD_append, BitVec.getLsbD_append, BitVec.getLsbD_append]
  simp only [BitVec.getLsbD_setWidth, BitVec.getLsbD_shiftLeft]
  by_cases h : k < 8
  · simp [h, hk, show k < 12 by omega]
  · by_cases h' : k < 12
    · simp [h, h', hk, show k - 8 < 4 by omega, show k - 8 < 16 by omega, BitVec.getLsbD_of_ge kk k (by omega)]
    · simp [h, h', hk, show ¬ k - 8 < 4 by omega, show k - 8 - 4 = k - 12 by omega,
        BitVec.getLsbD_of_ge kk k (by omega), BitVec.getLsbD_of_ge x (k - 8) (by omega)]

theorem wordXY_eq (f : Nibble) (x y : Reg) (n : Nibble) :
    wordXY (f ++ 0#4 ++ 0#4 ++ n) x y = f ++ x ++ y ++ n := by
  refine BitVec.eq_of_getLsbD_eq fun k hk => ?_
  rw [wordXY, BitVec.getLsbD_or, BitVec.getLsbD_or, BitVec.getLsbD_append, BitVec.getLsbD_append, BitVec.getLsbD_append,
    BitVec.getLsbD_append, BitVec.getLsbD_append, BitVec.getLsbD_append]
  simp only [BitVec.getLsbD_setWidth, BitVec.getLsbD_shiftLeft]
  by_cases h : k < 4
  · simp [h, hk, show k < 8 by omega]
  · by_cases h' : k < 8
    · simp [h, h', hk, show k - 4 < 4 by omega, show k - 4 < 16 by omega]
    · by_cases h'' : k < 12
      · simp [h, h', hk, show ¬ k - 4 < 4 by omega, show k - 4 - 4 = k - 8 by omega, show k - 8 < 4 by omega,
          show k - 8 < 16 by omega, BitVec.getLsbD_of_ge y (k - 4) (by omega)]
      · simp [h, h', hk, show ¬ k - 4 < 4 by omega, show k - 4 - 4 = k - 8 by omega, show ¬ k - 8 < 4 by omega,
          show k - 8 - 4 = k - 12 by omega, BitVec.getLsbD_of_ge y (k - 4) (by omega),
          BitVec.getLsbD_of_ge x (k - 8) (by omega)]

theorem wordX_eq (f : Nibble) (x : Reg) (kk : Byte) : wordX (f ++ 0#4 ++ kk) x = f ++ x ++ kk := by
  refine BitVec.eq_of_getLsbD_eq fun k hk => ?_
  rw [wordX, BitVec.getLsbD_or, BitVec.getLsbD_append, BitVec.getLsbD_append, BitVec.getLsbD_append,
    BitVec.getLsbD_append]
  simp only [BitVec.getLsbD_setWidth, BitVec.getLsbD_shiftLeft]
  by_cases h : k < 8
  · simp [h]
  · by_cases h' : k < 12
    · simp [h, hk, show k - 8 < 4 by omega, show k - 8 < 16 by omega]
    · simp [h, hk, show ¬ k - 8 < 4 by omega, show k - 8 - 4 = k - 12 by omega,
        BitVec.getLsbD_of_ge x (k - 8) (by omega)]

theorem wordXYN_eq (f : Nibble) (x y : Reg) (n : Nibble) : wordXYN (f ++ 0#12) x y n = f ++ x ++ y ++ n := by
  have h : wordXY (f ++ 0#12) x y = f ++ x ++ y ++ 0#4 := by
    rw [← wordXY_eq f x y 0#4]
    congr 1
    refine BitVec.eq_of_getLsbD_eq fun k hk => ?_
    simp only [BitVec.getLsbD_append]
    by_cases h4 : k < 4
    · simp [h4, show k < 12 by omega]
    · by_cases h8 : k < 8
      · simp [h4, show k < 12 by omega, show k - 4 < 4 by omega]
      · by_cases h12 : k < 12
        · simp [h4, h12, show ¬ k - 4 < 4 by omega, show k - 4 - 4 < 4 by omega]
        · simp [h4, h12, show ¬ k - 4 < 4 by omega, show ¬ k - 4 - 4 < 4 by omega, show k - 4 - 4 - 4 = k - 12 by omega]
  refine BitVec.eq_of_getLsbD_eq fun k hk => ?_
  rw [wordXYN, h, BitVec.getLsbD_or, BitVec.getLsbD_setWidth]
  simp only [BitVec.getLsbD_append]
  by_cases h4 : k < 4
  · simp [h4, hk]
  · simp [h4, BitVec.getLsbD_of_ge n k (by omega)]

end Sys2Proof.Machine
end

