-- ==== Sys2Proof/Tests/Slice0.lean ====
section
/-! SUPPORT. Tests of the model: ill-formed terms the checks refuse, words written out from R104's patterns, one-cycle
vectors of spec/95_test_vectors.md (each test names its vector), and a witness for the hypotheses of every obligation. -/

namespace Sys2Proof.Tests

open Sys2Proof Sys2Proof.Machine

set_option Elab.async false

/-! ## Helpers -/

/-- The state after initialise with one word at 0x200 (95_test_vectors.md, Conventions). -/
def rom (w : Word) : State := State.initialise [highByte w, lowByte w]

/-- The state a step ends in; the step is given TIMER_DIVISOR and the inputs of its cycle. -/
def cycle (s : State) (keys : BitVec 16 := 0) (rand : Byte := 0) (n : Nat := 1000) : State :=
  match stepWith n { s with host := [.plainCycle ⟨keys, rand⟩] } with
  | .next t => t
  | .fault f => nomatch f
  | .refused _ => s

/-- The state an instruction ends in. -/
def after (i : Instr) (s : State) : State :=
  match exec i s with
  | .next t => t
  | .fault f => nomatch f
  | .refused _ => s

theorem exec_after (i : Instr) (s : State) : exec i s = .next (after i s) := by
  obtain ⟨t, ht⟩ := exec_next i s
  simp [after, ht]

/-- The state the model's own step ends in. -/
def stepped (s : State) : State :=
  match step s with
  | .next t => t
  | .fault f => nomatch f
  | .refused _ => s

/-- The state a cycle ends in, from a Running state. -/
def ran (n : Nat) (inp : CycleInput) (s : State) : State :=
  match runCycle n inp s with
  | .next t => t
  | .fault f => nomatch f
  | .refused _ => s

/-- The bytes `bs` at `a`. -/
def State.poke (s : State) (a : Nat) (bs : List Byte) : State := s.storeBytes a bs

/-- err without its pc and word. -/
def errOf (s : State) : Option (ErrCode × BitVec 17 × AccessKind) := s.err.map fun r => (r.code, r.detail, r.kind)

/-- How many pixels are on. -/
def lit (s : State) : Nat :=
  (List.range 32).foldl (fun a r => a + ((List.range 64).filter fun c => s.fbOut.getLsbD (r * 64 + c)).length) 0

/-! ## WellFormed: each check refuses an ill-formed term -/

theorem test_wf_refuses_register_16 : (⟨.SKP, [.v 16]⟩ : AsmLine).wellFormed = false := by decide

theorem test_wf_refuses_byte_256 : (⟨.LD, [.v 0, .num 256]⟩ : AsmLine).wellFormed = false ∧
    (⟨.LD, [.v 0, .num 255]⟩ : AsmLine).wellFormed = true := by decide

theorem test_wf_refuses_address_4096 : (⟨.JP, [.num 4096]⟩ : AsmLine).wellFormed = false ∧
    (⟨.LD, [.I, .num 4096]⟩ : AsmLine).wellFormed = false ∧ (⟨.CALL, [.num 4095]⟩ : AsmLine).wellFormed = true := by
  decide

theorem test_wf_refuses_row_count_16 : (⟨.DRW, [.v 0, .v 1, .num 16]⟩ : AsmLine).wellFormed = false ∧
    (⟨.DRW, [.v 15, .v 15, .num 15]⟩ : AsmLine).wellFormed = true := by decide

theorem test_wf_refuses_match_outside_mask : Row.wellFormed ⟨.JP, 0x1001, 0xF000⟩ = false := by decide

theorem test_wf_refuses_row_without_family : Row.wellFormed ⟨.JP, 0x0000, 0x0FFF⟩ = false := by decide

theorem test_wf_accepts_every_row : opcodeTable.all Row.wellFormed = true := by decide

theorem test_wf_rom_limit : romWellFormed (List.replicate 3585 0) = false ∧
    romWellFormed (List.replicate 3584 0) = true := by decide +kernel

theorem test_assemble_refuses : assemble ⟨.LD, [.v 0, .num 256]⟩ = none ∧ assemble ⟨.JP, [.v 1, .num 0]⟩ = none ∧
    assemble ⟨.CLS, [.v 0]⟩ = none ∧ assemble ⟨.LD, [.v 0, .num 5]⟩ = some (.ldImm 0 5) := by decide

/-! ## Decode: words written out from R104's pattern column -/

theorem test_decode_family_0 : decodeWord (0b0000#4 ++ 0b0000#4 ++ 0b1110#4 ++ 0b0000#4) = .ok .cls ∧
    decodeWord (0b0000#4 ++ 0b0000#4 ++ 0b1110#4 ++ 0b1110#4) = .ok .ret := by decide

theorem test_decode_jumps : decodeWord (0b0001#4 ++ 0b101010111100#12) = .ok (.jp 0xABC) ∧
    decodeWord (0b0010#4 ++ 0b001000010000#12) = .ok (.call 0x210) ∧
    decodeWord (0b1011#4 ++ 0b001100000000#12) = .ok (.jpV0 0x300) := by decide

theorem test_decode_skips : decodeWord (0b0011#4 ++ 0b1010#4 ++ 0b01000010#8) = .ok (.seImm 0xA 0x42) ∧
    decodeWord (0b0100#4 ++ 0b1010#4 ++ 0b01000010#8) = .ok (.sneImm 0xA 0x42) ∧
    decodeWord (0b0101#4 ++ 0b0001#4 ++ 0b0010#4 ++ 0b0000#4) = .ok (.seReg 1 2) ∧
    decodeWord (0b1001#4 ++ 0b0001#4 ++ 0b0010#4 ++ 0b0000#4) = .ok (.sneReg 1 2) := by decide

theorem test_decode_immediates : decodeWord (0b0110#4 ++ 0b0000#4 ++ 0b00000101#8) = .ok (.ldImm 0 5) ∧
    decodeWord (0b0111#4 ++ 0b1010#4 ++ 0b11111111#8) = .ok (.addImm 0xA 0xFF) ∧
    decodeWord (0b1100#4 ++ 0b0011#4 ++ 0b00001111#8) = .ok (.rnd 3 0x0F) := by decide

theorem test_decode_family_8_moves : decodeWord (0b1000#4 ++ 0b0001#4 ++ 0b0010#4 ++ 0b0000#4) = .ok (.ldReg 1 2) ∧
    decodeWord (0b1000#4 ++ 0b0001#4 ++ 0b0010#4 ++ 0b0001#4) = .ok (.orReg 1 2) ∧
    decodeWord (0b1000#4 ++ 0b0001#4 ++ 0b0010#4 ++ 0b0010#4) = .ok (.andReg 1 2) ∧
    decodeWord (0b1000#4 ++ 0b0001#4 ++ 0b0010#4 ++ 0b0011#4) = .ok (.xorReg 1 2) := by decide

theorem test_decode_family_8_flags : decodeWord (0b1000#4 ++ 0b0001#4 ++ 0b0010#4 ++ 0b0100#4) = .ok (.addReg 1 2) ∧
    decodeWord (0b1000#4 ++ 0b0001#4 ++ 0b0010#4 ++ 0b0101#4) = .ok (.sub 1 2) ∧
    decodeWord (0b1000#4 ++ 0b0001#4 ++ 0b0010#4 ++ 0b0110#4) = .ok (.shr 1 2) ∧
    decodeWord (0b1000#4 ++ 0b0001#4 ++ 0b0010#4 ++ 0b0111#4) = .ok (.subn 1 2) ∧
    decodeWord (0b1000#4 ++ 0b0001#4 ++ 0b0010#4 ++ 0b1110#4) = .ok (.shl 1 2) := by decide

theorem test_decode_index_and_draw : decodeWord (0b1010#4 ++ 0b001100000000#12) = .ok (.ldI 0x300) ∧
    decodeWord (0b1101#4 ++ 0b0001#4 ++ 0b0010#4 ++ 0b1111#4) = .ok (.drw 1 2 0xF) := by decide

theorem test_decode_keys : decodeWord (0b1110#4 ++ 0b0101#4 ++ 0b10011110#8) = .ok (.skp 5) ∧
    decodeWord (0b1110#4 ++ 0b0101#4 ++ 0b10100001#8) = .ok (.sknp 5) := by decide

theorem test_decode_family_F_timers : decodeWord (0b1111#4 ++ 0b0011#4 ++ 0b00000111#8) = .ok (.ldVxDT 3) ∧
    decodeWord (0b1111#4 ++ 0b0011#4 ++ 0b00001010#8) = .ok (.ldVxK 3) ∧
    decodeWord (0b1111#4 ++ 0b0011#4 ++ 0b00010101#8) = .ok (.ldDTVx 3) ∧
    decodeWord (0b1111#4 ++ 0b0011#4 ++ 0b00011000#8) = .ok (.ldSTVx 3) := by decide

theorem test_decode_family_F_memory : decodeWord (0b1111#4 ++ 0b0010#4 ++ 0b00011110#8) = .ok (.addIVx 2) ∧
    decodeWord (0b1111#4 ++ 0b0010#4 ++ 0b00101001#8) = .ok (.ldFVx 2) ∧
    decodeWord (0b1111#4 ++ 0b0010#4 ++ 0b00110011#8) = .ok (.ldBVx 2) ∧
    decodeWord (0b1111#4 ++ 0b0010#4 ++ 0b01010101#8) = .ok (.ldMemVx 2) ∧
    decodeWord (0b1111#4 ++ 0b0010#4 ++ 0b01100101#8) = .ok (.ldVxMem 2) := by decide

/-- E01-E13: every illegal word of the list. -/
theorem test_decode_illegal : ([0x0000, 0x0123, 0x01EE, 0x00E1, 0x5121, 0x912F, 0x8128, 0x812F, 0xE19F, 0xE1A2, 0xF100,
    0xF1FF, 0xF01F] : List Word).all (fun w => decodeWord w == .error (.decodeFailure w)) = true := by decide

/-- The fields of 0xD12F (2.1, R101). -/
theorem test_fields_D12F : fieldFamily 0xD12F = 0xD ∧ fieldX 0xD12F = 1 ∧ fieldY 0xD12F = 2 ∧ fieldN 0xD12F = 0xF ∧
    fieldKK 0xD12F = 0x2F ∧ fieldNNN 0xD12F = 0x12F := by decide

theorem test_decode_bytes_truncated : decodeBytes [0x60] = .error .truncated ∧ decodeBytes [] = .error .truncated := by
  decide

theorem test_decodeTableWord : decodeTableWord 16 0xD12F = some (.drw 1 2 0xF) ∧ decodeTableWord 16 0x0123 = none := by
  decide

/-! ## Memory and fetch (2.2) -/

/-- M01. -/
theorem test_fetch_big_endian : (rom 0x1234).fetch16 0x200 = .ok 0x1234 := by decide +kernel

/-- M02 and M03: the last word is legal, the fetch after it is ADDRESS_RANGE(0x1000, fetch) with word 0. -/
theorem test_fetch_end_of_memory :
    let t := cycle { State.poke (rom 0) 0xFFE [0x60, 0x01] with pc := 0xFFE }
    t.getV 0 = 1 ∧ t.pc = 0x1000 ∧ (cycle t).err = some ⟨.addressRange, 0x1000, 0, 0x1000, .fetch⟩ := by decide +kernel

/-- M05. -/
theorem test_fetch_odd_pc :
    let t := cycle { State.poke (rom 0) 0x201 [0x6A, 0x07] with pc := 0x201 }
    t.getV 0xA = 7 ∧ t.pc = 0x203 := by decide +kernel

/-- M06. -/
theorem test_glyph_2 : (rom 0).readBytes 0x00A 5 = [0xF0, 0x10, 0xF0, 0x80, 0xF0] := by decide +kernel

theorem test_write_background_removes_entry :
    Memory.write Config.defaultGlyphRom (Memory.write Config.defaultGlyphRom [] 0x300 5) 0x300 0 = [] ∧
      Memory.write Config.defaultGlyphRom [] 0 0xF0 = [] := by decide

/-- R73, U11: the block reads the glyph table it was created with, and no write reaches it. -/
theorem test_glyph_rom_is_an_argument :
    let t := cycle { State.initialise [0xF0, 0x65] (Vector.replicate 80 0xAA) with regI := 0x04F }
    t.getV 0 = 0xAA ∧ errOf (cycle { State.initialise [0xF0, 0x55] (Vector.replicate 80 0xAA) with regI := 0x04F }) =
      some (.glyphWrite, 0x04F, .none) := by decide +kernel

/-! ## Display (2.3) -/

/-- D01. -/
theorem test_cls :
    let t := cycle { rom 0x00E0 with fb := flipPixel (Vector.replicate 32 0) 0 0 }
    lit t = 0 ∧ t.drawRequested = true ∧ t.pc = 0x202 := by decide +kernel

/-- D03: the 14 pixels of the glyph of 0. -/
theorem test_drw_glyph :
    let t := cycle ((rom 0xD015).setI 0)
    lit t = 14 ∧ t.pixel 0 3 = true ∧ t.pixel 1 1 = false ∧ t.pixel 4 2 = true ∧ t.getV 15 = 0 ∧
      t.drawRequested = true ∧ t.pc = 0x202 := by decide +kernel

/-- D05: the wrap of a row. -/
theorem test_drw_wraps :
    let t := cycle ((((State.poke (rom 0xD121) 0x300 [0xFF]).setI 0x300).setV 1 0x3C).setV 2 0x1F)
    lit t = 8 ∧ t.pixel 31 60 = true ∧ t.pixel 31 63 = true ∧ t.pixel 31 0 = true ∧ t.pixel 31 3 = true := by
  decide +kernel

/-- D10: the origin from the old VF, then the flag. -/
theorem test_drw_flag_register :
    let t := cycle (((State.poke (rom 0xDFF1) 0x300 [0x80]).setI 0x300).setV 15 8)
    lit t = 1 ∧ t.pixel 8 8 = true ∧ t.getV 15 = 0 := by decide +kernel

/-- D09. -/
theorem test_drw_range : errOf (cycle ((rom 0xD122).setI 0xFFF)) = some (.addressRange, 0x1000, .read) := by
  decide +kernel

/-! ## Control flow (2.4) -/

/-- CF03. -/
theorem test_ret :
    let t := cycle { rom 0x00EE with sp := 16, stack := (Vector.replicate 16 0).set 15 0x0ABC }
    t.pc = 0xABC ∧ t.sp = 15 ∧ t.stackAt 15 = 0x0ABC := by decide +kernel

/-- CF02. -/
theorem test_ret_empty : errOf (cycle (rom 0x00EE)) = some (.stackUnderflow, 0, .none) := by decide +kernel

/-- CF04. -/
theorem test_jp : (cycle (rom 0x1ABC)).pc = 0xABC := by decide +kernel

/-- CF08. -/
theorem test_call :
    let t := cycle { rom 0x2400 with sp := 15 }
    t.pc = 0x400 ∧ t.sp = 16 ∧ t.stackAt 15 = 0x202 := by decide +kernel

/-- CF09 and T08. -/
theorem test_call_full :
    let t := cycle { rom 0x2400 with sp := 16 }
    t.err = some ⟨.stackOverflow, 0x200, 0x2400, 16, .none⟩ ∧ t.pc = 0x200 ∧ t.sp = 16 := by decide +kernel

/-- CF11, CF12. -/
theorem test_se_imm : (cycle ((rom 0x3A42).setV 0xA 0x42)).pc = 0x204 ∧ (cycle ((rom 0x3A42).setV 0xA 0x43)).pc = 0x202 := by
  decide +kernel

/-- CF14, CF15. -/
theorem test_sne_imm : (cycle ((rom 0x4A42).setV 0xA 0x42)).pc = 0x202 ∧ (cycle (rom 0x4A42)).pc = 0x204 := by
  decide +kernel

/-- CF17, CF18. -/
theorem test_se_reg : (cycle (((rom 0x5120).setV 1 7).setV 2 8)).pc = 0x202 ∧ (cycle (rom 0x5330)).pc = 0x204 := by
  decide +kernel

/-- CF19, CF21. -/
theorem test_sne_reg : (cycle (((rom 0x9120).setV 1 7).setV 2 8)).pc = 0x204 ∧ (cycle (rom 0x9330)).pc = 0x202 := by
  decide +kernel

/-- CF23: the exact sum. -/
theorem test_jp_v0 : (cycle ((rom 0xBFFF).setV 0 0xFF)).pc = 0x10FE := by decide +kernel

/-! ## ALU (2.5) -/

/-- A01. -/
theorem test_ld_imm : (cycle (rom 0x6A7F)).getV 0xA = 0x7F := by decide +kernel

/-- A04: wraps, no flag. -/
theorem test_add_imm :
    let t := cycle (((rom 0x7AFF).setV 0xA 2).setV 15 5)
    t.getV 0xA = 1 ∧ t.getV 15 = 5 := by decide +kernel

/-- A06. -/
theorem test_ld_reg : (cycle (((rom 0x8120).setV 1 0x11).setV 2 0x22)).getV 1 = 0x22 := by decide +kernel

/-- A08. -/
theorem test_or :
    let t := cycle ((((rom 0x8121).setV 1 0xF0).setV 2 0x0F).setV 15 5)
    t.getV 1 = 0xFF ∧ t.getV 15 = 5 := by decide +kernel

/-- A09. -/
theorem test_and : (cycle (((rom 0x8122).setV 1 0xF0).setV 2 0x3C)).getV 1 = 0x30 := by decide +kernel

/-- A10. -/
theorem test_xor : (cycle (((rom 0x8123).setV 1 0xF0).setV 2 0x3C)).getV 1 = 0xCC := by decide +kernel

/-- A16: the old VF is the operand. -/
theorem test_add_reg :
    let t := cycle (((rom 0x81F4).setV 1 0x10).setV 15 0xF0)
    t.getV 1 = 0 ∧ t.getV 15 = 1 := by decide +kernel

/-- A15: the flag wins. -/
theorem test_add_reg_flag_wins : (cycle (((rom 0x8F14).setV 15 1).setV 1 0xFF)).getV 15 = 1 := by decide +kernel

/-- A18, A19: wraps; the comparison is strict. -/
theorem test_sub :
    let t := cycle (((rom 0x8125).setV 1 3).setV 2 5)
    t.getV 1 = 0xFE ∧ t.getV 15 = 0 ∧ (cycle (((rom 0x8125).setV 1 7).setV 2 7)).getV 15 = 0 := by decide +kernel

/-- A21: the flag wins over the difference. -/
theorem test_sub_flag_wins : (cycle (((rom 0x8F15).setV 15 9).setV 1 2)).getV 15 = 1 := by decide +kernel

/-- A24: V[y] is not read. -/
theorem test_shr :
    let t := cycle (((rom 0x81E6).setV 1 1).setV 0xE 0xFF)
    t.getV 1 = 0 ∧ t.getV 15 = 1 := by decide +kernel

/-- A26, A27. -/
theorem test_subn :
    let t := cycle (((rom 0x8127).setV 1 3).setV 2 5)
    t.getV 1 = 2 ∧ t.getV 15 = 1 ∧ (cycle (((rom 0x8127).setV 1 5).setV 2 3)).getV 1 = 0xFE := by decide +kernel

/-- A29, A30. -/
theorem test_shl :
    let t := cycle ((rom 0x810E).setV 1 0x81)
    t.getV 1 = 2 ∧ t.getV 15 = 1 ∧ (cycle ((rom 0x810E).setV 1 0x40)).getV 15 = 0 := by decide +kernel

/-- A33. -/
theorem test_rnd : (cycle (rom 0xC10F) (rand := 0xAB)).getV 1 = 0x0B := by decide +kernel

/-! ## Index register and memory (2.6) -/

/-- X02. -/
theorem test_ld_i : (cycle (rom 0xAFFF)).regI = 0xFFF := by decide +kernel

/-- X03: above 0xFFF, no flag. -/
theorem test_add_i :
    let t := cycle ((((rom 0xF21E).setI 0xFFF).setV 2 1).setV 15 7)
    t.regI = 0x1000 ∧ t.getV 15 = 7 := by decide +kernel

/-- X05. -/
theorem test_add_i_overflow :
    let t := cycle (((rom 0xF21E).setI 0xFFF0).setV 2 0x10)
    errOf t = some (.iOverflow, 0xFFF0, .none) ∧ t.regI = 0xFFF0 := by decide +kernel

/-- X08, X10. -/
theorem test_ld_f : (cycle ((rom 0xF029).setV 0 0x0F)).regI = 0x04B ∧ (cycle ((rom 0xF029).setV 0 0xFF)).regI = 0x4FB := by
  decide +kernel

/-- X11. -/
theorem test_ld_b :
    let t := cycle (((rom 0xF033).setV 0 0xFE).setI 0x300)
    t.readBytes 0x300 3 = [2, 5, 4] ∧ t.regI = 0x300 := by decide +kernel

/-- X15, X16. -/
theorem test_ld_b_errors :
    let t := cycle (((rom 0xF033).setV 0 0x64).setI 0xFFE)
    errOf t = some (.addressRange, 0x1000, .write) ∧ t.readBytes 0xFFE 2 = [0, 0] ∧
      errOf (cycle (((rom 0xF033).setV 0 0x64).setI 0x04F)) = some (.glyphWrite, 0x04F, .none) := by decide +kernel

/-- X20. -/
theorem test_ld_mem_vx :
    let t := cycle ((((rom 0xF155).setV 0 1).setV 1 2).setI 0xFFE)
    t.readBytes 0xFFE 2 = [1, 2] ∧ t.regI = 0x1000 := by decide +kernel

/-- X22: the lowest offending address. -/
theorem test_ld_mem_vx_glyph : errOf (cycle ((rom 0xF355).setI 0x04E)) = some (.glyphWrite, 0x04E, .none) := by
  decide +kernel

/-- X24: glyph 0 is read. -/
theorem test_ld_vx_mem :
    let t := cycle (rom 0xF465)
    (List.range 5).map (fun k => t.getV (BitVec.ofNat 4 k)) = [0xF0, 0x90, 0x90, 0x90, 0xF0] ∧ t.regI = 5 := by
  decide +kernel

/-- X26. -/
theorem test_ld_vx_mem_range : errOf (cycle ((rom 0xFF65).setI 0xFF1)) = some (.addressRange, 0x1000, .read) := by
  decide +kernel

/-! ## Keys and timers (2.7) -/

/-- K01, K02. -/
theorem test_skp : (cycle ((rom 0xE59E).setV 5 7) 0x0080).pc = 0x204 ∧ (cycle ((rom 0xE59E).setV 5 7)).pc = 0x202 := by
  decide +kernel

/-- K03. -/
theorem test_skp_range : errOf (cycle ((rom 0xE59E).setV 5 0x10)) = some (.keyIndexRange, 0x10, .none) := by
  decide +kernel

/-- K04, K05. -/
theorem test_sknp : (cycle ((rom 0xE5A1).setV 5 7)).pc = 0x204 ∧ (cycle ((rom 0xE5A1).setV 5 7) 0x0080).pc = 0x202 := by
  decide +kernel

/-- K06. -/
theorem test_sknp_range : errOf (cycle ((rom 0xE5A1).setV 5 0xFF)) = some (.keyIndexRange, 0xFF, .none) := by
  decide +kernel

/-- K08. -/
theorem test_ld_vx_dt :
    let t := cycle { rom 0xF307 with dt := 0x3C } (n := 1)
    t.getV 3 = 0x3C ∧ t.dt = 0x3B := by decide +kernel

/-- K10. -/
theorem test_ld_dt_vx : (cycle ((rom 0xF015).setV 0 5) (n := 1)).dt = 4 := by decide +kernel

/-- K12. -/
theorem test_ld_st_vx : (cycle ((rom 0xF118).setV 1 0x10)).st = 0x10 := by decide +kernel

/-- K16: the lowest index of keys 2 and 9. -/
theorem test_ld_vx_k :
    let t := cycle (rom 0xF30A) 0x0204
    t.getV 3 = 2 ∧ t.pc = 0x202 ∧ t.awaitingKey = false := by decide +kernel

/-- K18: the waiting cycle counts. -/
theorem test_ld_vx_k_waits :
    let t := cycle { rom 0xF30A with dt := 2 } (n := 1)
    t.pc = 0x200 ∧ t.awaitingKey = true ∧ t.dt = 1 := by decide +kernel

/-! ## Driver, errors, reset (2.8) -/

/-- T03-T05, and STATUS after reset (R50, R51). -/
theorem test_status_words : (rom 0).status = 0x0004 ∧
    ({ rom 0 with drawRequested := true, awaitingKey := true } : State).status = 0x0034 ∧
    (rom 0).pauseReq.status = 0x000D ∧ State.reset.status = 0x0014 := by decide +kernel

/-- T06, T07: an error cycle with N = 1 leaves DT and cyc. -/
theorem test_decode_failure_cycle :
    let t := cycle { rom 0x0123 with dt := 5 } (n := 1)
    t.status = 0x0202 ∧ t.dt = 5 ∧ t.cyc = 0 ∧ t.lastInstr = 0x0123 ∧
      t.err = some ⟨.decodeFailure, 0x200, 0x0123, 0x0123, .none⟩ := by decide +kernel

/-- T09, T13: quit wins over a reset in the same gap. -/
theorem test_quit_first :
    let t := ({ rom 0 with regI := 9 } : State).gapActions ⟨true, true, [], false, none⟩
    t.status = 0x0002 ∧ t.err = none ∧ t.regI = 9 := by decide +kernel

/-- R315, D19: sent apart but before one cycle request, a reset still comes before a pause, and a quit voids a draw_ack. -/
theorem test_one_gap_of_two_entries :
    (stepped { rom 0x6A7F with host := [⟨false, false, [.pause], false, none⟩, ⟨false, true, [], false, some ⟨0, 0⟩⟩] }).status =
        0x001D ∧
      (stepped { rom 0x6A7F with
        drawRequested := true, host := [⟨true, false, [], false, none⟩, ⟨false, false, [], true, none⟩] }).status = 0x0012 := by
  decide +kernel

/-- T10, T11: reset keeps memory, sets draw_requested and leaves the driver Running. -/
theorem test_reset_in_paused :
    let t := (({ State.poke (rom 0) 0x300 [2, 5, 4] with regI := 0x303, pc := 0x208 } : State).setV 0 2).pauseReq.resetReq
    t.readBytes 0x300 3 = [2, 5, 4] ∧ t.regI = 0 ∧ t.pc = 0x200 ∧ t.getV 0 = 0 ∧ t.status = 0x0014 := by decide +kernel

/-- T12: no effect in Stopped. -/
theorem test_reset_in_stopped : (cycle (rom 0x0123)).resetReq = cycle (rom 0x0123) := by decide +kernel

/-- D13. -/
theorem test_draw_ack : (({ rom 0 with drawRequested := true } : State).gapActions ⟨false, false, [], true, none⟩).drawRequested
    = false := by decide +kernel

/-- T15. -/
theorem test_trace : cycleTrace ⟨0, 0⟩ (rom 0x6005) = some ⟨0x200, 0x6005, .LD_IMM, 0, 0, 5, 0x05, 0x005⟩ := by
  decide +kernel

/-- S9: a ROM of 3585 bytes; STATUS = 0x0102. -/
theorem test_rom_too_large :
    let t := State.initialise (List.replicate 3585 1)
    t.err = some ⟨.romTooLarge, 0, 0, 0xE01, .none⟩ ∧ t.status = 0x0102 ∧ t.readByte 0x200 = 0 ∧ t.readByte 0 = 0xF0 := by decide +kernel

/-- A word placed where reset fetches runs as the very next step. -/
theorem test_withFetchWord :
    (stepped (State.reset.withFetchWord 16 0x6A7F)).getV 0xA = 0x7F ∧
      (stepped (State.reset.withFetchWord 16 0x6A7F)).pc = 0x202 := by decide +kernel

/-! ## Witnesses: concrete states and operands that meet the hypotheses of each obligation, clause by clause, at the ends
of their ranges. An obligation not named here has none. -/

/-- A state with I at `a`. -/
def atI (a : Word) : State := (rom 0).setI a

/-- A state with `w` at PC = 0xFFE, the last address a fetch can use. -/
def atEnd (w : Word) : State := { State.poke (rom 0) 0xFFE [highByte w, lowByte w] with pc := 0xFFE }

/-- A state with PC at 0xFFF, the first address a fetch cannot use. -/
def pastEnd : State := { rom 0 with pc := 0xFFF }

theorem witness_EncodeInvertsDecode : decodeWord 0x81E6 = .ok (.shr 1 0xE) := by decide

theorem witness_DecoderFollowsTable_legal : (⟨.SHR, 0x8006, 0xF00F⟩ : Row) ∈ opcodeTable ∧
    (0x81E6 : Word) &&& 0xF00F = 0x8006 := by decide

theorem witness_DecoderFollowsTable_illegal : (∀ row ∈ opcodeTable, (0x8128 : Word) &&& row.mask ≠ row.mtch) ∧
    (atEnd 0x8128).pc.toNat ≤ 0xFFE ∧ (atEnd 0x8128).wordAtPC = 0x8128 := by decide +kernel

theorem witness_TableRowsNeverOverlap : (⟨.JP, 0x1000, 0xF000⟩ : Row) ∈ opcodeTable ∧
    (0x1ABC : Word) &&& 0xF000 = 0x1000 := by decide

theorem witness_FlagOnlyFromFlagInstructions : writesFlag (.addReg 1 2) = true ∧ (rom 0).driver = .running ∧
    exec (.addReg 1 2) (rom 0) = .next (after (.addReg 1 2) (rom 0)) ∧ (after (.addReg 1 2) (rom 0)).driver = .running :=
  ⟨by decide, by decide, exec_after _ _, by decide +kernel⟩

theorem witness_FlagOnlyFromFlagInstructions_others : writesFlag (.ldImm 14 5) = false ∧
    writesReg (.ldImm 14 5) 15 = false ∧ (14 : Reg) ≠ 15 ∧
    exec (.ldImm 14 5) (rom 0) = .next (after (.ldImm 14 5) (rom 0)) ∧
    Instr.ldImm 14 5 ∈ [Instr.ldImm 14 5, .addImm 14 5, .ldReg 14 0, .orReg 14 0, .andReg 14 0, .xorReg 14 0, .rnd 14 5] :=
  ⟨by decide, by decide, by decide, exec_after _ _, by decide⟩

theorem witness_RegisterWriters : writesReg (.ldVxMem 14) 15 = false ∧
    exec (.ldVxMem 14) (atI 0x300) = .next (after (.ldVxMem 14) (atI 0x300)) := ⟨by decide, exec_after _ _⟩

theorem witness_RegisterReaders : readsReg (.ldMemVx 14) 15 = false ∧
    exec (.ldMemVx 14) (atI 0x300) = .next (after (.ldMemVx 14) (atI 0x300)) := ⟨by decide, exec_after _ _⟩

theorem witness_JumpTargets : (0xFFF : Addr12) = 0xFFF ∧ 0xFFE < (0xFFF : Addr12).toNat + ((rom 0).getV 0).toNat ∧
    0xFFE < (0xFFF : Addr12).toNat + (((rom 0).setV 0 0xFF).getV 0).toNat := by decide +kernel

theorem witness_CallPushesReturnAddress : ({ rom 0 with sp := 15 } : State).sp.val < 16 ∧
    ({ rom 0 with sp := 16 } : State).sp.val = 16 := by decide

theorem witness_ReturnPopsIntoPC : 0 < ({ rom 0 with sp := 1 } : State).sp.val ∧
    0 < ({ rom 0 with sp := 16 } : State).sp.val ∧ (rom 0).sp.val = 0 := by decide +kernel

theorem witness_CallThenReturnResumes :
    let s : State := { rom 0 with sp := 15 }
    let t := after (.call 0x400) s
    let u : State := (t.setV 3 7).setPC 0x410
    s.sp.val < 16 ∧ exec (.call 0x400) s = .next t ∧ u.stack = t.stack ∧ u.sp = t.sp :=
  ⟨by decide, exec_after _ _, rfl, rfl⟩

theorem witness_RegisterSkips : (1 : Nibble) ≠ 0 ∧ (15 : Nibble) ≠ 0 := by decide

theorem witness_SkippedWordIsNotRead : isSkip (.seReg 3 3) = true ∧ (atEnd 0x5330).pc = 0xFFE ∧
    exec (.seReg 3 3) (atEnd 0x5330) = .next (after (.seReg 3 3) (atEnd 0x5330)) ∧
    (after (.seReg 3 3) (atEnd 0x5330)).pc = (atEnd 0x5330).pc + 4 :=
  ⟨by decide, by decide, exec_after _ _, by decide +kernel⟩

theorem witness_PcAfterEachInstruction : (atEnd 0).pc.toNat ≤ 0xFFE ∧ (atEnd 0).driver = .running ∧
    exec .cls (atEnd 0) = .next (after .cls (atEnd 0)) ∧ (after .cls (atEnd 0)).driver = .running ∧
    exec .ret (atEnd 0) = .next (after .ret (atEnd 0)) ∧ (after .ret (atEnd 0)).driver ≠ .running :=
  ⟨by decide, by decide, exec_after _ _, by decide +kernel, exec_after _ _, by decide +kernel⟩

theorem witness_IndexAddWidens : (((atI 0xFFF0).setV 2 0x0F).regI.toNat + (((atI 0xFFF0).setV 2 0x0F).getV 2).toNat ≤ 0xFFFF) ∧
    0xFFFF < ((atI 0xFFF0).setV 2 0x10).regI.toNat + (((atI 0xFFF0).setV 2 0x10).getV 2).toNat := by decide +kernel

theorem witness_DecimalDigitsStored : Memory.wf (rom 0).glyphRom (rom 0).mem = true ∧
    (0x050 ≤ (atI 0x050).addrI ∧ (atI 0x050).addrI + 2 ≤ 0xFFF) ∧
    (0x050 ≤ (atI 0xFFD).addrI ∧ (atI 0xFFD).addrI + 2 ≤ 0xFFF) ∧ (atI 0x04F).addrI < 0x050 ∧
    0xFFF < (atI 0xFFE).addrI + 2 := by decide +kernel

theorem witness_RegistersStored : Memory.wf (rom 0).glyphRom (rom 0).mem = true ∧
    (0x050 ≤ (atI 0x050).addrI ∧ (atI 0x050).addrI + (15 : Reg).toNat ≤ 0xFFF) ∧
    (0x050 ≤ (atI 0xFF0).addrI ∧ (atI 0xFF0).addrI + (15 : Reg).toNat ≤ 0xFFF) ∧
    (0x050 ≤ (atI 0xFFF).addrI ∧ (atI 0xFFF).addrI + (0 : Reg).toNat ≤ 0xFFF) ∧ (atI 0x04F).addrI < 0x050 ∧
    0xFFF < (atI 0xFF1).addrI + (15 : Reg).toNat := by decide +kernel

theorem witness_RegistersLoaded : (atI 0xFF0).addrI + (15 : Reg).toNat ≤ 0xFFF ∧
    (atI 0x000).addrI + (0 : Reg).toNat ≤ 0xFFF ∧ 0xFFF < (atI 0xFF1).addrI + (15 : Reg).toNat := by decide +kernel

theorem witness_RegistersLoaded_after_store :
    let r := (atI 0xFF0).setV 15 9
    let t := after (.ldMemVx 15) r
    let u := (t.setI 0xFF0).setV 15 1
    Memory.wf r.glyphRom r.mem = true ∧ r.driver = .running ∧ exec (.ldMemVx 15) r = .next t ∧ t.driver = .running ∧
      (∀ a, u.readByte a = t.readByte a) ∧ u.regI = r.regI :=
  ⟨by decide +kernel, rfl, exec_after _ _, by decide +kernel, fun _ => rfl, rfl⟩

theorem witness_SeparateStoresBothLoadBack :
    let s := (atI 0x050).setV 0 9
    let t := after (.ldMemVx 1) s
    let u := t.setI 0x052
    let v := after (.ldMemVx 15) u
    Memory.wf s.glyphRom s.mem = true ∧ s.driver = .running ∧ exec (.ldMemVx 1) s = .next t ∧ t.driver = .running ∧ u.mem = t.mem ∧
      u.glyphRom = t.glyphRom ∧ u.driver = .running ∧ s.addrI + (1 : Reg).toNat < u.addrI ∧ exec (.ldMemVx 15) u = .next v ∧ v.driver = .running :=
  ⟨by decide +kernel, rfl, exec_after _ _, by decide +kernel, rfl, rfl, by decide +kernel, by decide +kernel, exec_after _ _,
    by decide +kernel⟩

/-- The last row of a 15-row sprite at 0xFF2 offends alone; a store at 0x04F offends with its first byte. -/
theorem witness_LowestOffendingAddressDecides :
    (MovesBytes (.drw 1 2 15) .read 15 ∧ Offends .read ((atI 0xFF2).addrI + 14) ∧
      ∀ j, j < 14 → ¬ Offends .read ((atI 0xFF2).addrI + j)) ∧
    (MovesBytes (.ldBVx 0) .write 3 ∧ Offends .write ((atI 0x04F).addrI + 0)) ∧
    (MovesBytes (.ldMemVx 15) .write 16 ∧ ∀ k, k < 16 → ¬ Offends .write ((atI 0x050).addrI + k)) := by
  refine ⟨⟨.sprite 1 2 15, Or.inl (by decide +kernel), fun j hj h => ?_⟩,
    ⟨.decimal 0, Or.inr ⟨rfl, by decide +kernel⟩⟩, .store 15, fun k hk h => ?_⟩ <;>
  · rcases h with h | ⟨h, h'⟩
    all_goals simp [atI, State.addrI, State.setI] at *
    all_goals omega

theorem witness_GlyphTableNeverChanges : 0x04F ≤ 0x04F ∧ step (rom 0xF255) = .next (stepped (rom 0xF255)) :=
  ⟨Nat.le_refl _, rfl⟩

theorem witness_MemoryWriters :
    let s := (atI 0xFFD).setV 0 0xFF
    exec (.ldBVx 0) s = .next (after (.ldBVx 0) s) ∧ (after (.ldBVx 0) s).readByte 0xFFF ≠ s.readByte 0xFFF ∧
      exec (.ldMemVx 0) s = .next (after (.ldMemVx 0) s) ∧ (after (.ldMemVx 0) s).readByte 0xFFD ≠ s.readByte 0xFFD :=
  ⟨exec_after _ _, by decide +kernel, exec_after _ _, by decide +kernel⟩

theorem witness_EqualMemoriesAreEqualData :
    let g := Config.defaultGlyphRom
    let m := Memory.write g (Memory.write g [] 0xFFF 5) 0 5
    Memory.wf g [(0x000, 5), (0xFFF, 5)] = true ∧ Memory.wf g m = true ∧
      ∀ a, a < 0x1000 → Memory.read g [(0x000, 5), (0xFFF, 5)] a = Memory.read g m a :=
  ⟨by decide, by decide, fun _ _ => rfl⟩

theorem witness_DrawXorsSprite : (15 : Nibble) ≠ 0 ∧ (atI 0xFF1).addrI + (15 : Nibble).toNat ≤ 0x1000 ∧
    0x1000 < (atI 0xFF2).addrI + (15 : Nibble).toNat ∧ 0x1000 < (atI 0x1000).addrI + (1 : Nibble).toNat ∧
    SpriteCovers (atI 0) 0 1 5 0 0 ∧ ((atI 0).pixel 0 0 = false) :=
  ⟨by decide, by decide +kernel, by decide +kernel, by decide +kernel,
    ⟨0, 0, by decide, by decide, by decide +kernel, by decide +kernel, by decide +kernel⟩, by decide +kernel⟩

/-- No row from any I; a sprite over pixels that are on. -/
theorem witness_DrawXorsSprite_collision : (0 : Nibble) = 0 ∧ (atI 0xFFFF).addrI = 0xFFFF ∧
    SpriteCovers (after (.drw 0 1 5) (atI 0)) 0 1 5 4 3 ∧ (after (.drw 0 1 5) (atI 0)).pixel 4 3 = true :=
  ⟨rfl, by decide +kernel, ⟨4, 3, by decide, by decide, by decide +kernel, by decide +kernel, by decide +kernel⟩,
    by decide +kernel⟩

theorem witness_DrawTwiceRestores :
    let s := atI 0
    let t := after (.drw 0 1 5) s
    (0 : Reg) ≠ 15 ∧ (1 : Reg) ≠ 15 ∧ s.addrI + (5 : Nibble).toNat ≤ 0x1000 ∧ exec (.drw 0 1 5) s = .next t ∧
      exec (.drw 0 1 5) t = .next (after (.drw 0 1 5) t) ∧ (after (.drw 0 1 5) t).getV 15 = 1 :=
  ⟨by decide, by decide, by decide +kernel, exec_after _ _, exec_after _ _, by decide +kernel⟩

theorem witness_DisplayWriters :
    let s : State := { rom 0 with drawRequested := true }
    exec (.jp 0x300) s = .next (after (.jp 0x300) s) ∧ s.drawRequested = true ∧ Instr.jp 0x300 ≠ .cls ∧
      ∀ x y n, Instr.jp 0x300 ≠ .drw x y n := ⟨exec_after _ _, rfl, by decide, fun _ _ _ => by simp⟩

theorem witness_KeySkips : (((rom 0).setV 5 15).getV 5).toNat ≤ 15 ∧ 15 < (((rom 0).setV 5 16).getV 5).toNat := by
  decide +kernel

theorem witness_TimerMoves : exec (.ldSTVx 1) (rom 0) = .next (after (.ldSTVx 1) (rom 0)) ∧
    (∀ x, Instr.ldSTVx 1 ≠ .ldDTVx x) ∧ exec (.ldDTVx 1) (rom 0) = .next (after (.ldDTVx 1) (rom 0)) ∧
    ∀ x, Instr.ldDTVx 1 ≠ .ldSTVx x := ⟨exec_after _ _, fun _ => by simp, exec_after _ _, fun _ => by simp⟩

theorem witness_KeyWaitTakesLowestKey : (rom 0).key = 0 ∧
    ({ rom 0 with key := 0x8001 } : State).key.getLsbD (0 : Fin 16).val = true ∧
    ({ rom 0 with key := 0x8000 } : State).key.getLsbD (15 : Fin 16).val = true ∧
    ∀ j, j < 15 → ({ rom 0 with key := 0x8000 } : State).key.getLsbD j = false := by decide +kernel

theorem witness_TimersDropEveryNCycles : 1 ≤ 1 ∧ (rom 0).cyc = 0 ∧ (rom 0).pauseReq.driver ≠ .running ∧
    (rom 0).quitReq.driver ≠ .running := by decide +kernel

theorem witness_FetchIsBigEndian : 0xFFE + 1 ≤ 0xFFF ∧ 0xFFF < 0x1000 ∧ 0xFFF = 0xFFF := by decide

theorem witness_CycleRunsInOrder : 0xFFE < pastEnd.pc.toNat ∧
    ((atEnd 0x0123).pc.toNat ≤ 0xFFE ∧ decodeWord (atEnd 0x0123).wordAtPC = .error (.decodeFailure 0x0123)) ∧
    ((atEnd 0x6A7F).pc.toNat ≤ 0xFFE ∧ decodeWord (atEnd 0x6A7F).wordAtPC = .ok (.ldImm 0xA 0x7F)) := by decide +kernel

/-- At the fetch, at the decoder and in an instruction. -/
theorem witness_ErrorsArePrecise :
    (pastEnd.driver = .running ∧ pastEnd.err = none ∧ runCycle 3 ⟨1, 2⟩ pastEnd = .next (ran 3 ⟨1, 2⟩ pastEnd) ∧
      (ran 3 ⟨1, 2⟩ pastEnd).err ≠ none ∧ 0xFFE < pastEnd.pc.toNat) ∧
    ((atEnd 0x0123).driver = .running ∧ (atEnd 0x0123).err = none ∧
      runCycle 3 ⟨1, 2⟩ (atEnd 0x0123) = .next (ran 3 ⟨1, 2⟩ (atEnd 0x0123)) ∧ (ran 3 ⟨1, 2⟩ (atEnd 0x0123)).err ≠ none ∧
      (atEnd 0x0123).pc.toNat ≤ 0xFFE) ∧
    (runCycle 3 ⟨1, 2⟩ (atEnd 0x00EE) = .next (ran 3 ⟨1, 2⟩ (atEnd 0x00EE)) ∧ (ran 3 ⟨1, 2⟩ (atEnd 0x00EE)).err ≠ none) :=
  ⟨⟨rfl, rfl, rfl, by decide +kernel, by decide⟩, ⟨rfl, rfl, rfl, by decide +kernel, by decide⟩, rfl, by decide +kernel⟩

theorem witness_ErrorRecordContents :
    (pastEnd.err = none ∧ runCycle 3 ⟨1, 2⟩ pastEnd = .next (ran 3 ⟨1, 2⟩ pastEnd) ∧
      (ran 3 ⟨1, 2⟩ pastEnd).err = some ⟨.addressRange, 0xFFF, 0, 0x1000, .fetch⟩) ∧
    ((atEnd 0x00EE).err = none ∧ runCycle 3 ⟨1, 2⟩ (atEnd 0x00EE) = .next (ran 3 ⟨1, 2⟩ (atEnd 0x00EE)) ∧
      (ran 3 ⟨1, 2⟩ (atEnd 0x00EE)).err = some ⟨.stackUnderflow, 0xFFE, 0x00EE, 0, .none⟩) :=
  ⟨⟨rfl, rfl, by decide +kernel⟩, rfl, rfl, by decide +kernel⟩

/-- One instruction and state for each of the six errors an instruction can raise. -/
theorem witness_ErrorsByInstruction :
    (errOf (after (.call 0) { rom 0 with sp := 16 }) = some (.stackOverflow, 16, .none)) ∧
    errOf (after .ret (rom 0)) = some (.stackUnderflow, 0, .none) ∧
    errOf (after (.ldVxMem 15) (atI 0xFF1)) = some (.addressRange, 0x1000, .read) ∧
    errOf (after (.ldBVx 0) (atI 0x04F)) = some (.glyphWrite, 0x04F, .none) ∧
    errOf (after (.sknp 5) ((rom 0).setV 5 16)) = some (.keyIndexRange, 16, .none) ∧
    errOf (after (.addIVx 2) ((atI 0xFFF0).setV 2 0x10)) = some (.iOverflow, 0xFFF0, .none) ∧ (rom 0).err = none := by
  decide +kernel

theorem witness_StoredWordIsFetchedNext :
    let s : State := { atI 0xFFE with pc := 0xFFC }
    Memory.wf s.glyphRom s.mem = true ∧ s.driver = .running ∧ 1 ≤ (1 : Reg).toNat ∧ s.pc.toNat ≤ 0xFFC ∧
      s.addrI = s.pc.toNat + 2 ∧ exec (.ldMemVx 1) s = .next (after (.ldMemVx 1) s) ∧
      (after (.ldMemVx 1) s).driver = .running :=
  ⟨by decide +kernel, rfl, by decide, by decide, by decide +kernel, exec_after _ _, by decide +kernel⟩

theorem witness_TraceShowsCompletedCycles :
    ((atEnd 0x6A7F).driver = .running ∧ runCycle 3 ⟨1, 2⟩ (atEnd 0x6A7F) = .next (ran 3 ⟨1, 2⟩ (atEnd 0x6A7F)) ∧
      (ran 3 ⟨1, 2⟩ (atEnd 0x6A7F)).driver = .running) ∧
    (pastEnd.driver = .running ∧ runCycle 3 ⟨1, 2⟩ pastEnd = .next (ran 3 ⟨1, 2⟩ pastEnd) ∧
      (ran 3 ⟨1, 2⟩ pastEnd).driver ≠ .running) :=
  ⟨⟨rfl, rfl, by decide +kernel⟩, rfl, rfl, by decide +kernel⟩

/-- Stopped with a draw_ack, without one and with no gap to come; Paused with a cycle request only, with an entry that sends
nothing, and with no gap to come. -/
theorem witness_IdleStatesHoldEverything :
    let acked : State := { (rom 0).quitReq with drawRequested := true, host := [⟨false, true, [.resume], true, some ⟨1, 2⟩⟩] }
    let held : State := { acked with host := [⟨true, true, [.resume], false, some ⟨1, 2⟩⟩] }
    let wait : State := { (rom 0).pauseReq with host := [.plainCycle ⟨1, 2⟩] }
    let idle : State := { (rom 0).pauseReq with host := [⟨false, false, [], false, none⟩] }
    (step acked = .next (stepped acked) ∧ acked.driver = .stopped ∧ (stepped acked).drawRequested = false) ∧
      (step held = .next (stepped held) ∧ held.driver = .stopped ∧ (stepped held).drawRequested = true) ∧
      (step (rom 0).quitReq = .next (stepped (rom 0).quitReq) ∧ (rom 0).quitReq.driver = .stopped ∧ (rom 0).quitReq.host = []) ∧
      (step wait = .next (stepped wait) ∧ wait.driver = .paused ∧
        wait.nextGap = some (⟨false, false, [], false, some ⟨1, 2⟩⟩, [])) ∧
      (step idle = .next (stepped idle) ∧ idle.driver = .paused ∧ idle.nextGap = some (⟨false, false, [], false, none⟩, [])) ∧
      (step (rom 0).pauseReq = .next (stepped (rom 0).pauseReq) ∧ (rom 0).pauseReq.nextGap = none) :=
  ⟨⟨rfl, rfl, rfl⟩, ⟨rfl, rfl, rfl⟩, ⟨rfl, rfl, rfl⟩, ⟨rfl, rfl, rfl⟩, ⟨rfl, rfl, rfl⟩, rfl, rfl⟩

theorem witness_DriverTransitions : (rom 0).driver = .running ∧ (rom 0).pauseReq.driver = .paused ∧
    (rom 0).pauseReq.driver ≠ .stopped ∧ (rom 0).quitReq.driver = .stopped := by decide +kernel

theorem witness_HostActionsInOrder : (⟨false, false, [.pause], false, none⟩ : HostGap).cycle = none ∧
    (rom 0).driver ≠ .stopped ∧ (rom 0).pauseReq.driver ≠ .stopped := by decide +kernel

theorem witness_ResetClearsVolatileState : (rom 0).quitReq.driver = .stopped ∧ (rom 0).pauseReq.driver ≠ .stopped := by
  decide +kernel

theorem witness_InitialiseResult : (List.replicate 3584 (7 : Byte)).length ≤ 3584 ∧
    3584 < (List.replicate 3585 (7 : Byte)).length := by
  rw [List.length_replicate, List.length_replicate]; decide

theorem witness_StepRunsDecodedInstruction_default :
    let s := atEnd 0x6A7F
    s.host = [] ∧ s.driver = .running ∧ s.pc.toNat ≤ 0xFFE ∧ decodeWord s.wordAtPC = .ok (.ldImm 0xA 0x7F) := by
  decide +kernel

/-- A gap that resumes a Paused block and requests a cycle. -/
theorem witness_StepRunsDecodedInstruction_scripted :
    let g : HostGap := ⟨false, false, [.resume], true, some ⟨1, 2⟩⟩
    let s : State := { (atEnd 0x6A7F).pauseReq with host := [g] }
    let u := ({ s with host := [] } : State).gapActions g
    s.host = [g] ∧ g.cycle = some ⟨1, 2⟩ ∧ u.driver = .running ∧ u.pc.toNat ≤ 0xFFE ∧
      decodeWord u.wordAtPC = .ok (.ldImm 0xA 0x7F) := by decide +kernel

/-- A cycle whose fetch fails and one whose word does not decode, with an empty script and with a request. -/
theorem witness_StepRunsDecodedInstruction_errors :
    let g : HostGap := ⟨false, false, [.resume], true, some ⟨1, 2⟩⟩
    (pastEnd.host = [] ∧ pastEnd.driver = .running ∧ 0xFFE < pastEnd.pc.toNat) ∧
      ((atEnd 0x0123).host = [] ∧ (atEnd 0x0123).driver = .running ∧
        decodeWord (atEnd 0x0123).wordAtPC = .error (.decodeFailure 0x0123)) ∧
      (({ pastEnd.pauseReq with host := [g] } : State).host = g :: [] ∧ g.cycle = some ⟨1, 2⟩ ∧
        (({ pastEnd.pauseReq with host := [] } : State).gapActions g).driver = .running) := by decide +kernel

/-- A pause before a cycle request, which then runs no cycle, and a quit with no cycle request after it. -/
theorem witness_StepRunsDecodedInstruction_no_cycle :
    let p : HostGap := ⟨false, false, [.pause], false, some ⟨1, 2⟩⟩
    let q : HostGap := ⟨true, false, [], false, none⟩
    (({ rom 0 with host := [p] } : State).host = p :: [] ∧ ((rom 0).gapActions p).driver ≠ .running ∧ p.cycle ≠ none) ∧
      (({ rom 0 with host := [q] } : State).host = q :: [] ∧ q.cycle = none) := by decide +kernel

theorem witness_EveryStepAnswersNext : (rom 0).pauseReq.driver ≠ .running ∧ (rom 0).pauseReq.host = [] := by
  decide +kernel

/-- A state waiting at an Fx0A, and the step from it. -/
theorem witness_StepKeepsInv :
    let s : State := { rom 0xF30A with awaitingKey := true, host := [.plainCycle ⟨0, 0⟩] }
    s.Inv ∧ step s = .next (stepped s) := by
  refine ⟨⟨by decide +kernel, ?_, by decide +kernel, by decide +kernel, Nat.succ_pos _, fun h => absurd rfl h,
    fun _ => ⟨by decide +kernel, 3, by decide +kernel⟩⟩, rfl⟩
  decide +kernel

end Sys2Proof.Tests
end

section
/-! SUPPORT. What an executed instruction leaves behind, said once for every instruction (`exec_ending`): the shapes of
the resulting state, each with what the registers, the display and the timers may have become. -/

namespace Sys2Proof.Machine

/-- The register file `v` differs from that of `s` only in registers the instruction writes (10_state.md R33). -/
def KeepsOthers (i : Instr) (s : State) (v : Vector Byte 16) : Prop :=
  ∀ r, writesReg i r = false → ({ s with v := v } : State).getV r = s.getV r

theorem KeepsOthers.refl (i : Instr) (s : State) : KeepsOthers i s s.v := fun _ _ => rfl

theorem keepsOthers_setV {i : Instr} {x : Reg} (hx : writesReg i x = true) (s : State) (b : Byte) :
    KeepsOthers i s (s.setV x b).v := by
  intro r hr
  have hne : r ≠ x := by rintro rfl; rw [hx] at hr; cases hr
  exact s.getV_setV_ne x r b hne

theorem keepsOthers_setVFlag {i : Instr} {x : Reg} (hx : writesReg i x = true) (hf : writesReg i regVF = true)
    (s : State) (b f : Byte) : KeepsOthers i s (s.setVFlag x b f).v := fun r hr =>
  (keepsOthers_setV hf (s.setV x b) f r hr).trans (keepsOthers_setV hx s b r hr)

theorem keepsOthers_loadRegs (x : Reg) (s : State) (a : Nat) : KeepsOthers (.ldVxMem x) s (s.loadRegs a x).v := by
  intro r hr
  have hgt : ¬ r.toNat ≤ x.toNat := by simpa [writesReg] using hr
  exact (s.getV_loadRegs a x r).trans (if_neg hgt)

/-- The states an instruction can end in (60_exceptions.md R303, 41_control_flow.md R160-R164, 40_display.md R144, R145,
44_keys_timers.md R264-R267). -/
inductive Ending (i : Instr) (s : State) : State → Prop
  | raised (e : BlockError) : Ending i s (s.raise e)
  | jumped (a : Word) (ha : a.toNat ≤ 0x10FE) : Ending i s (s.setPC a)
  | skipped (c : Bool) : Ending i s (s.skipIf c)
  | returned (j : Fin 16) (k : Fin 17) : Ending i s { s with sp := k, pc := s.stackAt j }
  | called (st : Vector Word 16) (k : Fin 17) (nnn : Addr12) :
      Ending i s { s with stack := st, sp := k, pc := absoluteAddr nnn }
  | registers (v : Vector Byte 16) (a : Word) (hv : KeepsOthers i s v) :
      Ending i s ({ s with v := v, regI := a } : State).advance
  | stored (m : Memory) (a : Word) : Ending i s ({ s with mem := m, regI := a } : State).advance
  | drawn (v : Vector Byte 16) (fb : Vector (BitVec 64) 32) (hv : KeepsOthers i s v)
      (hi : i = .cls ∨ ∃ x y n, i = .drw x y n) :
      Ending i s ({ s with v := v, fb := fb, drawRequested := true } : State).advance
  | delaySet (x : Reg) (hi : i = .ldDTVx x) (b : Byte) : Ending i s ({ s with dt := b } : State).advance
  | soundSet (x : Reg) (hi : i = .ldSTVx x) (b : Byte) : Ending i s ({ s with st := b } : State).advance
  | waiting : Ending i s { s with awaitingKey := true }
  | keyTaken (v : Vector Byte 16) (hv : KeepsOthers i s v) :
      Ending i s ({ s with v := v, awaitingKey := false } : State).advance

namespace Ending

variable {i : Instr} {s : State}

/-- A register write and the advance. -/
theorem of_setV {x : Reg} (hx : writesReg i x = true) (b : Byte) : Ending i s (s.setV x b).advance :=
  .registers _ s.regI (keepsOthers_setV hx s b)

/-- A register write, the flag and the advance. -/
theorem of_setVFlag {x : Reg} (hx : writesReg i x = true) (hf : writesReg i regVF = true) (b f : Byte) :
    Ending i s (s.setVFlag x b f).advance := .registers _ s.regI (keepsOthers_setVFlag hx hf s b f)

/-- A write of I and the advance. -/
theorem of_setI (a : Word) : Ending i s (s.setI a).advance := .registers s.v a (.refl i s)

/-- An instruction that may raise an error ends as it does without one, or raises it. -/
theorem of_raiseOr {t : State} (h : Ending i s t) (e? : Option BlockError) : Ending i s (s.raiseOr e? t) := by
  cases e? with
  | none => exact h
  | some e => exact .raised e

end Ending

theorem absoluteAddr_toNat (nnn : Addr12) : (absoluteAddr nnn).toNat = nnn.toNat :=
  BitVec.toNat_setWidth_of_le (by decide)

/-- The target of Bnnn is the exact sum (R169). -/
theorem indexedTarget_toNat (s : State) (nnn : Addr12) :
    (indexedTarget s nnn).toNat = nnn.toNat + (s.getV regV0).toNat := by
  have hn := nnn.isLt
  have hv := (s.getV regV0).isLt
  simp only [indexedTarget, BitVec.toNat_add, BitVec.toNat_setWidth]
  omega

/-- 00EE pops its return address, or raises (R162). -/
theorem ending_of_execRet {i : Instr} {s t : State} (h : execRet s = .next t) : Ending i s t := by
  obtain rfl := next_inj h
  by_cases hs : 0 < s.sp.val
  · rw [s.pop?_of_pos hs]
    exact .returned ⟨s.sp.val - 1, by omega⟩ ⟨s.sp.val - 1, by omega⟩
  · rw [s.pop?_of_empty (by omega)]
    exact .raised _

/-- 2nnn pushes and jumps, or raises (R164). -/
theorem ending_of_execCall {i : Instr} {nnn : Addr12} {s t : State} (h : execCall nnn s = .next t) :
    Ending i s t := by
  obtain rfl := next_inj h
  by_cases hs : s.sp.val < 16
  · rw [s.push?_of_lt _ hs]
    exact .called (s.stack.set s.sp.val (s.pc + 2) hs) ⟨s.sp.val + 1, by omega⟩ nnn
  · rw [s.push?_of_full _ (by omega)]
    exact .raised _

/-- Every executed instruction ends in one of the states of `Ending`. -/
theorem exec_ending {i : Instr} {s t : State} (h : exec i s = .next t) : Ending i s t := by
  cases i
  case cls => obtain rfl := next_inj h; exact .drawn s.v _ (.refl _ s) (.inl rfl)
  case ret => exact ending_of_execRet h
  case jp nnn =>
    obtain rfl := next_inj h
    exact .jumped _ (by have := nnn.isLt; rw [absoluteAddr_toNat]; omega)
  case jpV0 nnn =>
    obtain rfl := next_inj h
    exact .jumped _ (by
      have := nnn.isLt
      have := (s.getV regV0).isLt
      rw [indexedTarget_toNat]
      omega)
  case call nnn => exact ending_of_execCall h
  case seImm | sneImm | seReg | sneReg => obtain rfl := next_inj h; exact .skipped _
  case skp | sknp => obtain rfl := next_inj h; exact .of_raiseOr (.skipped _) _
  case ldImm | addImm | ldReg | orReg | andReg | xorReg | rnd | ldVxDT =>
    obtain rfl := next_inj h
    exact .of_setV (by simp [writesReg]) _
  case addReg | sub | shr | subn | shl =>
    obtain rfl := next_inj h
    exact .of_setVFlag (by simp [writesReg]) (by simp [writesReg]) _ _
  case ldI | ldFVx => obtain rfl := next_inj h; exact .of_setI _
  case addIVx => obtain rfl := next_inj h; exact .of_raiseOr (.of_setI _) _
  case drw x y n =>
    obtain rfl := next_inj h
    exact .of_raiseOr (.drawn _ _ (keepsOthers_setV (by simp [writesReg]) s _) (.inr ⟨x, y, n, rfl⟩)) _
  case ldDTVx x => obtain rfl := next_inj h; exact .delaySet x rfl _
  case ldSTVx x => obtain rfl := next_inj h; exact .soundSet x rfl _
  case ldBVx x => obtain rfl := next_inj h; exact .of_raiseOr (.stored _ s.regI) _
  case ldMemVx x => obtain rfl := next_inj h; exact .of_raiseOr (.stored _ _) _
  case ldVxMem x =>
    obtain rfl := next_inj h
    rw [s.loadRegs_eq]
    exact .of_raiseOr (.registers _ _ (keepsOthers_loadRegs x s _)) _
  case ldVxK x =>
    obtain rfl := next_inj h
    cases s.lowestKey? with
    | none => exact .waiting
    | some k => exact .keyTaken _ (keepsOthers_setV (by simp [writesReg]) s _)

end Sys2Proof.Machine
end

section
/-! SUPPORT. The invariant of the block: it holds right after reset and every step keeps it. -/

namespace Sys2Proof.Machine

/-! ## States that differ outside the invariant's fields -/

theorem State.atKeyWait.congr {s t : State} (h : s.atKeyWait) (hmem : t.mem = s.mem) (hg : t.glyphRom = s.glyphRom)
    (hpc : t.pc = s.pc) : t.atKeyWait := by
  simpa only [State.atKeyWait, State.wordAtPC, State.readByte, hmem, hg, hpc] using h

/-- The invariant looks at memory, GLYPH_ROM, PC, the stack, cyc, awaiting_key, and at err and the driver together. -/
theorem State.Inv.congr {s t : State} (h : s.Inv) (hmem : t.mem = s.mem) (hg : t.glyphRom = s.glyphRom)
    (hpc : t.pc = s.pc) (hst : t.stack = s.stack) (hcyc : t.cyc = s.cyc) (haw : t.awaitingKey = s.awaitingKey)
    (herr : t.err ≠ none → t.driver = .stopped) : t.Inv where
  memCanonical := by rw [hmem, hg]; exact h.memCanonical
  glyphsIntact a ha := by rw [s.readByte_congr t hmem hg, hg]; exact h.glyphsIntact a ha
  pcBound := by rw [hpc]; exact h.pcBound
  stackBound j := by rw [s.stackAt_congr t hst]; exact h.stackBound j
  cycBound := by rw [hcyc]; exact h.cycBound
  errStopped := herr
  waitsAtFx0A hw := (h.waitsAtFx0A (haw ▸ hw)).congr hmem hg hpc

/-- An error with the block stopped keeps the invariant. -/
theorem State.Inv.raiseWith {s : State} (h : s.Inv) (w : Word) (e : BlockError) : (s.raiseWith w e).Inv :=
  h.congr rfl rfl rfl rfl rfl rfl fun _ => rfl

theorem State.Inv.err_eq_none {s : State} (h : s.Inv) (hd : s.driver ≠ .stopped) : s.err = none := by
  by_contra he
  exact hd (h.errStopped he)

/-! ## Start states (R51, R361) -/

/-- A state with its volatile fields at their start values meets the invariant if its memory and its error do. -/
theorem State.inv_of_startValues {s : State} (hm : Memory.wf s.glyphRom s.mem = true)
    (hgl : ∀ (a : Nat) (h : a < Config.glyphSize), s.readByte a = s.glyphRom[a]) (hpc : s.pc = 0x200)
    (hst : s.stack = Vector.replicate 16 0) (hcyc : s.cyc = 0) (haw : s.awaitingKey = false)
    (herr : s.err ≠ none → s.driver = .stopped) : s.Inv where
  memCanonical := hm
  glyphsIntact := hgl
  pcBound := by rw [hpc]; decide
  stackBound j := by simp [State.stackAt, hst]
  cycBound := hcyc ▸ timerDivisor_pos
  errStopped := herr
  waitsAtFx0A hw := by rw [haw] at hw; cases hw

/-- Memory no store has touched has the glyph table in place. -/
theorem State.readByte_glyph_of_empty {s : State} (hm : s.mem = []) (a : Nat) (h : a < Config.glyphSize) :
    s.readByte a = s.glyphRom[a] := by
  rw [State.readByte, hm, Memory.read_nil, Memory.background_glyph h]

theorem State.inv_reset : State.reset.Inv :=
  State.inv_of_startValues rfl (State.readByte_glyph_of_empty rfl) rfl rfl rfl rfl fun h => absurd rfl h

/-! ## The host's gap (R310, R315, R361) -/

theorem State.Inv.resetReq {s : State} (h : s.Inv) : s.resetReq.Inv := by
  by_cases hd : s.driver = .stopped
  · rwa [State.resetReq, if_pos hd]
  · rw [State.resetReq, if_neg hd]
    exact State.inv_of_startValues h.memCanonical h.glyphsIntact rfl rfl rfl rfl
      fun he => absurd (h.err_eq_none hd) he

/-- A pause or resume request moves the driver only out of Running or Paused, where there is no error. -/
theorem State.Inv.driverReq {s : State} (h : s.Inv) (r : DriverReq) : (s.driverReq r).Inv := by
  have hmove {d d' : Driver} (hd : s.driver = d') (hne : d' ≠ .stopped) : ({ s with driver := d } : State).Inv :=
    h.congr rfl rfl rfl rfl rfl rfl fun he => absurd (h.err_eq_none (hd ▸ hne)) he
  cases r with
  | pause =>
    simp only [State.driverReq, State.pauseReq]
    split
    · next hd => exact hmove hd (by decide)
    · exact h
  | resume =>
    simp only [State.driverReq, State.resumeReq]
    split
    · next hd => exact hmove hd (by decide)
    · exact h

theorem State.Inv.gapActions {s : State} (h : s.Inv) (g : HostGap) : (s.gapActions g).Inv :=
  State.gapActions_keeps s g (fun _ ht => ht.congr rfl rfl rfl rfl rfl rfl fun _ => rfl) (fun _ ht => ht.resetReq)
    (fun _ r ht => ht.driverReq r) (fun _ ht => ht.congr rfl rfl rfl rfl rfl rfl ht.errStopped) h

/-! ## One instruction -/

/-- Stores at or above 0x050 leave the glyph table alone (R76). -/
theorem Memory.read_glyph_writeBytes {g : Config.GlyphRom} (m : Memory) {a c : Nat} (ha : 0x50 ≤ a)
    (hc : c < Config.glyphSize) (bs : List Byte) :
    Memory.read g (Memory.writeBytes g m a bs) c = Memory.read g m c :=
  Memory.read_writeBytes_outside m a c bs (.inl (Nat.lt_of_lt_of_le hc ha))

/-- An executed instruction leaves memory alone, or stores bytes inside 0x050-0xFFF (R75, R76). -/
theorem exec_mem_range {i : Instr} {s t : State} (h : exec i s = .next t) :
    t.mem = s.mem ∨ ∃ a bs, t.mem = Memory.writeBytes s.glyphRom s.mem a bs ∧ 0x50 ≤ a ∧
      a + bs.length ≤ Config.memSize := by
  rcases exec_mem h with hm | ⟨x, -, hm, hlo, hhi⟩ | ⟨x, -, hm, hlo, hhi⟩
  · exact .inl hm
  · exact .inr ⟨_, _, hm, hlo, hhi⟩
  · exact .inr ⟨_, _, hm, hlo, by rwa [State.regBytes_length]⟩

theorem exec_memCanonical {i : Instr} {s t : State} (h : exec i s = .next t)
    (hs : Memory.wf s.glyphRom s.mem = true) : Memory.wf t.glyphRom t.mem = true := by
  rw [exec_glyphRom h]
  rcases exec_mem_range h with hm | ⟨a, bs, hm, -, hhi⟩
  · rwa [hm]
  · rw [hm]
    exact Memory.wf_writeBytes hs a bs hhi

theorem exec_readByte_glyph {i : Instr} {s t : State} (h : exec i s = .next t) {c : Nat} (hc : c < Config.glyphSize) :
    t.readByte c = s.readByte c := by
  rcases exec_mem_range h with hm | ⟨a, bs, hm, hlo, -⟩
  · exact s.readByte_congr t hm (exec_glyphRom h) c
  · rw [State.readByte, State.readByte, hm, exec_glyphRom h, Memory.read_glyph_writeBytes s.mem hlo hc]

/-- PC after a fetched instruction is at most 0x10FE, the farthest target of Bnnn (R160, R169). -/
theorem exec_pc_le {i : Instr} {s t : State} (h : exec i s = .next t) (hpc : s.pc.toNat ≤ 0xFFE)
    (hst : ∀ j, (s.stackAt j).toNat ≤ 0x1000) : t.pc.toNat ≤ 0x10FE := by
  have hadd : (s.pc + 2).toNat ≤ 0x10FE := by bv_omega
  cases exec_ending h with
  | raised | waiting => exact hpc.trans (by decide)
  | jumped a ha => exact ha
  | skipped c => rw [State.skipIf_pc]; split <;> bv_omega
  | returned j k => exact (hst j).trans (by decide)
  | called st k nnn => exact (absoluteAddr_toNat nnn).trans_le (by have := nnn.isLt; omega)
  | registers | stored | drawn | delaySet | soundSet | keyTaken => exact hadd

/-- The address CALL pushes is at most 0x1000 (R164). -/
theorem exec_stackAt_le {i : Instr} {s t : State} (h : exec i s = .next t) (hpc : s.pc.toNat ≤ 0xFFE)
    (hst : ∀ j, (s.stackAt j).toNat ≤ 0x1000) (j : Fin 16) : (t.stackAt j).toNat ≤ 0x1000 := by
  rcases exec_stack h with hk | ⟨nnn, -, hs, hk⟩
  · rw [s.stackAt_congr t hk]
    exact hst j
  · have hadd : (s.pc + 2).toNat ≤ 0x1000 := by bv_omega
    have hj : t.stackAt j = if s.sp.val = j.val then s.pc + 2 else s.stackAt j := by
      simp only [State.stackAt, hk, Fin.getElem_fin, Vector.getElem_set]
    rw [hj]
    split
    · exact hadd
    · exact hst j

/-- An Fx0A that goes on waiting leaves PC and memory alone (R267). -/
theorem execLdVxK_waiting {x : Reg} {s t : State} (h : execLdVxK x s = .next t) (hw : t.awaitingKey = true) :
    t.pc = s.pc ∧ t.mem = s.mem := by
  obtain rfl := next_inj h
  revert hw
  cases s.lowestKey? with
  | none => exact fun _ => ⟨rfl, rfl⟩
  | some k => exact fun hw => absurd hw Bool.false_ne_true

/-- The instruction decoded at PC leaves awaiting_key set only at an Fx0A: while the block waits, that Fx0A is the one
instruction that runs (R52). -/
theorem exec_atKeyWait {i : Instr} {s t : State} (h : exec i s = .next t) (hpc : s.pc.toNat ≤ 0xFFE)
    (hd : decodeWord s.wordAtPC = .ok i) (hs : s.awaitingKey = true → s.atKeyWait) (hw : t.awaitingKey = true) :
    t.atKeyWait := by
  have hi : ∃ x, i = .ldVxK x := by
    rcases exec_awaitingKey h with hk | ⟨x, rfl, -⟩
    · obtain ⟨-, x, hx⟩ := hs (hk ▸ hw)
      exact ⟨x, Except.ok.inj (hd.symm.trans hx)⟩
    · exact ⟨x, rfl⟩
  obtain ⟨x, rfl⟩ := hi
  obtain ⟨hpc', hmem⟩ := execLdVxK_waiting h hw
  exact State.atKeyWait.congr ⟨hpc, x, hd⟩ hmem (exec_glyphRom h) hpc'

/-- Executing the instruction at PC keeps the invariant. -/
theorem State.Inv.exec {i : Instr} {s t : State} (h : s.Inv) (hrun : s.driver = .running)
    (hpc : s.pc.toNat ≤ 0xFFE) (hd : decodeWord s.wordAtPC = .ok i) (hex : exec i s = .next t) : t.Inv where
  memCanonical := exec_memCanonical hex h.memCanonical
  glyphsIntact a ha := by rw [exec_readByte_glyph hex ha, h.glyphsIntact a ha, exec_glyphRom hex]
  pcBound := exec_pc_le hex hpc h.stackBound
  stackBound := exec_stackAt_le hex hpc h.stackBound
  cycBound := by
    rcases exec_driver_fields hex with ⟨e, rfl⟩ | ⟨-, -, hcyc, -⟩
    · exact h.cycBound
    · exact hcyc ▸ h.cycBound
  errStopped he := by
    rcases exec_driver_fields hex with ⟨e, rfl⟩ | ⟨-, -, -, -, herr, -⟩
    · rfl
    · exact absurd (herr.trans (h.err_eq_none (hrun ▸ by decide))) he
  waitsAtFx0A := exec_atKeyWait hex hpc hd h.waitsAtFx0A

/-! ## One cycle and one step -/

theorem State.Inv.finishCycle {s : State} (h : s.Inv) : (s.finishCycle Config.timerDivisor).Inv := by
  rcases s.finishCycle_cases Config.timerDivisor with ⟨-, he⟩ | ⟨-, he⟩ <;> rw [he]
  · exact { h with cycBound := s.timerStep_cyc_lt timerDivisor_pos h.cycBound }
  · exact h

theorem State.Inv.runCycle {s t : State} (h : s.Inv) (hrun : s.driver = .running) {inp : CycleInput}
    (ht : runCycle Config.timerDivisor inp s = .next t) : t.Inv := by
  obtain ⟨u, hu, hcases⟩ := runCycle_cases s Config.timerDivisor inp
  obtain rfl := next_inj (hu.symm.trans ht)
  have hsample : (s.sample inp).Inv := h.congr rfl rfl rfl rfl rfl rfl h.errStopped
  have hlatch (w : Word) : ({ s.sample inp with lastInstr := w } : State).Inv :=
    hsample.congr rfl rfl rfl rfl rfl rfl hsample.errStopped
  rcases hcases with ⟨-, rfl⟩ | ⟨hpc, w, rfl, ⟨d, -, rfl⟩ | ⟨i, u, hd, hex, rfl⟩⟩
  · exact hsample.raiseWith _ _
  · exact (hlatch _).raiseWith _ _
  · exact ((hlatch _).exec hrun hpc hd hex).finishCycle

theorem State.Inv.step {s t : State} (h : s.Inv) (ht : step s = .next t) : t.Inv := by
  have hhost (rest : List HostGap) : ({ s with host := rest } : State).Inv :=
    h.congr rfl rfl rfl rfl rfl rfl h.errStopped
  rcases stepWith_cases s Config.timerDivisor with
    ⟨g, rest, -, u, rfl, ⟨inp, -, hrun, he⟩ | ⟨-, he⟩⟩ | ⟨-, ⟨hrun, he⟩ | ⟨-, he⟩⟩
  · exact ((hhost rest).gapActions g).runCycle hrun (he.symm.trans ht)
  · obtain rfl := next_inj (he.symm.trans ht)
    exact (hhost rest).gapActions g
  · have hdraws : ({ s with draws := s.draws + 1 } : State).Inv := h.congr rfl rfl rfl rfl rfl rfl h.errStopped
    exact hdraws.runCycle hrun (he.symm.trans ht)
  · obtain rfl := next_inj (he.symm.trans ht)
    exact h

/-- Settles O59: every field has its start value. -/
theorem invHoldsAtReset : Obligations.InvHoldsAtReset := State.inv_reset

/-- Settles O60: the host's gap keeps the invariant, and so does the cycle that follows it. -/
theorem stepKeepsInv : Obligations.StepKeepsInv := fun _ _ => State.Inv.step

end Sys2Proof.Machine
end

section
/-! SUPPORT. What an instruction writes (10_state.md R33, R41-R43): the registers it names, the display and
draw_requested by 00E0 and Dxyn only, the timers by Fx15 and Fx18 only. Each is read off `exec_ending`. -/

namespace Sys2Proof.Machine

/-- Settles O15: the register file of every ending keeps the registers the instruction does not write. -/
theorem registerWriters : Obligations.RegisterWriters := by
  intro i s t r h hr
  cases exec_ending h with
  | registers v _ hv | drawn v _ hv | keyTaken v hv => exact hv r hr
  | raised | jumped | skipped | returned | called | stored | delaySet | soundSet | waiting => rfl

/-- Settles O37: only the ending of 00E0 and Dxyn touches the display, and it sets draw_requested. -/
theorem displayWriters : Obligations.DisplayWriters := by
  intro i s t h
  cases exec_ending h with
  | drawn v fb _ hi =>
    refine ⟨fun _ => rfl, fun hcls hdrw => ?_⟩
    rcases hi with rfl | ⟨x, y, n, rfl⟩
    · exact absurd rfl hcls
    · exact absurd rfl (hdrw x y n)
  | raised | jumped | skipped | returned | called | registers | stored | delaySet | soundSet | waiting | keyTaken =>
    exact ⟨id, fun _ _ => ⟨rfl, fun _ _ => rfl⟩⟩

/-- Only Fx15 writes DT, and only Fx18 writes ST (R41, R42). -/
theorem exec_timers {i : Instr} {s t : State} (h : exec i s = .next t) :
    ((∀ x, i ≠ .ldDTVx x) → t.dt = s.dt) ∧ ((∀ x, i ≠ .ldSTVx x) → t.st = s.st) := by
  cases exec_ending h with
  | delaySet x hi => exact ⟨fun hne => absurd hi (hne x), fun _ => rfl⟩
  | soundSet x hi => exact ⟨fun _ => rfl, fun hne => absurd hi (hne x)⟩
  | raised | jumped | skipped | returned | called | registers | stored | drawn | waiting | keyTaken =>
    exact ⟨fun _ => rfl, fun _ => rfl⟩

/-- A word of class XSUB in family 0xF decodes by its low byte (30_encoding.md R106). -/
theorem decodeWord_wordX_familyF {m : Word} {kk : Byte} (hm : m = 0xF#4 ++ 0#4 ++ kk) (x : Reg) :
    decodeWord (wordX m x) = decodeFamilyF (0xF#4 ++ x ++ kk) := by
  rw [hm, wordX_eq]
  simp [decodeWord]

/-- Writing timers and advancing changes no part but PC and the timers that get a new value. -/
theorem frame_setTimers_advance {l : List Part} {s : State} {d b : Byte} (hpc : .pc ∈ l)
    (hd : d = s.dt ∨ .delayTimer ∈ l) (hb : b = s.st ∨ .soundTimer ∈ l) :
    Frame l s ({ s with dt := d, st := b } : State).advance := by
  intro p hp
  cases p with
  | pc => exact absurd hpc hp
  | delayTimer => exact hd.resolve_right hp
  | soundTimer => exact hb.resolve_right hp
  | regs | memory | stack => exact fun _ => rfl
  | display => exact fun _ _ => rfl
  | host => exact ⟨rfl, rfl, rfl⟩
  | index | sp | keys | drawRequested | awaitingKey | driver | cyc | lastInstr | err | glyphRom => rfl

/-- Settles O40: the three moves by their meanings, every other instruction by `exec_timers`. -/
theorem timerMoves : Obligations.TimerMoves := by
  refine ⟨fun s x => ⟨?_, setsReg_of_exec rfl rfl, ?_, ⟨_, rfl, rfl, rfl, ?_⟩, ?_, ⟨_, rfl, rfl, rfl, ?_⟩⟩,
    fun i s t => exec_timers⟩
  · exact (decodeWord_wordX_familyF (kk := 0x07) rfl x).trans (by simp [decodeFamilyF])
  · exact (decodeWord_wordX_familyF (kk := 0x15) rfl x).trans (by simp [decodeFamilyF])
  · exact frame_setTimers_advance (by decide) (.inr (by decide)) (.inl rfl)
  · exact (decodeWord_wordX_familyF (kk := 0x18) rfl x).trans (by simp [decodeFamilyF])
  · exact frame_setTimers_advance (by decide) (.inl rfl) (.inr (by decide))

end Sys2Proof.Machine
end

section
/-! SUPPORT. What an instruction does not read: a register outside `readsReg` (10_state.md R33), and the bookkeeping
fields cyc, err, draw_requested, awaiting_key, last_instr and the driver state (R50, R52). Both follow from one lemma,
`exec_related`: a relation between states that every write of the meanings respects, and whose states agree on what the
instruction reads, holds of the results. -/

namespace Sys2Proof.Machine

/-! ## Executing an instruction in two related states -/

/-- Two states agree on everything the instruction may read. -/
structure SameReads (i : Instr) (s t : State) : Prop where
  regs     : ∀ q, readsReg i q = true → t.getV q = s.getV q
  mem      : t.mem = s.mem
  glyphRom : t.glyphRom = s.glyphRom
  regI     : t.regI = s.regI
  pc       : t.pc = s.pc
  stack    : t.stack = s.stack
  sp       : t.sp = s.sp
  dt       : t.dt = s.dt
  fb       : t.fb = s.fb
  key      : t.key = s.key
  rand     : t.rand = s.rand

/-- Making the same update to two related states leaves them related, for each update the meanings are made of. -/
structure Respected (R : State → State → Prop) : Prop where
  raise : ∀ {s t}, R s t → ∀ e, R (s.raise e) (t.raise e)
  advance : ∀ {s t}, R s t → R s.advance t.advance
  skipIf : ∀ {s t}, R s t → ∀ c, R (s.skipIf c) (t.skipIf c)
  setPC : ∀ {s t}, R s t → ∀ a, R (s.setPC a) (t.setPC a)
  setV : ∀ {s t}, R s t → ∀ x b, R (s.setV x b) (t.setV x b)
  setI : ∀ {s t}, R s t → ∀ a, R (s.setI a) (t.setI a)
  storeBytes : ∀ {s t}, R s t → ∀ a bs, R (s.storeBytes a bs) (t.storeBytes a bs)
  setStack : ∀ {s t}, R s t → ∀ k p, R { s with stack := k, sp := p } { t with stack := k, sp := p }
  setDisplay : ∀ {s t}, R s t → ∀ f,
    R { s with fb := f, drawRequested := true } { t with fb := f, drawRequested := true }
  setDelay : ∀ {s t}, R s t → ∀ b, R { s with dt := b } { t with dt := b }
  setSound : ∀ {s t}, R s t → ∀ b, R { s with st := b } { t with st := b }
  setAwaiting : ∀ {s t}, R s t → ∀ b, R { s with awaitingKey := b } { t with awaitingKey := b }

namespace SameReads

variable {i : Instr} {s t : State}

theorem addrI (h : SameReads i s t) : t.addrI = s.addrI := by rw [State.addrI, State.addrI, h.regI]

theorem readByte (h : SameReads i s t) (a : Nat) : t.readByte a = s.readByte a := s.readByte_congr t h.mem h.glyphRom a

theorem readBytes (h : SameReads i s t) (a n : Nat) : t.readBytes a n = s.readBytes a n := by
  simp only [State.readBytes, h.readByte]

theorem keyDown (h : SameReads i s t) (k : Nat) : t.keyDown k = s.keyDown k := by
  rw [State.keyDown, State.keyDown, h.key]

theorem lowestKey? (h : SameReads i s t) : t.lowestKey? = s.lowestKey? := by
  simp only [State.lowestKey?, h.keyDown]

/-- The bytes V[0..x] of an Fx55 (R235). -/
theorem regBytes {x : Reg} (h : SameReads (.ldMemVx x) s t) : t.regBytes x = s.regBytes x := by
  refine List.map_congr_left fun k hk => h.regs _ ?_
  have hk' : k < x.toNat + 1 := List.mem_range.1 hk
  have := x.isLt
  simp only [readsReg, BitVec.toNat_ofNat, decide_eq_true_eq]
  omega

theorem indexedTarget {nnn : Addr12} (h : SameReads (.jpV0 nnn) s t) : indexedTarget t nnn = indexedTarget s nnn := by
  rw [Machine.indexedTarget, Machine.indexedTarget, h.regs regV0 (by simp [readsReg])]

theorem advancedI (h : SameReads i s t) (x : Reg) : advancedI t x = advancedI s x := by
  rw [Machine.advancedI, Machine.advancedI, h.addrI]

theorem pop? (h : SameReads i s t) (hp : 0 < s.sp.val) :
    t.pop? = some (s.stack[s.sp.val - 1]'(by omega), { t with stack := s.stack, sp := ⟨s.sp.val - 1, by omega⟩ }) := by
  rw [t.pop?_of_pos (h.sp ▸ hp)]
  simp only [h.stack, h.sp]

theorem push? (h : SameReads i s t) (a : Word) (hp : s.sp.val < 16) :
    t.push? a = some { t with stack := s.stack.set s.sp.val a hp, sp := ⟨s.sp.val + 1, by omega⟩ } := by
  rw [t.push?_of_lt a (h.sp ▸ hp)]
  simp only [h.stack, h.sp]

end SameReads

namespace Respected

variable {R : State → State → Prop} {i : Instr} {s t s' t' : State} (hR : Respected R)
include hR

theorem setVFlag (h : R s t) (x : Reg) (b f : Byte) : R (s.setVFlag x b f) (t.setVFlag x b f) :=
  hR.setV (hR.setV h x b) regVF f

theorem raiseOr (h : R s t) (h' : R s' t') (e? : Option BlockError) : R (s.raiseOr e? s') (t.raiseOr e? t') := by
  cases e? with
  | none => exact h'
  | some e => exact hR.raise h e

theorem loadRegs (h : R s t) (hr : SameReads i s t) (a : Nat) (x : Reg) : R (s.loadRegs a x) (t.loadRegs a x) := by
  have hfold : ∀ (l : List Nat) (s' t' : State), R s' t' →
      R (l.foldl (fun u k => u.setV (BitVec.ofNat 4 k) (s.readByte (a + k))) s')
        (l.foldl (fun u k => u.setV (BitVec.ofNat 4 k) (s.readByte (a + k))) t') := by
    intro l
    induction l with
    | nil => exact fun _ _ h => h
    | cons k l ih => exact fun _ _ h => ih _ _ (hR.setV h _ _)
  simp only [State.loadRegs, hr.readByte]
  exact hfold _ s t h

theorem drawSprite {x y : Reg} {n : Nibble} (h : R s t) (hr : SameReads (.drw x y n) s t) :
    R (drawSprite s x y n) (drawSprite t x y n) := by
  have hx : spriteX t x = spriteX s x := by rw [spriteX, spriteX, hr.regs x (by simp [readsReg])]
  have hy : spriteY t y = spriteY s y := by rw [spriteY, spriteY, hr.regs y (by simp [readsReg])]
  simp only [Machine.drawSprite, hx, hy, hr.addrI, hr.readBytes, hr.fb]
  exact hR.setV (hR.setDisplay h _) regVF _

theorem execRet (h : R s t) (hr : SameReads i s t) (hs : execRet s = .next s') (ht : execRet t = .next t') :
    R s' t' := by
  obtain rfl := next_inj hs
  obtain rfl := next_inj ht
  by_cases hp : 0 < s.sp.val
  · rw [s.pop?_of_pos hp, hr.pop? hp]
    exact hR.setPC (hR.setStack h _ _) _
  · rw [s.pop?_of_empty (by omega), t.pop?_of_empty (by rw [hr.sp]; omega)]
    exact hR.raise h _

theorem execCall {nnn : Addr12} (h : R s t) (hr : SameReads i s t) (hs : execCall nnn s = .next s')
    (ht : execCall nnn t = .next t') : R s' t' := by
  obtain rfl := next_inj hs
  obtain rfl := next_inj ht
  by_cases hp : s.sp.val < 16
  · rw [s.push?_of_lt _ hp, hr.pc, hr.push? _ hp]
    exact hR.setPC (hR.setStack h _ _) _
  · rw [s.push?_of_full _ (by omega), t.push?_of_full _ (by rw [hr.sp]; omega)]
    exact hR.raise h _

theorem execLdVxK {x : Reg} (h : R s t) (hr : SameReads i s t) (hs : execLdVxK x s = .next s')
    (ht : execLdVxK x t = .next t') : R s' t' := by
  obtain rfl := next_inj hs
  obtain rfl := next_inj ht
  rw [hr.lowestKey?]
  cases s.lowestKey? with
  | none => exact hR.setAwaiting h true
  | some k => exact hR.advance (hR.setAwaiting (hR.setV h _ _) false)

end Respected

/-- Executing an instruction in two related states that agree on what it reads leaves related states. -/
theorem exec_related {R : State → State → Prop} (hR : Respected R) {i : Instr} {s t s' t' : State} (h : R s t)
    (hr : SameReads i s t) (hs : exec i s = .next s') (ht : exec i t = .next t') : R s' t' := by
  cases i
  case ret => exact hR.execRet h hr hs ht
  case call => exact hR.execCall h hr hs ht
  case ldVxK => exact hR.execLdVxK h hr hs ht
  all_goals
    obtain rfl := next_inj hs
    obtain rfl := next_inj ht
  case cls => exact hR.advance (hR.setDisplay h _)
  case jp => exact hR.setPC h _
  case jpV0 =>
    rw [hr.indexedTarget]
    exact hR.setPC h _
  case seImm x _ | sneImm x _ =>
    rw [hr.regs x (by simp [readsReg])]
    exact hR.skipIf h _
  case seReg x y | sneReg x y =>
    rw [hr.regs x (by simp [readsReg]), hr.regs y (by simp [readsReg])]
    exact hR.skipIf h _
  case ldImm => exact hR.advance (hR.setV h _ _)
  case addImm x _ =>
    rw [hr.regs x (by simp [readsReg])]
    exact hR.advance (hR.setV h _ _)
  case ldReg _ y =>
    rw [hr.regs y (by simp [readsReg])]
    exact hR.advance (hR.setV h _ _)
  case orReg x y | andReg x y | xorReg x y =>
    rw [hr.regs x (by simp [readsReg]), hr.regs y (by simp [readsReg])]
    exact hR.advance (hR.setV h _ _)
  case addReg x y | sub x y | subn x y =>
    rw [hr.regs x (by simp [readsReg]), hr.regs y (by simp [readsReg])]
    exact hR.advance (hR.setVFlag h _ _ _)
  case shr x _ | shl x _ =>
    rw [hr.regs x (by simp [readsReg])]
    exact hR.advance (hR.setVFlag h _ _ _)
  case rnd =>
    rw [hr.rand]
    exact hR.advance (hR.setV h _ _)
  case ldVxDT =>
    rw [hr.dt]
    exact hR.advance (hR.setV h _ _)
  case ldDTVx x =>
    rw [hr.regs x (by simp [readsReg])]
    exact hR.advance (hR.setDelay h _)
  case ldSTVx x =>
    rw [hr.regs x (by simp [readsReg])]
    exact hR.advance (hR.setSound h _)
  case ldI => exact hR.advance (hR.setI h _)
  case ldFVx x =>
    rw [hr.regs x (by simp [readsReg])]
    exact hR.advance (hR.setI h _)
  case addIVx x =>
    simp only [indexSumError, indexSum, hr.addrI, hr.regI, hr.regs x (by simp [readsReg])]
    exact hR.raiseOr h (hR.advance (hR.setI h _)) _
  case skp x | sknp x =>
    rw [hr.regs x (by simp [readsReg]), hr.keyDown]
    exact hR.raiseOr h (hR.skipIf h _) _
  case drw x y n =>
    rw [hr.addrI]
    exact hR.raiseOr h (hR.advance (hR.drawSprite h hr)) _
  case ldBVx x =>
    rw [hr.addrI, hr.regs x (by simp [readsReg])]
    exact hR.raiseOr h (hR.advance (hR.storeBytes h _ _)) _
  case ldMemVx x =>
    rw [hr.advancedI, hr.addrI, hr.regBytes]
    exact hR.raiseOr h (hR.advance (hR.setI (hR.storeBytes h _ _) _)) _
  case ldVxMem x =>
    rw [hr.advancedI, hr.addrI]
    exact hR.raiseOr h (hR.advance (hR.setI (hR.loadRegs h hr _ x) _)) _

/-! ## One register -/

/-- `t` is `s`, or `s` with V[r] holding `b`. -/
def ApartAt (r : Reg) (b : Byte) (s t : State) : Prop := t = s ∨ t = s.setV r b

namespace ApartAt

variable {r : Reg} {b : Byte} {s t : State}

/-- An update that commutes with the write of V[r] keeps two states apart at V[r] at most. -/
theorem map (h : ApartAt r b s t) (f : State → State) (hf : f (s.setV r b) = (f s).setV r b) :
    ApartAt r b (f s) (f t) := by
  rcases h with rfl | rfl
  · exact .inl rfl
  · exact .inr hf

/-- A write of V[r] ends the difference, a write of another register keeps it. -/
theorem setV (h : ApartAt r b s t) (x : Reg) (c : Byte) : ApartAt r b (s.setV x c) (t.setV x c) := by
  rcases h with rfl | rfl
  · exact .inl rfl
  · by_cases hx : x = r
    · subst hx
      exact .inl (by simp only [State.setV, Vector.set_set])
    · have hne : r.toNat ≠ x.toNat := fun he => hx (BitVec.eq_of_toNat_eq he.symm)
      exact .inr (by simp only [State.setV, Vector.set_comm b c hne])

theorem respected (r : Reg) (b : Byte) : Respected (ApartAt r b) where
  raise h e := h.map (fun u => u.raise e) rfl
  advance h := h.map State.advance rfl
  skipIf h c := h.map (fun u => u.skipIf c) rfl
  setPC h a := h.map (fun u => u.setPC a) rfl
  setV := setV
  setI h a := h.map (fun u => u.setI a) rfl
  storeBytes h a bs := h.map (fun u => u.storeBytes a bs) rfl
  setStack h k p := h.map (fun u => { u with stack := k, sp := p }) rfl
  setDisplay h f := h.map (fun u => { u with fb := f, drawRequested := true }) rfl
  setDelay h d := h.map (fun u => { u with dt := d }) rfl
  setSound h d := h.map (fun u => { u with st := d }) rfl
  setAwaiting h d := h.map (fun u => { u with awaitingKey := d }) rfl

theorem frame (h : ApartAt r b s t) : Frame [.regs] s t := by
  rcases h with rfl | rfl
  · exact .refl _ _
  · intro p hp
    cases p with
    | regs => exact absurd (by decide) hp
    | memory | stack => exact fun _ => rfl
    | display => exact fun _ _ => rfl
    | host => exact ⟨rfl, rfl, rfl⟩
    | index | pc | sp | delayTimer | soundTimer | keys | drawRequested | awaitingKey | driver | cyc | lastInstr | err
    | glyphRom => rfl

theorem getV_ne (h : ApartAt r b s t) {q : Reg} (hq : q ≠ r) : t.getV q = s.getV q := by
  rcases h with rfl | rfl
  · rfl
  · exact s.getV_setV_ne r q b hq

theorem getV_self (h : ApartAt r b s t) : t.getV r = b ∨ t.getV r = s.getV r := by
  rcases h with rfl | rfl
  · exact .inr rfl
  · exact .inl (s.getV_setV_self r b)

end ApartAt

/-- A write of a register the instruction does not read leaves what it reads. -/
theorem sameReads_setV {i : Instr} {r : Reg} (hr : readsReg i r = false) (s : State) (b : Byte) :
    SameReads i s (s.setV r b) where
  regs q hq := s.getV_setV_ne r q b (by rintro rfl; rw [hr] at hq; cases hq)
  mem := rfl
  glyphRom := rfl
  regI := rfl
  pc := rfl
  stack := rfl
  sp := rfl
  dt := rfl
  fb := rfl
  key := rfl
  rand := rfl

/-- Settles O16: the results differ at most in the register that was changed. -/
theorem registerReaders : Obligations.RegisterReaders := by
  intro i s t r b hr ht
  obtain ⟨u, hu⟩ := exec_next i (s.setV r b)
  have h : ApartAt r b t u := exec_related (ApartAt.respected r b) (.inr rfl) (sameReads_setV hr s b) ht hu
  exact ⟨u, hu, fun _ => h.getV_ne, h.getV_self, h.frame⟩

/-! ## The bookkeeping fields -/

/-- The state with the bookkeeping fields cleared. -/
def State.eraseBookkeeping (s : State) : State :=
  { s with cyc := 0, err := none, drawRequested := false, awaitingKey := false, lastInstr := 0, driver := .stopped }

/-- The two states agree on everything but the bookkeeping fields. -/
def SameButBookkeeping (s t : State) : Prop := t.eraseBookkeeping = s.eraseBookkeeping

namespace SameButBookkeeping

variable {s t : State}

theorem map (h : SameButBookkeeping s t) (f : State → State)
    (hf : ∀ u, (f u).eraseBookkeeping = (f u.eraseBookkeeping).eraseBookkeeping) : SameButBookkeeping (f s) (f t) := by
  rw [SameButBookkeeping, hf t, hf s, h]

theorem respected : Respected SameButBookkeeping where
  raise h e := h.map (fun u => u.raise e) fun _ => rfl
  advance h := h.map State.advance fun _ => rfl
  skipIf h c := h.map (fun u => u.skipIf c) fun _ => rfl
  setPC h a := h.map (fun u => u.setPC a) fun _ => rfl
  setV h x b := h.map (fun u => u.setV x b) fun _ => rfl
  setI h a := h.map (fun u => u.setI a) fun _ => rfl
  storeBytes h a bs := h.map (fun u => u.storeBytes a bs) fun _ => rfl
  setStack h k p := h.map (fun u => { u with stack := k, sp := p }) fun _ => rfl
  setDisplay h f := h.map (fun u => { u with fb := f, drawRequested := true }) fun _ => rfl
  setDelay h d := h.map (fun u => { u with dt := d }) fun _ => rfl
  setSound h d := h.map (fun u => { u with st := d }) fun _ => rfl
  setAwaiting h d := h.map (fun u => { u with awaitingKey := d }) fun _ => rfl

/-- What does not look at the bookkeeping fields reads the same. -/
theorem read (h : SameButBookkeeping s t) {α : Type} (f : State → α) (hf : ∀ u, f u.eraseBookkeeping = f u) :
    f t = f s := by rw [← hf t, h, hf s]

theorem sameReads (h : SameButBookkeeping s t) (i : Instr) : SameReads i s t where
  regs q _ := h.read (fun u => u.getV q) fun _ => rfl
  mem := h.read State.mem fun _ => rfl
  glyphRom := h.read State.glyphRom fun _ => rfl
  regI := h.read State.regI fun _ => rfl
  pc := h.read State.pc fun _ => rfl
  stack := h.read State.stack fun _ => rfl
  sp := h.read State.sp fun _ => rfl
  dt := h.read State.dt fun _ => rfl
  fb := h.read State.fb fun _ => rfl
  key := h.read State.key fun _ => rfl
  rand := h.read State.rand fun _ => rfl

theorem frame (h : SameButBookkeeping s t) :
    Frame [.cyc, .err, .drawRequested, .awaitingKey, .lastInstr, .driver] s t := by
  intro p hp
  cases p with
  | regs => exact fun r => h.read (fun u => u.getV r) fun _ => rfl
  | memory => exact fun a => h.read (fun u => u.readByte a) fun _ => rfl
  | stack => exact fun j => h.read (fun u => u.stackAt j) fun _ => rfl
  | display => exact fun r c => h.read (fun u => u.pixel r c) fun _ => rfl
  | host => exact ⟨h.read State.rand fun _ => rfl, h.read State.host fun _ => rfl,
    h.read State.draws fun _ => rfl⟩
  | index => exact h.read State.regI fun _ => rfl
  | pc => exact h.read State.pc fun _ => rfl
  | sp => exact h.read State.sp fun _ => rfl
  | delayTimer => exact h.read State.dt fun _ => rfl
  | soundTimer => exact h.read State.st fun _ => rfl
  | keys => exact h.read State.key fun _ => rfl
  | glyphRom => exact h.read State.glyphRom fun _ => rfl
  | cyc | err | drawRequested | awaitingKey | lastInstr | driver => exact absurd (by decide) hp

end SameButBookkeeping

/-- Settles O48: the two states agree outside the bookkeeping fields, so their results do. -/
theorem bookkeepingIsUnread : Obligations.BookkeepingIsUnread := by
  intro i s c e d k l g
  have h0 : SameButBookkeeping s
      { s with cyc := c, err := e, drawRequested := d, awaitingKey := k, lastInstr := l, driver := g } := rfl
  obtain ⟨t, ht⟩ := exec_next i s
  obtain ⟨u, hu⟩ := exec_next i
    { s with cyc := c, err := e, drawRequested := d, awaitingKey := k, lastInstr := l, driver := g }
  exact ⟨t, u, ht, hu, (exec_related SameButBookkeeping.respected h0 (h0.sameReads i) ht hu).frame⟩

end Sys2Proof.Machine
end

section
/-! SUPPORT. Initialise (70_reset_and_hazards.md R360, R90; 10_state.md R51): what every field and every byte of memory
holds, for a ROM that fits and for one that does not; and the STATUS word (10_state.md R50). -/

namespace Sys2Proof.Machine

/-! ## Initialise -/

section

variable (rom : List Byte) (glyphs : Config.GlyphRom)

/-- Initialise differs from the created state in memory, err and the driver only. -/
theorem State.initialise_eq_created :
    ∃ m e d, State.initialise rom glyphs = { State.created glyphs with mem := m, err := e, driver := d } := by
  by_cases h : rom.length ≤ 3584
  · exact ⟨_, _, _, State.initialise_of_le glyphs h⟩
  · exact ⟨_, _, _, State.initialise_of_gt glyphs (by omega)⟩

variable {rom}

theorem State.readByte_initialise_of_gt (h : 3584 < rom.length) (a : Nat) :
    (State.initialise rom glyphs).readByte a = Memory.background glyphs a := by
  rw [State.initialise_of_gt glyphs h]
  rfl

theorem State.readByte_initialise_outside (h : rom.length ≤ 3584) {a : Nat}
    (ha : a < 0x200 ∨ 0x200 + rom.length ≤ a) :
    (State.initialise rom glyphs).readByte a = Memory.background glyphs a := by
  rw [State.initialise_of_le glyphs h]
  exact Memory.read_writeBytes_outside [] 0x200 a rom ha

theorem State.readByte_initialise_inside (h : rom.length ≤ 3584) {k : Nat} (hk : k < rom.length) :
    (State.initialise rom glyphs).readByte (0x200 + k) = rom[k] := by
  rw [State.initialise_of_le glyphs h]
  exact Memory.read_writeBytes_inside (m := []) rfl 0x200 rom (by simp only [Config.memSize]; omega) k hk

variable (rom)

/-- The ROM changes nothing below program space. -/
theorem State.readByte_initialise_below {a : Nat} (ha : a < 0x200) :
    (State.initialise rom glyphs).readByte a = Memory.background glyphs a := by
  by_cases h : rom.length ≤ 3584
  · exact State.readByte_initialise_outside glyphs h (.inl ha)
  · exact State.readByte_initialise_of_gt glyphs (by omega) a

theorem State.memCanonical_initialise :
    Memory.wf (State.initialise rom glyphs).glyphRom (State.initialise rom glyphs).mem = true := by
  by_cases h : rom.length ≤ 3584
  · rw [State.initialise_of_le glyphs h]
    exact Memory.wf_writeBytes (m := []) rfl 0x200 rom (by simp only [Config.memSize]; omega)
  · rw [State.initialise_of_gt glyphs (by omega)]
    rfl

/-- An error after initialise is ROM_TOO_LARGE, with the block stopped. -/
theorem State.errStopped_initialise (he : (State.initialise rom glyphs).err ≠ none) :
    (State.initialise rom glyphs).driver = .stopped := by
  by_cases h : rom.length ≤ 3584
  · rw [State.initialise_of_le glyphs h] at he
    exact absurd rfl he
  · rw [State.initialise_of_gt glyphs (by omega)]

theorem State.readByte_initialise_glyph {a : Nat} (ha : a < Config.glyphSize) :
    (State.initialise rom glyphs).readByte a = glyphs[a] :=
  (State.readByte_initialise_below rom glyphs (Nat.lt_trans ha (by decide))).trans (Memory.background_glyph ha)

theorem State.inv_initialise : (State.initialise rom glyphs).Inv := by
  have hm := State.memCanonical_initialise rom glyphs
  have hg (a : Nat) (ha : a < Config.glyphSize) := State.readByte_initialise_glyph rom glyphs ha
  have he := State.errStopped_initialise rom glyphs
  obtain ⟨m, e, d, hs⟩ := State.initialise_eq_created rom glyphs
  rw [hs] at hm hg he ⊢
  exact State.inv_of_startValues hm hg rfl rfl rfl rfl he

end

/-- Settles O56: the fields are those of the created state, memory is what the ROM load stores. -/
theorem initialiseResult : Obligations.InitialiseResult := by
  rintro rom glyphs s rfl
  obtain ⟨m, e, d, hs⟩ := State.initialise_eq_created rom glyphs
  have hzero {a : Nat} (ha : 0x050 ≤ a) : Memory.background glyphs a = 0 := Memory.background_zero ha
  refine ⟨fun r => ?_, congrArg State.regI hs, congrArg State.pc hs, fun j => ?_, congrArg State.sp hs,
    congrArg State.dt hs, congrArg State.st hs, fun r c => ?_, congrArg State.key hs, congrArg State.drawRequested hs,
    congrArg State.awaitingKey hs, congrArg State.cyc hs, congrArg State.lastInstr hs, congrArg State.glyphRom hs,
    fun i hi => State.readByte_initialise_glyph rom glyphs hi,
    fun a ha hb => (State.readByte_initialise_below rom glyphs hb).trans (hzero ha), fun h => ?_, fun h => ?_,
    State.inv_initialise rom glyphs⟩
  · simp [hs, State.getV, State.created, State.zeroed]
  · simp [hs, State.stackAt, State.created, State.zeroed]
  · simp [hs, State.pixel, pixelOf, State.created, State.zeroed]
  · have hle := State.initialise_of_le glyphs h
    exact ⟨fun i hi => State.readByte_initialise_inside glyphs h hi,
      fun a ha => (State.readByte_initialise_outside glyphs h (.inr ha)).trans (hzero (by omega)),
      congrArg State.driver hle, congrArg State.running hle, congrArg State.paused hle, congrArg State.err hle⟩
  · have hgt := State.initialise_of_gt glyphs h
    exact ⟨fun a ha => (State.readByte_initialise_of_gt glyphs h a).trans (hzero (by omega)),
      congrArg State.driver hgt, congrArg State.running hgt, congrArg State.paused hgt, congrArg State.err hgt⟩

/-! ## The STATUS word -/

/-- The number of two fields side by side. -/
theorem toNat_append_eq_add {m n : Nat} (x : BitVec m) (y : BitVec n) :
    (x ++ y).toNat = x.toNat * 2 ^ n + y.toNat := by
  rw [BitVec.toNat_append, ← Nat.shiftLeft_add_eq_or_of_lt y.isLt, Nat.shiftLeft_eq]

/-- The STATUS word is the sum of its fields at their places (R50). -/
theorem State.status_toNat (s : State) :
    s.status.toNat = (driverCode s.driver).toNat + s.running.toNat * 4 + s.paused.toNat * 8 +
      s.drawRequested.toNat * 16 + s.awaitingKey.toNat * 32 + s.errCode.toNat * 256 := by
  simp only [State.status, toNat_append_eq_add, BitVec.toNat_ofBool, BitVec.toNat_ofNat]
  omega

/-- Settles O55: field by field, by the driver's three states and by the error codes. -/
theorem statusWordLayout : Obligations.StatusWordLayout := by
  intro s
  rw [State.status_toNat, State.running, State.paused, State.errCode]
  refine congrArg₂ (· + ·) (congrArg₂ (· + ·) (congrArg₂ (· + ·)
    (congrArg₂ (· + ·) (congrArg₂ (· + ·) ?_ ?_) ?_) rfl) rfl) (congrArg (· * 256) ?_)
  · cases s.driver <;> rfl
  · cases s.driver <;> rfl
  · cases s.driver <;> rfl
  · cases s.err with
    | none => rfl
    | some r =>
      obtain ⟨code, pc, word, detail, kind⟩ := r
      cases code <;> rfl

end Sys2Proof.Machine
end

section
/-! SUPPORT. Memory (20_memory.md): which bytes an instruction writes and which a step keeps, what a store leaves to be
read and fetched (R84, R88), the error of an access to several bytes (R80), and the canonical form of the data. -/

namespace Sys2Proof.Machine

/-! ## Fetch (R77) -/

/-- Settles O43: by `State.fetch16_ok` inside the address space, `State.fetch16_error` past its end. -/
theorem fetchIsBigEndian : Obligations.FetchIsBigEndian := by
  refine fun s a => ⟨fun ha => ⟨_, s.fetch16_ok (by omega), toNat_append_eq_add _ _⟩, fun ha => ?_, ?_⟩
  · rw [s.fetch16_error (by omega), Nat.max_eq_left (by omega)]
  · rintro rfl
    exact s.fetch16_error (by decide)

/-! ## Which bytes change (R70, R76, R79) -/

/-- A byte that bytes stored from `a` have changed is one of theirs. -/
theorem State.in_range_of_readByte_ne {s t : State} {a c : Nat} {bs : List Byte}
    (hm : t.mem = Memory.writeBytes s.glyphRom s.mem a bs) (hg : t.glyphRom = s.glyphRom)
    (hne : t.readByte c ≠ s.readByte c) : a ≤ c ∧ c < a + bs.length := by
  by_contra hout
  refine hne ?_
  rw [State.readByte, hm, hg, Memory.read_writeBytes_outside s.mem a c bs (by omega), State.readByte]

/-- Settles O32: by the cases of `exec_mem`. -/
theorem memoryWriters : Obligations.MemoryWriters := by
  intro i s t a h hne
  have hg := exec_glyphRom h
  rcases exec_mem h with hm | ⟨x, rfl, hm, -⟩ | ⟨x, rfl, hm, -⟩
  · exact absurd (s.readByte_congr t hm hg a) hne
  · have hlen : (bcdDigits (s.getV x)).length = 3 := rfl
    obtain ⟨hlo, hhi⟩ := State.in_range_of_readByte_ne hm hg hne
    exact .inl ⟨x, rfl, hlo, by omega⟩
  · have hlen := s.regBytes_length x
    obtain ⟨hlo, hhi⟩ := State.in_range_of_readByte_ne hm hg hne
    exact .inr ⟨x, rfl, hlo, by omega⟩

/-- A cycle changes no byte of the glyph table (R76). -/
theorem runCycle_readByte_glyph {n : Nat} {inp : CycleInput} {s t : State} (h : runCycle n inp s = .next t) {c : Nat}
    (hc : c < Config.glyphSize) : t.readByte c = s.readByte c := by
  obtain ⟨u, hu, hcases⟩ := runCycle_cases s n inp
  obtain rfl := next_inj (hu.symm.trans h)
  rcases hcases with ⟨-, rfl⟩ | ⟨-, w, -, ⟨d, -, rfl⟩ | ⟨i, u, -, hex, rfl⟩⟩
  · rfl
  · rfl
  · rw [State.readByte_finishCycle]
    exact exec_readByte_glyph hex hc

/-- Settles O31: neither the host's gap nor the cycle after it changes a byte of the table. -/
theorem glyphTableNeverChanges : Obligations.GlyphTableNeverChanges := by
  intro s t a ha h
  have hc : a < Config.glyphSize := Nat.lt_succ_of_le ha
  rcases stepWith_cases s Config.timerDivisor with
    ⟨g, rest, -, u, rfl, ⟨inp, -, -, he⟩ | ⟨-, he⟩⟩ | ⟨-, ⟨-, he⟩ | ⟨-, he⟩⟩
  · exact (runCycle_readByte_glyph (he.symm.trans h) hc).trans (State.readByte_gapActions _ g a)
  · obtain rfl := next_inj (he.symm.trans h)
    exact State.readByte_gapActions _ g a
  · exact runCycle_readByte_glyph (he.symm.trans h) hc
  · obtain rfl := next_inj (he.symm.trans h)
    rfl

/-! ## What a store leaves (R84, R88, R235) -/

section

variable {s t : State} {x : Reg} (h : exec (.ldMemVx x) s = .next t)
include h

/-- An Fx55 that does not stop the block has its range in 0x050-0xFFF and does all its writes. -/
theorem exec_ldMemVx_of_running (hrun : t.driver = .running) :
    s.addrI + (x.toNat + 1) ≤ 0x1000 ∧
      t = ((s.storeBytes s.addrI (s.regBytes x)).setI (advancedI s x)).advance := by
  rcases exec_raiseOr h with ⟨e, -, rfl⟩ | ⟨hr, ht⟩
  · cases hrun
  · exact ⟨((rangeError_write_eq_none (by omega)).1 hr).2, ht⟩

/-- The byte at I + k after an Fx55 is V[k]. -/
theorem exec_ldMemVx_readByte_inside (hwf : Memory.wf s.glyphRom s.mem = true) (hrun : t.driver = .running) {k : Reg}
    (hk : k.toNat ≤ x.toNat) : t.readByte (s.addrI + k.toNat) = s.getV k := by
  have hlen := s.regBytes_length x
  obtain ⟨hhi, rfl⟩ := exec_ldMemVx_of_running h hrun
  calc Memory.read s.glyphRom (Memory.writeBytes s.glyphRom s.mem s.addrI (s.regBytes x)) (s.addrI + k.toNat)
      = (s.regBytes x)[k.toNat] :=
        Memory.read_writeBytes_inside hwf s.addrI _ (by simp only [Config.memSize]; omega) k.toNat (by omega)
    _ = s.getV k := by rw [State.regBytes_getElem, BitVec.ofNat_toNat, BitVec.setWidth_eq]

/-- Outside I to I + x, an Fx55 changes no byte. -/
theorem exec_ldMemVx_readByte_outside {a : Nat} (ha : a < s.addrI ∨ s.addrI + x.toNat < a) :
    t.readByte a = s.readByte a := by
  by_contra hne
  rcases memoryWriters _ s t a h hne with ⟨_, hi, -⟩ | ⟨_, hi, hlo, hhi⟩
  · cases hi
  · cases hi
    omega

end

/-- Settles O29: the first store's bytes lie outside the second's range. -/
theorem separateStoresBothLoadBack : Obligations.SeparateStoresBothLoadBack := by
  intro s t u v x y hwf _ hst htrun hmem hglyph _ hapart huv hvrun
  have hwfu : Memory.wf u.glyphRom u.mem = true := by
    rw [hmem, hglyph]
    exact exec_memCanonical hst hwf
  refine ⟨fun k hk => ?_, fun k hk => exec_ldMemVx_readByte_inside huv hwfu hvrun hk⟩
  calc v.readByte (s.addrI + k.toNat)
      = u.readByte (s.addrI + k.toNat) := exec_ldMemVx_readByte_outside huv (by omega)
    _ = t.readByte (s.addrI + k.toNat) := t.readByte_congr u hmem hglyph _
    _ = s.getV k := exec_ldMemVx_readByte_inside hst hwf htrun hk

/-- Settles O49: the next fetch reads V[0] and V[1] where the store put them. -/
theorem storedWordIsFetchedNext : Obligations.StoredWordIsFetchedNext := by
  intro s t x hwf _ hx hpc hI h hrun
  have htpc : t.pc.toNat = s.addrI := by
    obtain ⟨-, rfl⟩ := exec_ldMemVx_of_running h hrun
    rw [State.advance_pc, State.setI_pc, State.storeBytes_pc, hI]
    bv_omega
  have h0 : t.readByte s.addrI = s.getV 0 := exec_ldMemVx_readByte_inside h hwf hrun (k := 0) (Nat.zero_le _)
  have h1 : t.readByte (s.addrI + 1) = s.getV 1 := exec_ldMemVx_readByte_inside h hwf hrun (k := 1) hx
  rw [htpc, t.fetch16_ok (by omega), h0, h1]

/-! ## The error of several bytes (R74, R75, R80) -/

theorem accessError_eq_none_iff_not_offends {kind : AccessKind} {a : Nat} :
    accessError kind a = none ↔ ¬ Offends kind a := by
  rw [accessError_eq_none, Offends, not_or, not_and, Nat.not_lt]
  simp only [Nat.not_le, Nat.succ_le_iff]

theorem accessError_of_offends {kind : AccessKind} {a : Nat} (h : Offends kind a) :
    accessError kind a = some (if 0xFFF < a then ⟨.addressRange, BitVec.ofNat 17 a, kind⟩
      else ⟨.glyphWrite, BitVec.ofNat 17 a, .none⟩) := by
  by_cases ha : 0xFFF < a
  · rw [if_pos ha]
    exact if_pos ha
  · have hglyph : kind = .write ∧ a < Config.glyphSize :=
      (h.resolve_left ha).imp_right Nat.lt_succ_of_le
    rw [if_neg ha, accessError, if_neg ha, if_pos hglyph]

/-- An instruction that moves bytes checks their whole range before anything else, and raises no other error. -/
theorem exec_of_movesBytes {i : Instr} {kind : AccessKind} {n : Nat} (h : MovesBytes i kind n) (s : State) :
    ∃ t, exec i s = .next (s.raiseOr (rangeError kind s.addrI n) t) ∧ t.err = s.err ∧ t.driver = s.driver := by
  cases h with
  | sprite | decimal | store => exact ⟨_, rfl, rfl, rfl⟩
  | load x =>
    obtain ⟨-, hdriver, -, -, herr, -⟩ := sameDriverFields_loadRegs s s.addrI x
    exact ⟨_, rfl, herr, hdriver⟩

/-- Settles O30: the range check answers the error of the lowest address that offends. -/
theorem lowestOffendingAddressDecides : Obligations.LowestOffendingAddressDecides := by
  intro s i kind n hi
  obtain ⟨t, hex, herr, hdriver⟩ := exec_of_movesBytes hi s
  refine ⟨fun k hk hoff hlow => completes_raise ?_, fun hnone => ⟨t, ?_, herr, hdriver⟩⟩
  · have hr := rangeError_eq_some.2
      ⟨k, hk, accessError_of_offends hoff, fun j hj => accessError_eq_none_iff_not_offends.2 (hlow j hj)⟩
    rw [hex, hr, State.raiseOr_some]
  · have hr := rangeError_eq_none.2 fun k hk => accessError_eq_none_iff_not_offends.2 (hnone k hk)
    rw [hex, hr, State.raiseOr_none]

/-! ## The canonical form (R70) -/

section

variable {g : Config.GlyphRom}

theorem Memory.wfFrom_cons {lo a : Nat} {b : Byte} {m : Memory} :
    Memory.wfFrom g lo ((a, b) :: m) = true ↔
      lo ≤ a ∧ a < 0x1000 ∧ b ≠ Memory.background g a ∧ Memory.wfFrom g (a + 1) m = true := by
  simp only [Memory.wfFrom, Config.memSize, Bool.and_eq_true, decide_eq_true_eq, and_assoc]

theorem Memory.read_cons_self (a : Nat) (b : Byte) (m : Memory) : Memory.read g ((a, b) :: m) a = b := if_pos rfl

theorem Memory.read_cons_ne {a c : Nat} (h : c ≠ a) (b : Byte) (m : Memory) :
    Memory.read g ((a, b) :: m) c = Memory.read g m c := if_neg h

/-- The first entry tells a canonical memory from one whose entries all lie above it. -/
theorem Memory.read_head_ne {a : Nat} {b : Byte} {m m' : Memory} (hb : b ≠ Memory.background g a)
    (hm' : Memory.wfFrom g (a + 1) m' = true) : Memory.read g ((a, b) :: m) a ≠ Memory.read g m' a := by
  rwa [Memory.read_cons_self, Memory.read_of_lt hm' (Nat.lt_succ_self a)]

/-- A canonical memory is determined by its reads from where its entries may begin. -/
theorem Memory.eq_of_read_eq {lo : Nat} {m m' : Memory} (hm : Memory.wfFrom g lo m = true)
    (hm' : Memory.wfFrom g lo m' = true)
    (hread : ∀ a, lo ≤ a → a < 0x1000 → Memory.read g m a = Memory.read g m' a) : m = m' := by
  induction m generalizing lo m' with
  | nil =>
    cases m' with
    | nil => rfl
    | cons e' t' =>
      obtain ⟨hlo', hhi', hb', -⟩ := Memory.wfFrom_cons.1 hm'
      exact absurd (hread e'.1 hlo' hhi').symm (Memory.read_head_ne hb' rfl)
  | cons e t ih =>
    obtain ⟨a, b⟩ := e
    obtain ⟨hlo, hhi, hb, ht⟩ := Memory.wfFrom_cons.1 hm
    cases m' with
    | nil => exact absurd (hread a hlo hhi) (Memory.read_head_ne hb rfl)
    | cons e' t' =>
      obtain ⟨a', b'⟩ := e'
      obtain ⟨hlo', hhi', hb', ht'⟩ := Memory.wfFrom_cons.1 hm'
      rcases Nat.lt_trichotomy a a' with hlt | rfl | hgt
      · exact absurd (hread a hlo hhi)
          (Memory.read_head_ne hb (Memory.wfFrom_cons.2 ⟨hlt, hhi', hb', ht'⟩))
      · have hbb : b = b' := by simpa only [Memory.read_cons_self] using hread a hlo hhi
        have htt : t = t' := ih ht ht' fun c hc hc' => by
          have hne : c ≠ a := Nat.ne_of_gt hc
          simpa only [Memory.read_cons_ne hne] using hread c (by omega) hc'
        rw [hbb, htt]
      · exact absurd (hread a' hlo' hhi').symm
          (Memory.read_head_ne hb' (Memory.wfFrom_cons.2 ⟨hgt, hhi, hb, ht⟩))

end

/-- Settles O33: two canonical memories that read the same from address 0 on are the same list. -/
theorem equalMemoriesAreEqualData : Obligations.EqualMemoriesAreEqualData := fun _ _ _ hm hm' hread =>
  Memory.eq_of_read_eq hm hm' fun a _ => hread a

end Sys2Proof.Machine
end

section
/-! SUPPORT. The decoder, the encoder and the decode table (30_encoding.md R100-R111): decoding inverts encoding, what the
decoder can answer about any word (`decodeWord_cases`), which word a row of the table stands for (`Row.Names`), and when a
word is illegal, family by family. -/

namespace Sys2Proof

/-! ## Decoding an encoded instruction (R101, R104) -/

/-- The fields of an encoding are the operands it was given, whatever they are. -/
theorem decodeWord_encode (i : Instr) : decodeWord (encode i) = .ok i := by
  cases i
  case cls | ret => rfl
  case jp | call | ldI | jpV0 => simp [encode, decodeWord]
  case seImm | sneImm | ldImm | addImm | rnd => simp [encode, decodeWord]
  case seReg | sneReg | drw => simp [encode, decodeWord]
  case ldReg | orReg | andReg | xorReg | addReg | sub | shr | subn | shl => simp [encode, decodeWord, decodeFamily8]
  case skp | sknp => simp [encode, decodeWord, decodeFamilyE]
  case ldVxDT | ldVxK | ldDTVx | ldSTVx | addIVx | ldFVx | ldBVx | ldMemVx | ldVxMem =>
    simp [encode, decodeWord, decodeFamilyF]

/-- Two instructions are never one word. -/
theorem encode_injective : Function.Injective encode := fun i j h =>
  Except.ok.inj ((decodeWord_encode i).symm.trans (h ▸ decodeWord_encode j))

/-- The two bytes of a word at the head of a sequence decode as the word does, and are consumed (R100). -/
theorem decodeBytes_of_decodeWord {w : Word} {i : Instr} (h : decodeWord w = .ok i) (rest : List Byte) :
    decodeBytes (highByte w :: lowByte w :: rest) = .ok (i, rest) := by
  simp only [decodeBytes, wordOfBytes_split, h]

/-- Settles O2: the fields of an encoding are the operands, so each family's arm of the decoder gives them back. -/
theorem decodeInvertsEncode : Obligations.DecodeInvertsEncode := fun i =>
  ⟨decodeWord_encode i, decodeBytes_of_decodeWord (decodeWord_encode i)⟩

/-! ## What the decoder can answer (R105, R106) -/

section

variable {w : Word}

theorem decodeFamily0_cases (w : Word) :
    (∃ i, decodeFamily0 w = .ok i) ∨ decodeFamily0 w = .error (.decodeFailure w) := by
  unfold decodeFamily0
  split
  · exact .inl ⟨_, rfl⟩
  · split
    · exact .inl ⟨_, rfl⟩
    · exact .inr rfl

theorem decodeFamily8_cases (w : Word) :
    (∃ i, decodeFamily8 w = .ok i) ∨ decodeFamily8 w = .error (.decodeFailure w) := by
  unfold decodeFamily8
  split <;> simp

theorem decodeFamilyE_cases (w : Word) :
    (∃ i, decodeFamilyE w = .ok i) ∨ decodeFamilyE w = .error (.decodeFailure w) := by
  unfold decodeFamilyE
  split <;> simp

theorem decodeFamilyF_cases (w : Word) :
    (∃ i, decodeFamilyF w = .ok i) ∨ decodeFamilyF w = .error (.decodeFailure w) := by
  unfold decodeFamilyF
  split <;> simp

/-- The decoder's answer is legal: an instruction whose encoding the word is, or DECODE_FAILURE of the word. -/
def Answers (w : Word) (r : Except DecodeReject Instr) : Prop :=
  (∃ i, r = .ok i ∧ encode i = w) ∨ r = .error (.decodeFailure w)

theorem Answers.ok {r : Except DecodeReject Instr} {i : Instr} (hr : r = .ok i) (h : encode i = w) : Answers w r :=
  .inl ⟨i, hr, h⟩

/-- The answer of a family with a second level of dispatch is legal if what that level accepts is the word. -/
theorem Answers.of_family {r d : Except DecodeReject Instr} (hr : r = d)
    (hd : (∃ i, d = .ok i) ∨ d = .error (.decodeFailure w)) (hok : ∀ i, d = .ok i → encode i = w) : Answers w r := by
  subst hr
  exact hd.imp_left fun ⟨i, h⟩ => ⟨i, h, hok i h⟩

/-- In families 0x5 and 0x9 the word is an instruction exactly when `n` is 0. -/
theorem Answers.of_n_zero {r : Except DecodeReject Instr} {i : Instr}
    (hr : r = if fieldN w = 0#4 then .ok i else .error (.decodeFailure w)) (h : fieldN w = 0#4 → encode i = w) :
    Answers w r := by
  by_cases hn : fieldN w = 0#4
  · exact .ok (hr.trans (if_pos hn)) (h hn)
  · exact .inr (hr.trans (if_neg hn))

/-- Everything the decoder can answer, family by family. -/
theorem decodeWord_cases (w : Word) : Answers w (decodeWord w) := by
  rcases nibble_cases (fieldFamily w) with hf | hf | hf | hf | hf | hf | hf | hf | hf | hf | hf | hf | hf | hf | hf | hf
  · exact .of_family (decodeWord_family0 hf) (decodeFamily0_cases w) fun _ => decodeFamily0_ok
  · exact .ok (decodeWord_family1 hf) (encode_of_nnn hf)
  · exact .ok (decodeWord_family2 hf) (encode_of_nnn hf)
  · exact .ok (decodeWord_family3 hf) (encode_of_xkk hf)
  · exact .ok (decodeWord_family4 hf) (encode_of_xkk hf)
  · exact .of_n_zero (decodeWord_family5 hf) (encode_of_xy hf)
  · exact .ok (decodeWord_family6 hf) (encode_of_xkk hf)
  · exact .ok (decodeWord_family7 hf) (encode_of_xkk hf)
  · exact .of_family (decodeWord_family8 hf) (decodeFamily8_cases w) fun _ => decodeFamily8_ok hf
  · exact .of_n_zero (decodeWord_family9 hf) (encode_of_xy hf)
  · exact .ok (decodeWord_familyA hf) (encode_of_nnn hf)
  · exact .ok (decodeWord_familyB hf) (encode_of_nnn hf)
  · exact .ok (decodeWord_familyC hf) (encode_of_xkk hf)
  · exact .ok (decodeWord_familyD hf) (encode_of_xyn hf)
  · exact .of_family (decodeWord_familyE hf) (decodeFamilyE_cases w) fun _ => decodeFamilyE_ok hf
  · exact .of_family (decodeWord_familyF hf) (decodeFamilyF_cases w) fun _ => decodeFamilyF_ok hf

end

/-- No bit of a word that decodes is lost. -/
theorem encode_of_decodeWord {w : Word} {i : Instr} (h : decodeWord w = .ok i) : encode i = w := by
  rcases decodeWord_cases w with ⟨j, hj, he⟩ | he
  · cases hj.symm.trans h
    exact he
  · cases he.symm.trans h

/-- Settles O3: every family's arm keeps the fields the encoder puts back. -/
theorem encodeInvertsDecode : Obligations.EncodeInvertsDecode := fun _ _ => encode_of_decodeWord

/-- A word that is no instruction's encoding is a decode failure. -/
theorem decodeWord_error_iff {w : Word} : decodeWord w = .error (.decodeFailure w) ↔ ∀ i, encode i ≠ w := by
  constructor
  · rintro h i rfl
    cases h.symm.trans (decodeWord_encode i)
  · intro h
    exact (decodeWord_cases w).resolve_left fun ⟨i, _, he⟩ => h i he

/-! ## The decode table (R104) -/

/-- The word, if it selects the row, is the encoding of an instruction with the row's tag. -/
def Row.Names (w : Word) (row : Row) : Prop :=
  w &&& row.mask = row.mtch → ∃ i : Instr, i.tag = row.tag ∧ encode i = w

namespace Row.Names

variable {w m : Word} {t : OpTag}

/-! A row's mask keeps the fields its class fixes, and the rest of the word gives the operands (R101, R103). -/

theorem fieldFamily_eq {mask : Word} (h : w &&& mask = m) (hmask : fieldFamily mask = 0xF#4) :
    fieldFamily w = fieldFamily m := by
  rw [← h, fieldFamily, fieldFamily, BitVec.extractLsb'_and, ← fieldFamily, ← fieldFamily, hmask, and_nibble]

theorem fieldN_eq {mask : Word} (h : w &&& mask = m) (hmask : fieldN mask = 0xF#4) : fieldN w = fieldN m := by
  rw [← h, fieldN, fieldN, BitVec.extractLsb'_and, ← fieldN, ← fieldN, hmask, and_nibble]

theorem fieldKK_eq {mask : Word} (h : w &&& mask = m) (hmask : fieldKK mask = 0xFF#8) : fieldKK w = fieldKK m := by
  rw [← h, fieldKK, fieldKK, BitVec.extractLsb'_and, ← fieldKK, ← fieldKK, hmask, and_byte]

theorem fixed (i : Instr) (hi : i.tag = t ∧ encode i = m := by exact ⟨rfl, rfl⟩) : Names w ⟨t, m, 0xFFFF⟩ :=
  fun (h : w &&& 0xFFFF#16 = m) => ⟨i, hi.1, hi.2.trans (h.symm.trans (BitVec.and_allOnes (x := w)))⟩

theorem nnn (i : Addr12 → Instr)
    (hi : ∀ a, (i a).tag = t ∧ encode (i a) = fieldFamily m ++ a := by exact fun _ => ⟨rfl, rfl⟩) :
    Names w ⟨t, m, 0xF000⟩ := fun (h : w &&& 0xF000#16 = m) =>
  ⟨i (fieldNNN w), (hi _).1, (hi _).2.trans (encode_of_nnn (fieldFamily_eq h rfl))⟩

theorem xkk (i : Reg → Byte → Instr)
    (hi : ∀ x k, (i x k).tag = t ∧ encode (i x k) = fieldFamily m ++ x ++ k := by exact fun _ _ => ⟨rfl, rfl⟩) :
    Names w ⟨t, m, 0xF000⟩ := fun (h : w &&& 0xF000#16 = m) =>
  ⟨i (fieldX w) (fieldKK w), (hi _ _).1, (hi _ _).2.trans (encode_of_xkk (fieldFamily_eq h rfl))⟩

theorem xyn (i : Reg → Reg → Nibble → Instr)
    (hi : ∀ x y n, (i x y n).tag = t ∧ encode (i x y n) = fieldFamily m ++ x ++ y ++ n := by
      exact fun _ _ _ => ⟨rfl, rfl⟩) :
    Names w ⟨t, m, 0xF000⟩ := fun (h : w &&& 0xF000#16 = m) =>
  ⟨i (fieldX w) (fieldY w) (fieldN w), (hi _ _ _).1, (hi _ _ _).2.trans (encode_of_xyn (fieldFamily_eq h rfl))⟩

theorem xy (i : Reg → Reg → Instr)
    (hi : ∀ x y, (i x y).tag = t ∧ encode (i x y) = fieldFamily m ++ x ++ y ++ fieldN m := by
      exact fun _ _ => ⟨rfl, rfl⟩) :
    Names w ⟨t, m, 0xF00F⟩ := fun (h : w &&& 0xF00F#16 = m) =>
  ⟨i (fieldX w) (fieldY w), (hi _ _).1, (hi _ _).2.trans (encode_of_xy (fieldFamily_eq h rfl) (fieldN_eq h rfl))⟩

theorem xsub (i : Reg → Instr)
    (hi : ∀ x, (i x).tag = t ∧ encode (i x) = fieldFamily m ++ x ++ fieldKK m := by exact fun _ => ⟨rfl, rfl⟩) :
    Names w ⟨t, m, 0xF0FF⟩ := fun (h : w &&& 0xF0FF#16 = m) =>
  ⟨i (fieldX w), (hi _).1, (hi _).2.trans (encode_of_x (fieldFamily_eq h rfl) (fieldKK_eq h rfl))⟩

end Row.Names

/-- Every row of the table, by its class. -/
theorem names_of_mem_opcodeTable (w : Word) : ∀ row ∈ opcodeTable, row.Names w := by
  simp only [opcodeTable, List.cons_append, List.nil_append, List.forall_mem_cons]
  exact ⟨.fixed .cls, .fixed .ret, .nnn .jp, .nnn .call, .xkk .seImm, .xkk .sneImm, .xy .seReg, .xkk .ldImm,
    .xkk .addImm, .xy .ldReg, .xy .orReg, .xy .andReg, .xy .xorReg, .xy .addReg, .xy .sub, .xy .shr, .xy .subn,
    .xy .shl, .xy .sneReg, .nnn .ldI, .nnn .jpV0, .xkk .rnd, .xyn .drw, .xsub .skp, .xsub .sknp, .xsub .ldVxDT,
    .xsub .ldVxK, .xsub .ldDTVx, .xsub .ldSTVx, .xsub .addIVx, .xsub .ldFVx, .xsub .ldBVx, .xsub .ldMemVx,
    .xsub .ldVxMem, List.forall_mem_nil _⟩

/-- Every instruction has a row with its tag that its encoding selects. -/
theorem encodingMatchesRow (i : Instr) : Laws.EncodingMatchesRow.Statement i := by
  open Laws.EncodingMatchesRow in
  cases i with
  | cls => exact cls
  | ret => exact ret
  | jp => exact jp _
  | call => exact call _
  | seImm => exact seImm _ _
  | sneImm => exact sneImm _ _
  | seReg => exact seReg _ _
  | ldImm => exact ldImm _ _
  | addImm => exact addImm _ _
  | ldReg => exact ldReg _ _
  | orReg => exact orReg _ _
  | andReg => exact andReg _ _
  | xorReg => exact xorReg _ _
  | addReg => exact addReg _ _
  | sub => exact sub _ _
  | shr => exact shr _ _
  | subn => exact subn _ _
  | shl => exact shl _ _
  | sneReg => exact sneReg _ _
  | ldI => exact ldI _
  | jpV0 => exact jpV0 _
  | rnd => exact rnd _ _
  | drw => exact drw _ _ _
  | skp => exact skp _
  | sknp => exact sknp _
  | ldVxDT => exact ldVxDT _
  | ldVxK => exact ldVxK _
  | ldDTVx => exact ldDTVx _
  | ldSTVx => exact ldSTVx _
  | addIVx => exact addIVx _
  | ldFVx => exact ldFVx _
  | ldBVx => exact ldBVx _
  | ldMemVx => exact ldMemVx _
  | ldVxMem => exact ldVxMem _

/-- No two rows of the table carry one tag. -/
theorem Row.eq_of_tag_eq : ∀ r ∈ opcodeTable, ∀ q ∈ opcodeTable, r.tag = q.tag → r = q := by decide

/-- Settles O5: two rows that select a word name the one instruction it encodes, so their tags agree. -/
theorem tableRowsNeverOverlap : Obligations.TableRowsNeverOverlap := by
  refine ⟨rfl, fun i => ?_, fun w r q hr hq hrw hqw => ?_⟩
  · obtain ⟨row, hmem, htag, -⟩ := encodingMatchesRow i
    exact ⟨row, hmem, htag⟩
  · obtain ⟨i, hir, hi⟩ := names_of_mem_opcodeTable w r hr hrw
    obtain ⟨j, hjq, hj⟩ := names_of_mem_opcodeTable w q hq hqw
    obtain rfl : i = j := encode_injective (hi.trans hj.symm)
    exact Row.eq_of_tag_eq r hr q hq (hir.symm.trans hjq)

/-- A word that selects a row decodes to an instruction with the row's tag, of which it is the encoding (R105). -/
theorem decodeWord_of_row {w : Word} {row : Row} (hrow : row ∈ opcodeTable) (h : w &&& row.mask = row.mtch) :
    ∃ i, decodeWord w = .ok i ∧ i.tag = row.tag ∧ encode i = w := by
  obtain ⟨i, htag, rfl⟩ := names_of_mem_opcodeTable w row hrow h
  exact ⟨i, decodeWord_encode i, htag, rfl⟩

/-- A word that selects no row is a decode failure (R105). -/
theorem decodeWord_of_no_row {w : Word} (h : ∀ row ∈ opcodeTable, w &&& row.mask ≠ row.mtch) :
    decodeWord w = .error (.decodeFailure w) := by
  refine decodeWord_error_iff.2 ?_
  rintro i rfl
  obtain ⟨row, hrow, -, hsel⟩ := encodingMatchesRow i
  exact h row hrow (beq_iff_eq.1 hsel)

/-! ## The fields of a word as numbers (R101) -/

theorem fieldFamily_toNat (w : Word) : (fieldFamily w).toNat = w.toNat / 4096 := by
  have := w.isLt
  rw [fieldFamily, BitVec.extractLsb'_toNat, Nat.shiftRight_eq_div_pow]
  omega

theorem fieldX_toNat (w : Word) : (fieldX w).toNat = w.toNat / 256 % 16 := by
  rw [fieldX, BitVec.extractLsb'_toNat, Nat.shiftRight_eq_div_pow]

theorem fieldY_toNat (w : Word) : (fieldY w).toNat = w.toNat / 16 % 16 := by
  rw [fieldY, BitVec.extractLsb'_toNat, Nat.shiftRight_eq_div_pow]

theorem fieldN_toNat (w : Word) : (fieldN w).toNat = w.toNat % 16 := by
  rw [fieldN, BitVec.extractLsb'_toNat, Nat.shiftRight_zero]

theorem fieldKK_toNat (w : Word) : (fieldKK w).toNat = w.toNat % 256 := by
  rw [fieldKK, BitVec.extractLsb'_toNat, Nat.shiftRight_zero]

theorem fieldNNN_toNat (w : Word) : (fieldNNN w).toNat = w.toNat % 4096 := by
  rw [fieldNNN, BitVec.extractLsb'_toNat, Nat.shiftRight_zero]

/-! ## Illegal words (R106, R107): what each second level of dispatch rejects -/

theorem decodeFamily0_error {w : Word} :
    decodeFamily0 w = .error (.decodeFailure w) ↔ w ≠ 0x00E0 ∧ w ≠ 0x00EE := by
  unfold decodeFamily0
  split
  · simp_all
  · split <;> simp_all

theorem decodeFamily8_error {w : Word} :
    decodeFamily8 w = .error (.decodeFailure w) ↔ (fieldN w).toNat ∈ [0x8, 0x9, 0xA, 0xB, 0xC, 0xD, 0xF] := by
  rcases nibble_cases (fieldN w) with h | h | h | h | h | h | h | h | h | h | h | h | h | h | h | h <;>
    simp [decodeFamily8, h]

theorem decodeFamilyE_error {w : Word} :
    decodeFamilyE w = .error (.decodeFailure w) ↔ (fieldKK w).toNat ∉ [0x9E, 0xA1] := by
  unfold decodeFamilyE
  split
  all_goals simp_all [BitVec.toNat_eq]

theorem decodeFamilyF_error {w : Word} :
    decodeFamilyF w = .error (.decodeFailure w) ↔
      (fieldKK w).toNat ∉ [0x07, 0x0A, 0x15, 0x18, 0x1E, 0x29, 0x33, 0x55, 0x65] := by
  unfold decodeFamilyF
  split
  all_goals simp_all [BitVec.toNat_eq]

/-- Settles O6: in each family, what its level of dispatch rejects. -/
theorem illegalWordsByFamily : Obligations.IllegalWordsByFamily := by
  intro w
  rw [← fieldFamily_toNat, ← fieldN_toNat, ← fieldKK_toNat]
  rcases nibble_cases (fieldFamily w) with hf | hf | hf | hf | hf | hf | hf | hf | hf | hf | hf | hf | hf | hf | hf | hf
  · simp [decodeWord_family0 hf, decodeFamily0_error, hf]
  · simp [decodeWord_family1 hf, hf]
  · simp [decodeWord_family2 hf, hf]
  · simp [decodeWord_family3 hf, hf]
  · simp [decodeWord_family4 hf, hf]
  · simp [decodeWord_family5 hf, hf, BitVec.toNat_eq]
  · simp [decodeWord_family6 hf, hf]
  · simp [decodeWord_family7 hf, hf]
  · simp [decodeWord_family8 hf, decodeFamily8_error, hf]
  · simp [decodeWord_family9 hf, hf, BitVec.toNat_eq]
  · simp [decodeWord_familyA hf, hf]
  · simp [decodeWord_familyB hf, hf]
  · simp [decodeWord_familyC hf, hf]
  · simp [decodeWord_familyD hf, hf]
  · simp [decodeWord_familyE hf, decodeFamilyE_error, hf]
  · simp [decodeWord_familyF hf, decodeFamilyF_error, hf]

/-! ## Words written out (R104, R107) -/

/-- Settles O1: each word is evaluated. -/
theorem writtenWordsDecode : Obligations.WrittenWordsDecode := by
  unfold Obligations.WrittenWordsDecode
  decide

end Sys2Proof
end

section
/-! SUPPORT. The assembler notation (30_encoding.md R112, R113): the line of every instruction is well formed and has the
operand shapes of its own row. -/

namespace Sys2Proof

theorem nibble_toNat_lt (x : Nibble) : x.toNat < 16 := x.isLt

theorem byte_toNat_lt (k : Byte) : k.toNat < 256 := k.isLt

theorem addr12_toNat_lt (a : Addr12) : a.toNat < 4096 := a.isLt

/-- A line whose operands all fit, a number by the width its mnemonic allows (R112). -/
theorem wellFormed_iff {l : AsmLine} : l.wellFormed = true ↔
    ∀ a ∈ l.args, a.registerFits = true ∧ a.numberFits l.numberBits = true := by
  simp only [AsmLine.wellFormed, List.all_eq_true, Bool.and_eq_true]

/-- Every operand an instruction carries is as wide as its place in the line allows (R112). -/
theorem toAsm_wellFormed (i : Instr) : i.toAsm.wellFormed = true := by
  rw [wellFormed_iff]
  cases i
  case cls | ret => exact fun _ ha => absurd ha List.not_mem_nil
  case jp | call | jpV0 | ldI =>
    simp [Instr.toAsm, AsmLine.numberBits, AsmOperand.registerFits, AsmOperand.numberFits, addr12_toNat_lt]
  case seImm | sneImm | ldImm | addImm | rnd =>
    simp [Instr.toAsm, AsmLine.numberBits, AsmOperand.registerFits, AsmOperand.numberFits, nibble_toNat_lt,
      byte_toNat_lt]
  all_goals -- the lines of registers and named operands, and DRW with its nibble
    simp [Instr.toAsm, AsmLine.numberBits, AsmOperand.registerFits, AsmOperand.numberFits, nibble_toNat_lt]

/-- The line of an instruction has the operand shapes of its own row (R113). -/
theorem instrOfShape_toAsm (i : Instr) : instrOfShape i.toAsm = some i := by
  cases i <;> simp only [Instr.toAsm, instrOfShape, BitVec.ofNat_toNat, BitVec.setWidth_eq]

theorem assemble_of_wellFormed {l : AsmLine} (h : l.wellFormed = true) : assemble l = instrOfShape l := if_pos h

/-- A line of one register is well formed. -/
theorem wellFormed_register (op : Mnemonic) (x : Reg) : AsmLine.wellFormed ⟨op, [.v x.toNat]⟩ = true := by
  simp [wellFormed_iff, AsmOperand.registerFits, AsmOperand.numberFits, nibble_toNat_lt]

/-- Settles O7: the line of an instruction is well formed, so it assembles by its shape; so does a shift without Vy. -/
theorem assemblerNamesEveryRow : Obligations.AssemblerNamesEveryRow := by
  refine ⟨fun i => ⟨toAsm_wellFormed i, ?_⟩, fun x => ⟨?_, ?_⟩⟩
  · rw [assemble_of_wellFormed (toAsm_wellFormed i), instrOfShape_toAsm]
  · rw [assemble_of_wellFormed (wellFormed_register .SHR x), instrOfShape, BitVec.ofNat_toNat, BitVec.setWidth_eq]
  · rw [assemble_of_wellFormed (wellFormed_register .SHL x), instrOfShape, BitVec.ofNat_toNat, BitVec.setWidth_eq]

end Sys2Proof
end

section
/-! SUPPORT. A skip reads no memory (41_control_flow.md R161); what a cycle is once the word at PC is known to decode or
not (60_exceptions.md R311), the trace event of a cycle (R318), and a step as its gap and one cycle (R315). -/

namespace Sys2Proof.Machine

/-! ## Skips (R109, R161) -/

theorem State.raiseOr_setMem (s t : State) (e? : Option BlockError) (m : Memory) :
    ({ s with mem := m } : State).raiseOr e? { t with mem := m } = { s.raiseOr e? t with mem := m } := by
  cases e? <;> rfl

/-- A skip commutes with any change of memory. -/
theorem exec_setMem_of_isSkip {i : Instr} (hi : isSkip i = true) {s t : State} (h : exec i s = .next t) (m : Memory) :
    exec i { s with mem := m } = .next { t with mem := m } := by
  cases i
  case seImm | sneImm | seReg | sneReg =>
    obtain rfl := next_inj h
    rfl
  case skp x | sknp x =>
    obtain rfl := next_inj h
    exact congrArg Host.Outcome.next (s.raiseOr_setMem (s.skipIf _) (keyIndexError (s.getV x)) m)
  all_goals cases hi

/-- From the last two words of memory a skip that is taken leaves PC where no word can be fetched. -/
theorem nextFetchFails_of_skip {s t : State} (hs : s.pc = 0xFFC ∨ s.pc = 0xFFE) (ht : t.pc = s.pc + 4) :
    NextFetchFails t (s.pc.toNat + 4) := by
  have hpc : t.pc.toNat = s.pc.toNat + 4 ∧ 0x1000 ≤ s.pc.toNat + 4 := by
    rw [ht]
    rcases hs with h | h <;> rw [h] <;> decide
  rw [NextFetchFails, t.fetch16_error (by omega), hpc.1, Nat.max_eq_left hpc.2]

/-- Settles O22: memory is changed under the skip, and the fetch after one from the end of memory is out of range. -/
theorem skippedWordIsNotRead : Obligations.SkippedWordIsNotRead := by
  intro i s m hi
  obtain ⟨t, ht⟩ := exec_next i s
  exact ⟨t, ht, exec_setMem_of_isSkip hi ht m, nextFetchFails_of_skip⟩

/-! ## One cycle and its trace event (R311, R318) -/

section

variable {s : State} (hpc : s.pc.toNat ≤ 0xFFE)
include hpc

/-- A cycle whose word does not decode raises DECODE_FAILURE of it (R105). -/
theorem runCycle_of_decode_error {d : DecodeReject} (hd : decodeWord s.wordAtPC = .error d) (n : Nat)
    (inp : CycleInput) : runCycle n inp s =
      .next ((s.executing inp s.wordAtPC).raise ⟨.decodeFailure, s.wordAtPC.setWidth 17, .none⟩) := by
  obtain ⟨t, ht, ⟨hgt, -⟩ | ⟨-, w, rfl, ⟨d', -, rfl⟩ | ⟨i, u, hi, -⟩⟩⟩ := runCycle_cases s n inp
  · omega
  · exact ht
  · cases hi.symm.trans hd

/-- A cycle whose word decodes executes the instruction on the sampled state, then takes the timer step if it raised no
error (R311). -/
theorem runCycle_of_decode_ok {i : Instr} (hd : decodeWord s.wordAtPC = .ok i) (n : Nat) (inp : CycleInput) :
    ∃ t, exec i (s.executing inp s.wordAtPC) = .next t ∧ runCycle n inp s = .next (t.finishCycle n) := by
  obtain ⟨t, ht, ⟨hgt, -⟩ | ⟨-, w, rfl, ⟨d, hd', -⟩ | ⟨j, u, hj, hu, rfl⟩⟩⟩ := runCycle_cases s n inp
  · omega
  · cases hd'.symm.trans hd
  · cases hj.symm.trans hd
    exact ⟨u, hu, ht⟩

end

/-- Settles O4: the rows of the table name their instructions; a word of no row is no instruction's encoding, and the cycle
that fetches it raises DECODE_FAILURE. -/
theorem decoderFollowsTable : Obligations.DecoderFollowsTable := by
  refine fun w => ⟨fun row hrow => decodeWord_of_row hrow, fun hnone => ?_⟩
  have hd : decodeWord w = .error (.decodeFailure w) := decodeWord_of_no_row hnone
  refine ⟨hd, ?_⟩
  rintro n inp s hpc rfl
  exact ⟨_, runCycle_of_decode_error hpc hd n inp, rfl, rfl⟩

/-! ## The trace event of a cycle (R318) -/

@[simp] theorem State.finishCycle_driver (s : State) (n : Nat) : (s.finishCycle n).driver = s.driver := by
  rcases s.finishCycle_cases n with ⟨-, h⟩ | ⟨-, h⟩ <;> rw [h]
  rfl

/-- What a cycle does and shows when it stops before it executes. -/
theorem runCycle_cycleTrace_of_error {inp : CycleInput} {s t : State} (h : (s.sample inp).fetchDecode = .error t)
    (n : Nat) : runCycle n inp s = .next t ∧ cycleTrace inp s = none := by
  simp only [runCycle, cycleTrace, h, and_self]

/-- What a cycle does and shows when it executes an instruction. -/
theorem runCycle_cycleTrace_of_ok {inp : CycleInput} {s t u : State} {i : Instr}
    (h : (s.sample inp).fetchDecode = .ok (i, t)) (hu : exec i t = .next u) (n : Nat) :
    runCycle n inp s = .next (u.finishCycle n) ∧
      cycleTrace inp s = if u.driver = .running then some (traceOf t.pc t.lastInstr i) else none := by
  simp only [runCycle, cycleTrace, h, hu, finishOutcome_next, and_self]

/-- A cycle that leaves the block Running shows the event of the instruction at PC; any other shows none. -/
theorem cycleTrace_cases {n : Nat} {inp : CycleInput} {s t : State} (h : runCycle n inp s = .next t) :
    (t.driver ≠ .running ∧ cycleTrace inp s = none) ∨
      (t.driver = .running ∧ ∃ i, decodeWord s.wordAtPC = .ok i ∧
        cycleTrace inp s = some (traceOf s.pc s.wordAtPC i)) := by
  rcases (s.sample inp).fetchDecode_cases with ⟨-, he⟩ | ⟨-, w, rfl, ⟨d, -, he⟩ | ⟨i, hd, he⟩⟩
  · obtain ⟨hrun, htrace⟩ := runCycle_cycleTrace_of_error he n
    obtain rfl := next_inj (hrun.symm.trans h)
    exact .inl ⟨by simp, htrace⟩
  · obtain ⟨hrun, htrace⟩ := runCycle_cycleTrace_of_error he n
    obtain rfl := next_inj (hrun.symm.trans h)
    exact .inl ⟨by simp, htrace⟩
  · obtain ⟨u, hu⟩ := exec_next i { s.sample inp with lastInstr := s.wordAtPC }
    obtain ⟨hrun, htrace⟩ := runCycle_cycleTrace_of_ok he hu n
    obtain rfl := next_inj (hrun.symm.trans h)
    rw [State.finishCycle_driver]
    by_cases hu : u.driver = .running
    · exact .inr ⟨hu, i, hd, htrace.trans (if_pos hu)⟩
    · exact .inl ⟨hu, htrace.trans (if_neg hu)⟩

/-- Settles O50: the event of the instruction at PC, whose fields are the word's digits. -/
theorem traceShowsCompletedCycles : Obligations.TraceShowsCompletedCycles := by
  intro n inp s t _ h
  rcases cycleTrace_cases h with ⟨hstop, htrace⟩ | ⟨hrun, i, hd, htrace⟩
  · exact ⟨fun hrun => absurd hrun hstop, fun _ => htrace⟩
  · exact ⟨fun _ => ⟨_, i, htrace, hd, rfl, rfl, rfl, fieldX_toNat _, fieldY_toNat _, fieldN_toNat _, fieldKK_toNat _,
      fieldNNN_toNat _⟩, fun hstop => absurd hrun hstop⟩

/-! ## A step as its gap and one cycle (R315, R316) -/

section

variable {s : State} {g : HostGap} {rest : List HostGap} (hs : s.host = g :: rest)
include hs

/-- An entry of the script that is a gap by itself is the step's gap. -/
theorem step_of_gap (hg : g.take rest = (g, rest)) :
    step s = runGap Config.timerDivisor g { s with host := rest } := by
  simp only [step, stepWith, s.nextGap_cons hs, hg]

/-- A step whose gap requests a cycle requests it after the gap's actions. -/
theorem step_of_request {inp : CycleInput} (hc : g.cycle = some inp) :
    step s = requestCycle Config.timerDivisor inp (({ s with host := rest } : State).gapActions g) := by
  rw [step_of_gap hs (HostGap.take_of_cycle hc rest)]
  simp only [runGap, hc]

theorem step_of_request_running {inp : CycleInput} (hc : g.cycle = some inp)
    (hrun : (({ s with host := rest } : State).gapActions g).driver = .running) :
    step s = runCycle Config.timerDivisor inp (({ s with host := rest } : State).gapActions g) :=
  (step_of_request hs hc).trans (if_pos hrun)

/-- A step whose gap leaves the block not Running, or ends the script without a request, is the gap's actions. -/
theorem step_of_no_cycle (hno : (({ s with host := rest } : State).gapActions g).driver ≠ .running ∧ g.cycle ≠ none ∨
    g.cycle = none ∧ rest = []) : step s = .next (({ s with host := rest } : State).gapActions g) := by
  rcases hno with ⟨hstop, hc⟩ | ⟨hc, rfl⟩
  · obtain ⟨inp, hc⟩ := Option.ne_none_iff_exists'.1 hc
    exact (step_of_request hs hc).trans (if_neg hstop)
  · rw [step_of_gap hs rfl]
    simp only [runGap, hc]

end

/-- A step of the Running block with no script left runs a cycle on the free inputs. -/
theorem step_of_no_script {s : State} (hs : s.host = []) (hrun : s.driver = .running) :
    step s = runCycle Config.timerDivisor ⟨Config.keysIn s.draws, Config.randIn s.draws⟩
      { s with draws := s.draws + 1 } := by
  simp only [step, stepWith, s.nextGap_eq_none.2 hs, if_pos hrun]

/-- Settles O57: the step is its gap and one cycle, and the cycle of a word that decodes executes it. -/
theorem stepRunsDecodedInstruction : Obligations.StepRunsDecodedInstruction := by
  refine ⟨fun s i => ⟨fun hs hrun hpc hd => ?_, ?_⟩, fun s => step_of_no_script, ?_, ?_⟩
  · obtain ⟨t, ht, hcyc⟩ := runCycle_of_decode_ok (s := { s with draws := s.draws + 1 }) hpc hd Config.timerDivisor
      ⟨Config.keysIn s.draws, Config.randIn s.draws⟩
    exact ⟨t, ht, (step_of_no_script hs hrun).trans hcyc⟩
  · rintro g rest inp _ hs hc rfl hrun hpc hd
    obtain ⟨t, ht, hcyc⟩ := runCycle_of_decode_ok hpc hd Config.timerDivisor inp
    exact ⟨t, ht, (step_of_request_running hs hc hrun).trans hcyc⟩
  · rintro s _ g rest inp hs hc rfl hrun
    exact step_of_request_running hs hc hrun
  · rintro s _ g rest hs rfl hno
    exact step_of_no_cycle hs hno

end Sys2Proof.Machine
end

section
/-! SUPPORT. The display (40_display.md): what 00E0 and Dxyn leave, drawing a sprite twice, and the bit order of the
framebuffer port (R140-R146). -/

namespace Sys2Proof.Machine

/-! ## Frames of the display instructions (R143-R145) -/

/-- Writing the register file, the display and draw_requested and advancing changes no part but PC and those that get
a new value. -/
theorem frame_setDisplay_advance {l : List Part} {s : State} {v : Vector Byte 16} {fb : Vector (BitVec 64) 32}
    {b : Bool} (hl : .display ∈ l ∧ .drawRequested ∈ l ∧ .pc ∈ l) (hv : v = s.v ∨ .regs ∈ l) :
    Frame l s ({ s with v := v, fb := fb, drawRequested := b } : State).advance := by
  obtain ⟨hdisplay, hreq, hpc⟩ := hl
  intro p hp
  cases p with
  | regs => exact s.getV_congr _ (hv.resolve_right hp)
  | display | drawRequested | pc => contradiction
  | memory | stack => exact fun _ => rfl
  | host => exact ⟨rfl, rfl, rfl⟩
  | index | sp | delayTimer | soundTimer | keys | awaitingKey | driver | cyc | lastInstr | err | glyphRom => rfl

/-! ## 00E0 (R144) -/

/-- Settles O34: every row of the new display is zero. -/
theorem clearTurnsEveryPixelOff : Obligations.ClearTurnsEveryPixelOff := by
  refine ⟨rfl, fun s => ⟨_, rfl, fun r c => ?_, rfl, rfl, frame_setDisplay_advance (by decide) (.inl rfl)⟩⟩
  simp [State.pixel, pixelOf]

/-! ## Dxyn (R142-R145) -/

section

variable {s : State} {x y : Reg} {n : Nibble}

/-- A sprite with no row, or with its last row at most at 0xFFF, is drawn. -/
theorem exec_drw_of_readable (h : n = 0 ∨ s.addrI + n.toNat ≤ 0x1000) :
    exec (.drw x y n) s = .next (drawSprite s x y n).advance := by
  have hr : rangeError .read s.addrI n.toNat = none := by
    rcases h with rfl | h
    · exact rangeError_zero .read s.addrI
    · exact rangeError_eq_none.2 fun k hk => accessError_eq_none.2 ⟨by omega, fun hw => by cases hw⟩
  simp only [exec, execDrw, hr, State.raiseOr_none]

/-- A sprite byte above 0xFFF raises the error of the lowest such address (R80, D8). -/
theorem completes_drw_of_unreadable (h : 0x1000 < s.addrI + n.toNat) (hn : n ≠ 0) :
    Completes (.drw x y n) s (Raised ⟨.addressRange, BitVec.ofNat 17 (max s.addrI 0x1000), .read⟩ s) := by
  have hpos : 0 < n.toNat := Nat.pos_of_ne_zero fun h0 => hn (BitVec.eq_of_toNat_eq h0)
  have hk : s.addrI + (0x1000 - s.addrI) = max s.addrI 0x1000 := by omega
  have hlow := (lowestOffendingAddressDecides s _ _ _ (.sprite x y n)).1 (0x1000 - s.addrI) (by omega)
    (.inl (by omega)) (fun j hj hoff => hoff.elim (by omega) fun hw => by cases hw.1)
  rwa [hk, if_pos (by omega)] at hlow

theorem frame_drawSprite_advance :
    Frame [.display, .regs, .drawRequested, .pc] s (drawSprite s x y n).advance :=
  frame_setDisplay_advance (by decide) (.inr (by decide))

/-- A draw from registers other than V[15] leaves the sprite where it was. -/
theorem spriteCovers_drawSprite_advance (hx : x ≠ regVF) (hy : y ≠ regVF) (r : Fin 32) (c : Fin 64) :
    SpriteCovers (drawSprite s x y n).advance x y n r c ↔ SpriteCovers s x y n r c := by
  obtain ⟨-, -, -, hreg⟩ := drawSprite_spec s x y n
  simp only [SpriteCovers, State.getV_advance, hreg x hx, hreg y hy]
  rfl

end

theorem decodeWord_wordXYN_drw (x y : Reg) (n : Nibble) : decodeWord (wordXYN 0xD000 x y n) = .ok (.drw x y n) :=
  (congrArg decodeWord (wordXYN_eq 0xD x y n)).trans (decodeWord_encode (.drw x y n))

/-- Settles O35: a readable sprite is composited as `drawSprite_spec` says, and an unreadable one raises its error. -/
theorem drawXorsSprite : Obligations.DrawXorsSprite := by
  intro s x y n
  refine ⟨decodeWord_wordXYN_drw x y n, fun h => ⟨_, exec_drw_of_readable h, ?_⟩,
    fun hn h => completes_drw_of_unreadable h hn⟩
  obtain ⟨hpix, hone, hzero, hreg⟩ := drawSprite_spec s x y n
  refine ⟨fun r c => (hpix r c).1, fun r c => (hpix r c).2, hone.2, fun hoff => hzero.2 ?_, hreg, rfl, rfl,
    frame_drawSprite_advance⟩
  rintro ⟨r, c, hcov, hon⟩
  exact absurd hon (by simp [hoff r c hcov])

/-- Settles O36: the second draw covers the same pixels, which the first has flipped. -/
theorem drawTwiceRestores : Obligations.DrawTwiceRestores := by
  intro s t u x y n hx hy h ht hu
  obtain rfl := next_inj ((exec_drw_of_readable h).symm.trans ht)
  have hdraw := exec_drw_of_readable (s := (drawSprite s x y n).advance) (x := x) (y := y) h
  obtain rfl := next_inj (hdraw.symm.trans hu)
  obtain ⟨hpix, -⟩ := drawSprite_spec s x y n
  obtain ⟨hpix', hone, -⟩ := drawSprite_spec (drawSprite s x y n).advance x y n
  simp only [spriteCovers_drawSprite_advance hx hy, State.pixel_advance] at hpix' hone
  refine ⟨fun r c => ?_, hone.trans (exists₂_congr fun r c => and_congr_right fun hcov => ?_)⟩
  · rw [State.pixel_advance]
    by_cases hcov : SpriteCovers s x y n r c
    · rw [(hpix' r c).1 hcov, (hpix r c).1 hcov, Bool.not_not]
    · rw [(hpix' r c).2 hcov, (hpix r c).2 hcov]
  · rw [(hpix r c).1 hcov, Bool.not_eq_true']

/-! ## The framebuffer port (R140, R146) -/

/-- Numbers below 2^64 joined with the first lowest: bit `64 k + c` is bit `c` of the k-th. -/
theorem testBit_joined {f : Nat → Nat} (hf : ∀ r, f r < 2 ^ 64) {c : Nat} (hc : c < 64) (l : List Nat) {k : Nat}
    (hk : k < l.length) :
    (l.foldr (fun r acc => acc * 2 ^ 64 + f r) 0).testBit (k * 64 + c) = (f l[k]).testBit c := by
  induction l generalizing k with
  | nil => cases hk
  | cons r l ih =>
    rw [List.foldr_cons, Nat.mul_comm, Nat.testBit_two_pow_mul_add _ (hf r)]
    cases k with
    | zero => rw [if_pos (by omega), Nat.zero_mul, Nat.zero_add, List.getElem_cons_zero]
    | succ k =>
      rw [if_neg (by omega), show (k + 1) * 64 + c - 64 = k * 64 + c by omega, List.getElem_cons_succ]
      exact ih (Nat.lt_of_succ_lt_succ hk)

/-- Settles O38: the port joins the 64-bit rows, row 0 lowest. -/
theorem framebufferBitOrder : Obligations.FramebufferBitOrder := by
  intro s r c
  have hlt : r.val * 64 + c.val < 2048 := by omega
  have hrow : (s.fb[r.val]?.getD 0).toNat.testBit c.val = s.pixel r c := by
    rw [Vector.getElem?_eq_getElem r.isLt]
    rfl
  rw [State.fbOut, BitVec.getLsbD_ofNat, decide_eq_true hlt, Bool.true_and,
    testBit_joined (fun k => (s.fb[k]?.getD 0).isLt) c.isLt (List.range 32) (k := r.val) (by simp), List.getElem_range,
    hrow]

end Sys2Proof.Machine
end

section
/-! SUPPORT. The driver (60_exceptions.md R310): its transitions one request at a time, draw_ack (40_display.md R147), and
what a step leaves in Paused and Stopped. -/

namespace Sys2Proof.Machine

section

variable {s : State}

/-! ## Each request in each driver state (R310, R361) -/

theorem State.pauseReq_of_running (h : s.driver = .running) : s.pauseReq = { s with driver := .paused } := if_pos h

theorem State.pauseReq_of_not_running (h : s.driver ≠ .running) : s.pauseReq = s := if_neg h

theorem State.resumeReq_of_paused (h : s.driver = .paused) : s.resumeReq = { s with driver := .running } := if_pos h

theorem State.resumeReq_of_not_paused (h : s.driver ≠ .paused) : s.resumeReq = s := if_neg h

theorem State.resetReq_of_stopped (h : s.driver = .stopped) : s.resetReq = s := if_pos h

theorem State.resetReq_of_not_stopped (h : s.driver ≠ .stopped) : s.resetReq = s.resetVolatile := if_neg h

/-! ## A gap (R315) -/

/-- A quit that takes effect voids the rest of its gap. -/
theorem State.gapActions_of_quit {g : HostGap} (hq : g.quit = true) (h : s.driver ≠ .stopped) :
    s.gapActions g = s.quitReq := if_pos ⟨hq, h⟩

/-- In Stopped a pause or a resume does nothing. -/
theorem State.driverReq_of_stopped (h : s.driver = .stopped) (r : DriverReq) : s.driverReq r = s := by
  cases r with
  | pause => exact State.pauseReq_of_not_running (by simp [h])
  | resume => exact State.resumeReq_of_not_paused (by simp [h])

theorem State.foldl_driverReq_of_stopped (h : s.driver = .stopped) (l : List DriverReq) :
    l.foldl State.driverReq s = s := by
  induction l with
  | nil => rfl
  | cons r l ih => rw [List.foldl_cons, State.driverReq_of_stopped h, ih]

/-- In Stopped a gap can only clear draw_requested (D18; log entry 11). -/
theorem State.gapActions_of_stopped (h : s.driver = .stopped) (g : HostGap) :
    s.gapActions g = { s with drawRequested := if g.drawAck then false else s.drawRequested } := by
  have hquit : ¬ (g.quit = true ∧ s.driver ≠ .stopped) := fun hq => hq.2 h
  have hreset : (if g.reset then s.resetReq else s) = s := by rw [State.resetReq_of_stopped h, ite_self]
  simp only [State.gapActions, if_neg hquit, hreset, State.foldl_driverReq_of_stopped h]
  cases g.drawAck <;> rfl

end

/-- Settles O52: a gap of one request is that request, whose result in each driver state the lemmas above say. -/
theorem driverTransitions : Obligations.DriverTransitions := by
  refine fun s => ⟨fun hrun => ⟨State.pauseReq_of_running hrun, State.resumeReq_of_not_paused (by simp [hrun])⟩,
    fun hpaused => ⟨State.resumeReq_of_paused hpaused, State.pauseReq_of_not_running (by simp [hpaused])⟩,
    fun hd => ⟨State.gapActions_of_quit rfl hd, rfl, ?_⟩, fun hstop q r l => State.gapActions_of_stopped hstop _,
    fun c => rfl⟩
  rw [State.resetReq_of_not_stopped hd]
  rfl

/-! ## Steps in Paused and Stopped (R310, R320) -/

/-- A step that finds the block not Running, with a gap whose actions write draw_requested at most, is that gap without a
cycle; with the script empty it changes nothing. -/
theorem step_idle_cases {s t : State} (h : step s = .next t) (hd : s.driver ≠ .running) {req : HostGap → Bool}
    (hgap : ∀ g rest, s.nextGap = some (g, rest) →
      ({ s with host := rest } : State).gapActions g = { s with drawRequested := req g, host := rest }) :
    (∃ g rest, s.nextGap = some (g, rest) ∧ t = { s with drawRequested := req g, host := rest }) ∨
      (s.nextGap = none ∧ t = s) := by
  rcases stepWith_cases s Config.timerDivisor with
    ⟨g, rest, hg, u, rfl, ⟨inp, -, hrun, -⟩ | ⟨-, he⟩⟩ | ⟨hs, ⟨hrun, -⟩ | ⟨-, he⟩⟩
  · rw [hgap g rest hg] at hrun
    exact absurd hrun hd
  · exact .inl ⟨g, rest, hg, (next_inj (h.symm.trans he)).trans (hgap g rest hg)⟩
  · exact absurd hrun hd
  · exact .inr ⟨s.nextGap_eq_none.2 hs, next_inj (h.symm.trans he)⟩

/-- Taking entries off the script and writing draw_requested changes no part but the script and draw_requested if it gets a
new value. -/
theorem frame_setDrawRequested_setHost {l : List Part} {s : State} {b : Bool} {rest : List HostGap} (hhost : .host ∈ l)
    (hb : b = s.drawRequested ∨ .drawRequested ∈ l) : Frame l s { s with drawRequested := b, host := rest } := by
  intro p hp
  cases p with
  | host => exact absurd hhost hp
  | drawRequested => exact hb.resolve_right hp
  | regs | memory | stack => exact fun _ => rfl
  | display => exact fun _ _ => rfl
  | index | pc | sp | delayTimer | soundTimer | keys | awaitingKey | driver | cyc | lastInstr | err | glyphRom => rfl

/-- Settles O51: in Stopped the step is a gap that can only clear draw_requested; in Paused it is a gap with no action. -/
theorem idleStatesHoldEverything : Obligations.IdleStatesHoldEverything := by
  refine fun s t h => ⟨fun hstop => ?_, fun hpaused hquiet => ?_⟩
  · rcases step_idle_cases h (by simp [hstop]) (req := fun g => if g.drawAck then false else s.drawRequested)
        (fun g rest _ => State.gapActions_of_stopped (s := { s with host := rest }) hstop g) with
      ⟨g, rest, hg, rfl⟩ | ⟨hnone, rfl⟩
    · refine ⟨frame_setDrawRequested_setHost (by decide) (.inr (by decide)), fun g' rest' hg' => ?_, fun hs => ?_⟩
      · cases hg.symm.trans hg'
        rfl
      · cases hg.symm.trans (s.nextGap_eq_none.2 hs)
    · refine ⟨Frame.refl _ _, fun g rest hg => ?_, fun _ => rfl⟩
      cases hnone.symm.trans hg
  · have hgap g rest (hg : s.nextGap = some (g, rest)) :
        ({ s with host := rest } : State).gapActions g = { s with host := rest } := by
      obtain ⟨c, rfl⟩ := hquiet g rest hg
      rfl
    rcases step_idle_cases h (by simp [hpaused]) (req := fun _ => s.drawRequested) hgap with
      ⟨g, rest, -, rfl⟩ | ⟨-, rfl⟩
    · exact frame_setDrawRequested_setHost (by decide) (.inl rfl)
    · exact Frame.refl _ _

end Sys2Proof.Machine
end

section
/-! SUPPORT. Control transfer (41_control_flow.md): what the jumps, the calls, the returns and the register skips leave,
and where PC goes after each instruction (R160-R169). -/

namespace Sys2Proof.Machine

/-! ## The words (30_encoding.md R101, R104) -/

/-- A word laid out as an instruction's encoding decodes to the instruction. -/
theorem decodeWord_of_eq_encode {w : Word} {i : Instr} (h : w = encode i) : decodeWord w = .ok i :=
  h ▸ decodeWord_encode i

/-- Families 0x5 and 0x9 have no instruction with a last nibble other than 0 (R167, R168, 30_encoding.md R106). -/
theorem decodeWord_wordXYN_error {m : Word} {f n : Nibble} (hm : m = f ++ 0#12) (hf : f = 0x5#4 ∨ f = 0x9#4)
    (hn : n ≠ 0) (x y : Reg) : decodeWord (wordXYN m x y n) = .error (.decodeFailure (wordXYN m x y n)) := by
  have hlast : fieldN (f ++ x ++ y ++ n) ≠ 0#4 := by rwa [fieldN_xyn]
  rw [hm, wordXYN_eq]
  rcases hf with rfl | rfl
  · rw [decodeWord_family5 (fieldFamily_xyn ..), if_neg hlast]
  · rw [decodeWord_family9 (fieldFamily_xyn ..), if_neg hlast]

/-! ## Jumps (R163, R169) -/

/-- The fetch after a jump above 0xFFE fails, at the target or at the second byte of 0xFFF (20_memory.md R77). -/
theorem nextFetchFails_of_pc {t : State} {a : Nat} (hpc : t.pc.toNat = a) (ha : 0xFFE < a) :
    NextFetchFails t (max a 0x1000) := by
  subst hpc
  exact t.fetch16_error ha

/-- Settles O17: the target is the exact number, and above 0xFFE no word can be fetched from it. -/
theorem jumpTargets : Obligations.JumpTargets := by
  intro s nnn
  have habs : (s.setPC (absoluteAddr nnn)).pc.toNat = nnn.toNat := absoluteAddr_toNat nnn
  have hidx : (s.setPC (indexedTarget s nnn)).pc.toNat = nnn.toNat + (s.getV 0).toNat := indexedTarget_toNat s nnn
  refine ⟨decodeWord_of_eq_encode (wordNNN_eq 0x1 nnn), ⟨_, rfl, habs, frame_setPC s _, ?_⟩,
    decodeWord_of_eq_encode (wordNNN_eq 0xB nnn), ⟨_, rfl, hidx, frame_setPC s _, nextFetchFails_of_pc hidx⟩⟩
  rintro rfl
  exact nextFetchFails_of_pc habs (by decide)

/-! ## The stack (R162, R164) -/

section

variable {s : State} {nnn : Addr12}

theorem exec_call_of_lt (h : s.sp.val < 16) : exec (.call nnn) s = .next { s with
    stack := s.stack.set s.sp.val (s.pc + 2) h, sp := ⟨s.sp.val + 1, by omega⟩, pc := absoluteAddr nnn } := by
  simp only [exec, execCall, s.push?_of_lt _ h, State.setPC]

theorem exec_call_of_full (h : s.sp.val = 16) :
    exec (.call nnn) s = .next (s.raise ⟨.stackOverflow, 16, .none⟩) := by
  simp only [exec, execCall, s.push?_of_full _ h]

theorem exec_ret_of_pos (h : 0 < s.sp.val) : exec .ret s = .next { s with
    sp := ⟨s.sp.val - 1, by omega⟩, pc := s.stackAt ⟨s.sp.val - 1, by omega⟩ } := by
  simp only [exec, execRet, s.pop?_of_pos h]
  rfl

theorem exec_ret_of_empty (h : s.sp.val = 0) : exec .ret s = .next (s.raise ⟨.stackUnderflow, 0, .none⟩) := by
  simp only [exec, execRet, s.pop?_of_empty h]

/-- An entry of the stack after one entry was written. -/
theorem stackAt_of_stack_set {t : State} {k : Nat} (hk : k < 16) {a : Word} (h : t.stack = s.stack.set k a hk)
    (j : Fin 16) : t.stackAt j = if k = j.val then a else s.stackAt j := by
  simp only [State.stackAt, h, Fin.getElem_fin, Vector.getElem_set]

/-- Writing the stack, SP and PC changes no other part, and not the stack if its entries stay. -/
theorem frame_setStack {l : List Part} {st : Vector Word 16} {k : Fin 17} {a : Word} (hl : .pc ∈ l ∧ .sp ∈ l)
    (hst : st = s.stack ∨ .stack ∈ l) : Frame l s { s with stack := st, sp := k, pc := a } := by
  obtain ⟨hpc, hsp⟩ := hl
  intro p hp
  cases p with
  | pc | sp => contradiction
  | stack => exact s.stackAt_congr _ (hst.resolve_right hp)
  | regs | memory => exact fun _ => rfl
  | display => exact fun _ _ => rfl
  | host => exact ⟨rfl, rfl, rfl⟩
  | index | delayTimer | soundTimer | keys | drawRequested | awaitingKey | driver | cyc | lastInstr | err | glyphRom =>
    rfl

end

/-- Settles O18: the push writes the entry at SP only, and there is none to write at SP = 16. -/
theorem callPushesReturnAddress : Obligations.CallPushesReturnAddress := by
  refine fun s nnn => ⟨decodeWord_of_eq_encode (wordNNN_eq 0x2 nnn), fun h => ⟨_, exec_call_of_lt h, ?_⟩,
    fun h => completes_raise (exec_call_of_full h)⟩
  refine ⟨?_, fun j hj => ?_, rfl, absoluteAddr_toNat nnn, frame_setStack (by decide) (.inr (by decide))⟩
  · rw [stackAt_of_stack_set h rfl, if_pos rfl]
  · rw [stackAt_of_stack_set h rfl, if_neg hj.symm]

/-- Settles O19: the pop reads the entry below SP, and there is none at SP = 0. -/
theorem returnPopsIntoPC : Obligations.ReturnPopsIntoPC :=
  ⟨rfl, fun _ => ⟨fun h => ⟨_, exec_ret_of_pos h, rfl, rfl, frame_setStack (by decide) (.inl rfl)⟩,
    fun h => completes_raise (exec_ret_of_empty h)⟩⟩

/-- Settles O20: the return reads the entry the call wrote at its SP. -/
theorem callThenReturnResumes : Obligations.CallThenReturnResumes := by
  intro s t u nnn h hcall hstack hsp
  obtain rfl := next_inj ((exec_call_of_lt h).symm.trans hcall)
  have hsp' : u.sp.val = s.sp.val + 1 := congrArg Fin.val hsp
  have hret := exec_ret_of_pos (s := u) (by omega)
  refine ⟨_, hret, ?_, Fin.ext (by simp [hsp']), fun j hj => ?_⟩
  · exact (stackAt_of_stack_set h hstack _).trans (if_pos (by simp [hsp']))
  · exact (stackAt_of_stack_set h hstack j).trans (if_neg (by omega))

/-! ## Register skips (R165-R168) -/

/-- Settles O21: each skip's condition is the comparison of its operands. -/
theorem registerSkips : Obligations.RegisterSkips := fun _ x y kk =>
  ⟨decodeWord_of_eq_encode (wordXKK_eq 0x3 x kk), skipsWhen_of_exec rfl decide_eq_true_iff,
    decodeWord_of_eq_encode (wordXKK_eq 0x4 x kk), skipsWhen_of_exec rfl decide_eq_true_iff,
    decodeWord_of_eq_encode (wordXY_eq 0x5 x y 0), skipsWhen_of_exec rfl decide_eq_true_iff,
    decodeWord_of_eq_encode (wordXY_eq 0x9 x y 0), skipsWhen_of_exec rfl decide_eq_true_iff,
    fun _ hn => ⟨decodeWord_wordXYN_error (f := 0x5) rfl (.inl rfl) hn x y,
      decodeWord_wordXYN_error (f := 0x9) rfl (.inr rfl) hn x y⟩⟩

/-! ## Where PC goes (R160, R161) -/

/-- An instruction that does not stop the block raised no error. -/
theorem State.raiseOr_of_running {s t : State} {e? : Option BlockError}
    (h : (s.raiseOr e? t).driver = .running) : s.raiseOr e? t = t := by
  cases e? with
  | none => rfl
  | some e => cases h

/-- The key scan finds nothing exactly when every key line is 0 (44_keys_timers.md R267). -/
theorem State.lowestKey?_eq_none_iff_key (s : State) : s.lowestKey? = none ↔ s.key = 0 := by
  rw [s.lowestKey?_eq_none]
  constructor
  · exact fun h => BitVec.eq_of_getLsbD_eq fun k hk => (h k hk).trans BitVec.getLsbD_zero.symm
  · intro h k _
    rw [State.keyDown, h]
    exact BitVec.getLsbD_zero

section

variable {s t : State} (hpc : s.pc.toNat ≤ 0xFFE)
include hpc

/-- From an address of memory the default advance does not wrap. -/
theorem advance_pc_toNat (ht : t.pc = s.pc) : (t.advance).pc.toNat = s.pc.toNat + 2 := by
  rw [State.advance_pc, ht]
  bv_omega

/-- From an address of memory a skip does not wrap. -/
theorem skipIf_pc_toNat (c : Bool) : (s.skipIf c).pc.toNat = s.pc.toNat + if c then 4 else 2 := by
  rw [State.skipIf_pc]
  split <;> bv_omega

/-- Fx0A stays while no key is down and advances with the first that is (44_keys_timers.md R267). -/
theorem exec_ldVxK_pc {x : Reg} (h : exec (.ldVxK x) s = .next t) : t.pc.toNat = nextPC (.ldVxK x) s := by
  obtain rfl := next_inj h
  rw [nextPC]
  cases hk : s.lowestKey? with
  | none => rw [if_pos (s.lowestKey?_eq_none_iff_key.1 hk)]; rfl
  | some k =>
    have hdown : s.key ≠ 0 := mt s.lowestKey?_eq_none_iff_key.2 (by simp [hk])
    rw [if_neg hdown]
    exact advance_pc_toNat hpc rfl

end

section

variable {s t : State} (hrun : t.driver = .running)
include hrun

theorem exec_ret_pc (h : exec .ret s = .next t) : t.pc.toNat = nextPC .ret s := by
  by_cases hs : 0 < s.sp.val
  · obtain rfl := next_inj ((exec_ret_of_pos hs).symm.trans h)
    rw [nextPC, Vector.getElem?_eq_getElem (by omega)]
    rfl
  · obtain rfl := next_inj ((exec_ret_of_empty (by omega)).symm.trans h)
    cases hrun

theorem exec_call_pc {nnn : Addr12} (h : exec (.call nnn) s = .next t) : t.pc.toNat = nextPC (.call nnn) s := by
  by_cases hs : s.sp.val < 16
  · obtain rfl := next_inj ((exec_call_of_lt hs).symm.trans h)
    exact absoluteAddr_toNat nnn
  · obtain rfl := next_inj ((exec_call_of_full (by omega)).symm.trans h)
    cases hrun

/-- PC after an instruction that raises no error, constructor by constructor. -/
theorem exec_pc_toNat {i : Instr} (h : exec i s = .next t) (hpc : s.pc.toNat ≤ 0xFFE) :
    t.pc.toNat = nextPC i s := by
  cases i
  case ret => exact exec_ret_pc hrun h
  case call => exact exec_call_pc hrun h
  case ldVxK => exact exec_ldVxK_pc hpc h
  case jp nnn => obtain rfl := next_inj h; exact absoluteAddr_toNat nnn
  case jpV0 nnn => obtain rfl := next_inj h; exact indexedTarget_toNat s nnn
  case seImm | sneImm | seReg | sneReg =>
    obtain rfl := next_inj h
    exact (skipIf_pc_toNat hpc _).trans (by simp [nextPC])
  case skp =>
    obtain rfl := next_inj h
    rw [State.raiseOr_of_running hrun]
    exact skipIf_pc_toNat hpc _
  case sknp x =>
    obtain rfl := next_inj h
    rw [State.raiseOr_of_running hrun, skipIf_pc_toNat hpc, State.keyDown, nextPC]
    cases s.key.getLsbD (s.getV x).toNat <;> rfl
  case cls | ldImm | addImm | ldReg | orReg | andReg | xorReg | addReg | sub | shr | subn | shl | ldI | rnd | ldVxDT
      | ldDTVx | ldSTVx | ldFVx =>
    obtain rfl := next_inj h
    exact advance_pc_toNat hpc rfl
  case drw | addIVx | ldBVx | ldMemVx =>
    obtain rfl := next_inj h
    rw [State.raiseOr_of_running hrun]
    exact advance_pc_toNat hpc rfl
  case ldVxMem x =>
    obtain rfl := next_inj h
    obtain ⟨-, hload, -⟩ := s.loadRegs_fields s.addrI x
    rw [State.raiseOr_of_running hrun]
    exact advance_pc_toNat hpc hload

end

/-- Settles O23: `exec_pc_toNat` where no error is raised; one that is changes err and the driver only. -/
theorem pcAfterEachInstruction : Obligations.PcAfterEachInstruction := by
  refine fun i s t hpc hrun h => ⟨fun hrun' => exec_pc_toNat hrun' h hpc, fun hstop => ?_⟩
  rcases exec_driver_fields h with ⟨e, rfl⟩ | ⟨-, hdriver, -⟩
  · rfl
  · exact absurd (hdriver.trans hrun) hstop

end Sys2Proof.Machine
end

section
/-! SUPPORT. Register loads and the ALU (42_alu.md): what each instruction leaves in V[x] and in the flag register, as
exact numbers (R193-R204), and which instructions write the flag (R192). -/

namespace Sys2Proof.Machine

/-! ## The bits and differences of a byte (R200-R203) -/

/-- The difference modulo 256 as a sum that does not go below 0. -/
theorem byte_sub_toNat (a b : Byte) : (a - b).toNat = (a.toNat + 256 - b.toNat) % 256 := by
  have := b.isLt
  rw [BitVec.toNat_sub]
  omega

theorem byte_shiftRight_one_toNat (a : Byte) : (a >>> 1).toNat = a.toNat / 2 := by
  rw [BitVec.toNat_ushiftRight, Nat.shiftRight_one]

theorem byte_shiftLeft_one_toNat (a : Byte) : (a <<< 1).toNat = 2 * a.toNat % 256 := by
  rw [BitVec.toNat_shiftLeft, Nat.shiftLeft_eq, Nat.mul_comm]

theorem byte_bit_zero_iff (a : Byte) : a.getLsbD 0 = true ↔ a.toNat % 2 = 1 := by
  rw [BitVec.getLsbD, Nat.testBit_zero, decide_eq_true_iff]

theorem byte_bit_seven_iff (a : Byte) : a.getLsbD 7 = true ↔ 128 ≤ a.toNat := by
  rw [← BitVec.msb_eq_getLsbD_last a, BitVec.msb_eq_decide, decide_eq_true_iff]

/-! ## Arithmetic with a flag (R199-R203) -/

/-- Settles O10: the result is the sum of the two bytes, and the flag compares the exact sum with 255. -/
theorem addSetsCarry : Obligations.AddSetsCarry := fun s x y =>
  ⟨decodeWord_of_eq_encode (wordXY_eq 0x8 x y 0x4),
    setsRegAndFlag_of_exec rfl (BitVec.toNat_add (s.getV x) (s.getV y)) decide_eq_true_iff⟩

/-- Settles O11: both are a difference of bytes, and the flag compares them the same way round. -/
theorem subtractionsSetFlag : Obligations.SubtractionsSetFlag := fun _ x y =>
  ⟨decodeWord_of_eq_encode (wordXY_eq 0x8 x y 0x5),
    setsRegAndFlag_of_exec rfl (byte_sub_toNat _ _) decide_eq_true_iff,
    decodeWord_of_eq_encode (wordXY_eq 0x8 x y 0x7),
    setsRegAndFlag_of_exec rfl (byte_sub_toNat _ _) decide_eq_true_iff⟩

/-- Settles O12: the flag is the bit the shift drops, and no y occurs in either meaning. -/
theorem shiftsSetFlag : Obligations.ShiftsSetFlag := fun _ x y =>
  ⟨decodeWord_of_eq_encode (wordXY_eq 0x8 x y 0x6),
    setsRegAndFlag_of_exec rfl (byte_shiftRight_one_toNat _) (byte_bit_zero_iff _),
    decodeWord_of_eq_encode (wordXY_eq 0x8 x y 0xE),
    setsRegAndFlag_of_exec rfl (byte_shiftLeft_one_toNat _) (byte_bit_seven_iff _),
    fun _ => ⟨rfl, rfl⟩⟩

/-! ## Loads, moves and logic without a flag (R193-R198, R204) -/

/-- Settles O8: the byte written is kk, or the sum with it. -/
theorem immediateLoadAndAdd : Obligations.ImmediateLoadAndAdd := fun s x kk =>
  ⟨decodeWord_of_eq_encode (wordXKK_eq 0x6 x kk), setsReg_of_exec rfl rfl,
    decodeWord_of_eq_encode (wordXKK_eq 0x7 x kk), setsReg_of_exec rfl (BitVec.toNat_add (s.getV x) kk)⟩

/-- Settles O9: the byte written is V[y], or a bitwise operation on V[x] and V[y]. -/
theorem registerMovesAndLogic : Obligations.RegisterMovesAndLogic := fun _ x y =>
  ⟨decodeWord_of_eq_encode (wordXY_eq 0x8 x y 0x0), setsReg_of_exec rfl rfl,
    decodeWord_of_eq_encode (wordXY_eq 0x8 x y 0x1), setsReg_of_exec rfl (BitVec.toNat_or _ _),
    decodeWord_of_eq_encode (wordXY_eq 0x8 x y 0x2), setsReg_of_exec rfl (BitVec.toNat_and _ _),
    decodeWord_of_eq_encode (wordXY_eq 0x8 x y 0x3), setsReg_of_exec rfl (BitVec.toNat_xor _ _)⟩

/-- Settles O13: the random byte read is the one the cycle's input brought. -/
theorem randomByteIsMasked : Obligations.RandomByteIsMasked := fun _ x kk inp _ =>
  ⟨decodeWord_of_eq_encode (wordXKK_eq 0xC x kk), setsReg_of_exec rfl (BitVec.toNat_and inp.rand kk)⟩

/-! ## Who writes the flag (R192) -/

theorem flagByte_zero_or_one (c : Bool) : flagByte c = 0 ∨ flagByte c = 1 := by
  cases c
  · exact .inl rfl
  · exact .inr rfl

/-- An instruction that writes the flag and raises no error leaves a flag byte in V[15]. -/
theorem exec_getV_regVF_of_writesFlag {i : Instr} {s t : State} (hi : writesFlag i = true) (h : exec i s = .next t)
    (hrun : t.driver = .running) : ∃ c, t.getV regVF = flagByte c := by
  cases i
  case addReg | sub | shr | subn | shl =>
    obtain rfl := next_inj h
    exact ⟨_, State.getV_setV_self _ _ _⟩
  case drw =>
    obtain rfl := next_inj h
    rw [State.raiseOr_of_running hrun]
    exact ⟨_, State.getV_setV_self _ _ _⟩
  all_goals cases hi

/-- A load, a move, an add of an immediate or a logic operation writes its destination alone. -/
theorem writesReg_eq_false_of_mem {i : Instr} {x y r : Reg} {kk : Byte} (hr : x ≠ r)
    (hi : i ∈ [Instr.ldImm x kk, .addImm x kk, .ldReg x y, .orReg x y, .andReg x y, .xorReg x y, .rnd x kk]) :
    writesReg i r = false := by
  have hne : (r == x) = false := beq_false_of_ne hr.symm
  simp only [List.mem_cons, List.not_mem_nil, or_false] at hi
  rcases hi with rfl | rfl | rfl | rfl | rfl | rfl | rfl <;> exact hne

/-- Settles O14: a flag writer leaves a flag byte, and `registerWriters` says what the others leave alone. -/
theorem flagOnlyFromFlagInstructions : Obligations.FlagOnlyFromFlagInstructions := by
  refine fun i s t h => ⟨fun hi _ hrun => ?_, fun _ hw => registerWriters i s t 15 h hw,
    fun x y kk hx hi => registerWriters i s t 15 h (writesReg_eq_false_of_mem hx hi)⟩
  obtain ⟨c, hc⟩ := exec_getV_regVF_of_writesFlag hi h hrun
  exact hc ▸ flagByte_zero_or_one c

end Sys2Proof.Machine
end

section
/-! SUPPORT. The index register and the moves between registers and memory (43_index_memory.md, R231-R236): what each
instruction leaves, and the error of a range outside 0x050-0xFFF (20_memory.md R80). -/

namespace Sys2Proof.Machine

/-! ## The numbers of the operands (R232-R236) -/

theorem glyphAddr_toNat (d : Byte) : (glyphAddr d).toNat = d.toNat * 5 := by
  have := d.isLt
  simp only [glyphAddr, BitVec.toNat_mul, BitVec.toNat_setWidth, BitVec.reduceToNat]
  omega

theorem advancedI_toNat {s : State} {x : Reg} (h : s.addrI + x.toNat ≤ 0xFFF) :
    (advancedI s x).toNat = s.addrI + x.toNat + 1 := by
  rw [advancedI, BitVec.toNat_ofNat, Nat.mod_eq_of_lt (by omega)]

/-! ## I (R231-R233) -/

/-- Settles O24: both write I with an exact number and advance. -/
theorem indexLoads : Obligations.IndexLoads := fun s x nnn =>
  ⟨decodeWord_of_eq_encode (wordNNN_eq 0xA nnn), ⟨_, rfl, absoluteAddr_toNat nnn, rfl, frame_setI_advance s _⟩,
    decodeWord_of_eq_encode (wordX_eq 0xF x 0x29), ⟨_, rfl, glyphAddr_toNat _, rfl, frame_setI_advance s _⟩⟩

/-- A sum of 16 bits is written to I. -/
theorem exec_addIVx_of_le {s : State} {x : Reg} (h : indexSum s x ≤ 0xFFFF) :
    exec (.addIVx x) s = .next (s.setI (BitVec.ofNat 16 (indexSum s x))).advance := by
  have hnone : indexSumError s x = none := if_neg (by omega)
  simp only [exec, execAddIVx, hnone, State.raiseOr_none]

/-- A wider sum raises I_OVERFLOW(I) (D7). -/
theorem exec_addIVx_of_gt {s : State} {x : Reg} (h : 0xFFFF < indexSum s x) :
    exec (.addIVx x) s = .next (s.raise ⟨.iOverflow, s.regI.setWidth 17, .none⟩) := by
  have hsome : indexSumError s x = some ⟨.iOverflow, s.regI.setWidth 17, .none⟩ := if_pos h
  simp only [exec, execAddIVx, hsome, State.raiseOr_some]

/-- Settles O25: the exact sum either fits I or is the error. -/
theorem indexAddWidens : Obligations.IndexAddWidens := by
  refine fun s x => ⟨decodeWord_of_eq_encode (wordX_eq 0xF x 0x1E), fun h => ?_,
    fun h => completes_raise (exec_addIVx_of_gt h)⟩
  refine ⟨_, exec_addIVx_of_le h, ?_, rfl, frame_setI_advance s _⟩
  exact Nat.mod_eq_of_lt (Nat.lt_succ_of_le h)

/-! ## The error of a range (20_memory.md R80) -/

section

variable {i : Instr} {kind : AccessKind} {n : Nat} {s : State}

theorem MovesBytes.le_sixteen (h : MovesBytes i kind n) : n ≤ 16 := by
  cases h with
  | sprite _ _ n => exact n.isLt.le
  | decimal => decide
  | store x | load x => exact x.isLt

/-- A range that ends above 0xFFF raises ADDRESS_RANGE with the lowest address above it (D8): a range of at most 16
bytes that reaches so far has no byte in the glyph table. -/
theorem MovesBytes.completes_addressRange (h : MovesBytes i kind (n + 1)) (hend : 0xFFF < s.addrI + n) :
    Completes i s (Raised ⟨.addressRange, BitVec.ofNat 17 (max s.addrI 0x1000), kind⟩ s) := by
  have hn := h.le_sixteen
  have hk : s.addrI + (0x1000 - s.addrI) = max s.addrI 0x1000 := by omega
  have hlow := (lowestOffendingAddressDecides s i kind _ h).1 (0x1000 - s.addrI) (by omega) (.inl (by omega))
    fun j hj hoff => hoff.elim (by omega) fun ⟨_, hglyph⟩ => by omega
  rwa [hk, if_pos (by omega)] at hlow

/-- A write that begins in the glyph table raises GLYPH_WRITE(I) (D9). -/
theorem MovesBytes.completes_glyphWrite (h : MovesBytes i .write (n + 1)) (hglyph : s.addrI < 0x050) :
    Completes i s (Raised ⟨.glyphWrite, BitVec.ofNat 17 s.addrI, .none⟩ s) := by
  have hlow := (lowestOffendingAddressDecides s i .write _ h).1 0 n.succ_pos (.inr ⟨rfl, Nat.le_of_lt_succ hglyph⟩)
    fun j hj => absurd hj j.not_lt_zero
  rwa [if_neg (by omega)] at hlow

end

/-! ## What stored bytes read as (20_memory.md R79) -/

section

variable {s : State} {a : Nat} {bs : List Byte}

theorem State.readByte_storeBytes_inside (hwf : Memory.wf s.glyphRom s.mem = true) (h : a + bs.length ≤ 0x1000)
    {k : Nat} (hk : k < bs.length) : (s.storeBytes a bs).readByte (a + k) = bs[k] :=
  Memory.read_writeBytes_inside hwf a bs h k hk

theorem State.readByte_storeBytes_outside {c : Nat} (h : c < a ∨ a + bs.length ≤ c) :
    (s.storeBytes a bs).readByte c = s.readByte c := Memory.read_writeBytes_outside s.mem a c bs h

end

/-- Writing memory, the register file and I and advancing changes no part but PC, I and those that get a new value. -/
theorem frame_setIndex_advance {l : List Part} {s : State} {m : Memory} {v : Vector Byte 16} {a : Word}
    (hl : .index ∈ l ∧ .pc ∈ l) (hm : m = s.mem ∨ .memory ∈ l) (hv : v = s.v ∨ .regs ∈ l) :
    Frame l s ({ s with mem := m, v := v, regI := a } : State).advance := by
  obtain ⟨hindex, hpc⟩ := hl
  intro p hp
  cases p with
  | index | pc => contradiction
  | memory => exact s.readByte_congr _ (hm.resolve_right hp) rfl
  | regs => exact s.getV_congr _ (hv.resolve_right hp)
  | stack => exact fun _ => rfl
  | display => exact fun _ _ => rfl
  | host => exact ⟨rfl, rfl, rfl⟩
  | sp | delayTimer | soundTimer | keys | drawRequested | awaitingKey | driver | cyc | lastInstr | err | glyphRom => rfl

section

variable {s : State} {x : Reg}

/-! ## Fx33 (R234) -/

/-- With its three bytes in 0x050-0xFFF, an Fx33 stores the digits and advances. -/
theorem exec_ldBVx_of_inRange (hlo : 0x050 ≤ s.addrI) (hhi : s.addrI + 2 ≤ 0xFFF) :
    exec (.ldBVx x) s = .next (s.storeBytes s.addrI (bcdDigits (s.getV x))).advance := by
  have hr : rangeError .write s.addrI 3 = none := (rangeError_write_eq_none (by omega)).2 ⟨hlo, by omega⟩
  simp only [exec, execLdBVx, hr, State.raiseOr_none]

/-- The bytes an Fx33 stores. -/
theorem readByte_storeBytes_bcdDigits (hwf : Memory.wf s.glyphRom s.mem = true) {a : Nat} (ha : a + 2 ≤ 0xFFF)
    (b : Byte) {k : Nat} (hk : k < 3) : (s.storeBytes a (bcdDigits b)).readByte (a + k) = (bcdDigits b)[k] :=
  State.readByte_storeBytes_inside hwf (by simp only [bcdDigits, List.length_cons, List.length_nil]; omega) hk

/-! ## Fx55 (R235) -/

/-- With its bytes in 0x050-0xFFF, an Fx55 stores V[0..x] and advances I and PC. -/
theorem exec_ldMemVx_of_inRange (hlo : 0x050 ≤ s.addrI) (hhi : s.addrI + x.toNat ≤ 0xFFF) :
    exec (.ldMemVx x) s = .next ((s.storeBytes s.addrI (s.regBytes x)).setI (advancedI s x)).advance := by
  have hr : rangeError .write s.addrI (x.toNat + 1) = none := (rangeError_write_eq_none (by omega)).2 ⟨hlo, by omega⟩
  simp only [exec, execLdMemVx, hr, State.raiseOr_none]

/-- The bytes an Fx55 stores. -/
theorem readByte_storeBytes_regBytes (hwf : Memory.wf s.glyphRom s.mem = true) {a : Nat} (ha : a + x.toNat ≤ 0xFFF)
    {k : Reg} (hk : k.toNat ≤ x.toNat) : (s.storeBytes a (s.regBytes x)).readByte (a + k.toNat) = s.getV k := by
  have hlen := s.regBytes_length x
  rw [State.readByte_storeBytes_inside hwf (by omega) (by omega), State.regBytes_getElem, BitVec.ofNat_toNat,
    BitVec.setWidth_eq]

/-! ## Fx65 (R236) -/

/-- With its bytes at most at 0xFFF, an Fx65 loads V[0..x] and advances I and PC. -/
theorem exec_ldVxMem_of_inRange (h : s.addrI + x.toNat ≤ 0xFFF) :
    exec (.ldVxMem x) s = .next ((s.loadRegs s.addrI x).setI (advancedI s x)).advance := by
  have hr : rangeError .read s.addrI (x.toNat + 1) = none :=
    (rangeError_read_eq_none (by decide) (by omega)).2 (by omega)
  simp only [exec, execLdVxMem, hr, State.raiseOr_none]

theorem frame_loadRegs_setI_advance (a : Nat) (b : Word) :
    Frame [.regs, .index, .pc] s ((s.loadRegs a x).setI b).advance := by
  rw [s.loadRegs_eq]
  exact frame_setIndex_advance (by decide) (.inl rfl) (.inr (by decide))

/-- The registers an Fx65 loads. -/
theorem getV_loadRegs_of_le {a : Nat} {k : Reg} (hk : k.toNat ≤ x.toNat) :
    (s.loadRegs a x).getV k = s.readByte (a + k.toNat) := (s.getV_loadRegs a x k).trans (if_pos hk)

/-- The registers an Fx65 leaves alone. -/
theorem getV_loadRegs_of_gt {a : Nat} {k : Reg} (hk : x.toNat < k.toNat) : (s.loadRegs a x).getV k = s.getV k :=
  (s.getV_loadRegs a x k).trans (if_neg hk.not_ge)

/-- An Fx65 in a memory that reads as an Fx55 left it, from the I of that Fx55, gives the registers stored. -/
theorem completes_ldVxMem_after_ldMemVx {r t u : State} (hwf : Memory.wf r.glyphRom r.mem = true)
    (hst : exec (.ldMemVx x) r = .next t) (hrun : t.driver = .running) (hread : ∀ a, u.readByte a = t.readByte a)
    (hI : u.regI = r.regI) : Completes (.ldVxMem x) u fun v => ∀ k : Reg, k.toNat ≤ x.toNat → v.getV k = r.getV k := by
  have haddr : u.addrI = r.addrI := congrArg BitVec.toNat hI
  obtain ⟨hhi, -⟩ := exec_ldMemVx_of_running hst hrun
  refine ⟨_, exec_ldVxMem_of_inRange (by omega), fun k hk => ?_⟩
  calc (u.loadRegs u.addrI x).getV k
      = u.readByte (u.addrI + k.toNat) := getV_loadRegs_of_le hk
    _ = t.readByte (r.addrI + k.toNat) := by rw [hread, haddr]
    _ = r.getV k := exec_ldMemVx_readByte_inside hst hwf hrun hk

end

/-! ## The three instructions in and out of range -/

/-- Settles O26: inside its range the store's bytes are the digits, and outside it the lowest address decides. -/
theorem decimalDigitsStored : Obligations.DecimalDigitsStored := by
  refine fun s x hwf => ⟨decodeWord_of_eq_encode (wordX_eq 0xF x 0x33), fun hlo hhi => ?_,
    (MovesBytes.decimal x).completes_glyphWrite, (MovesBytes.decimal x).completes_addressRange⟩
  have hdigit := fun k (hk : k < 3) => congrArg BitVec.toNat (readByte_storeBytes_bcdDigits hwf hhi (s.getV x) hk)
  exact ⟨_, exec_ldBVx_of_inRange hlo hhi, hdigit 0 (by decide), hdigit 1 (by decide), hdigit 2 (by decide),
    fun a ha => State.readByte_storeBytes_outside (s := s) (bs := bcdDigits (s.getV x)) ha, rfl,
    frame_storeBytes_advance s _ _⟩

/-- Settles O27: inside its range the store's bytes are the registers, and outside it the lowest address decides. -/
theorem registersStored : Obligations.RegistersStored := by
  refine fun s x hwf => ⟨decodeWord_of_eq_encode (wordX_eq 0xF x 0x55), fun hlo hhi => ?_,
    (MovesBytes.store x).completes_glyphWrite, (MovesBytes.store x).completes_addressRange⟩
  have hex := exec_ldMemVx_of_inRange hlo hhi
  exact ⟨_, hex, fun k hk => readByte_storeBytes_regBytes hwf hhi hk, fun a ha => exec_ldMemVx_readByte_outside hex ha,
    advancedI_toNat hhi, rfl, frame_setIndex_advance (by decide) (.inr (by decide)) (.inl rfl)⟩

/-- Settles O28: the load reads the bytes at I, which after a store from the same I are the registers. -/
theorem registersLoaded : Obligations.RegistersLoaded := by
  refine fun s x => ⟨decodeWord_of_eq_encode (wordX_eq 0xF x 0x65), fun h => ?_,
    (MovesBytes.load x).completes_addressRange,
    fun r t u hwf _ hst hrun hread hI => completes_ldVxMem_after_ldMemVx hwf hst hrun hread hI⟩
  refine ⟨_, exec_ldVxMem_of_inRange h, fun k => getV_loadRegs_of_le, fun k => getV_loadRegs_of_gt,
    advancedI_toNat h, ?_, frame_loadRegs_setI_advance _ _⟩
  obtain ⟨-, hpc, -⟩ := s.loadRegs_fields s.addrI x
  exact congrArg (· + 2) hpc

end Sys2Proof.Machine
end

section
/-! SUPPORT. The key instructions (44_keys_timers.md): the two key skips with KEY_INDEX_RANGE (R261-R263), and the wait for
a key (R267). -/

namespace Sys2Proof.Machine

section

variable {s : State} {x : Reg}

/-! ## Key skips (R261-R263) -/

theorem keyIndexError_of_le {k : Byte} (h : k.toNat ≤ 15) : keyIndexError k = none := if_neg h.not_gt

theorem keyIndexError_of_gt {k : Byte} (h : 15 < k.toNat) :
    keyIndexError k = some ⟨.keyIndexRange, k.setWidth 17, .none⟩ := if_pos h

/-- Ex9E of a key number skips by that key's line. -/
theorem exec_skp_of_le (h : (s.getV x).toNat ≤ 15) :
    exec (.skp x) s = .next (s.skipIf (s.keyDown (s.getV x).toNat)) := by
  simp only [exec, execSkp, keyIndexError_of_le h, State.raiseOr_none]

/-- ExA1 of a key number skips by the inverse of that key's line. -/
theorem exec_sknp_of_le (h : (s.getV x).toNat ≤ 15) :
    exec (.sknp x) s = .next (s.skipIf (!s.keyDown (s.getV x).toNat)) := by
  simp only [exec, execSknp, keyIndexError_of_le h, State.raiseOr_none]

/-- Ex9E of a number above 15 raises KEY_INDEX_RANGE (D5). -/
theorem exec_skp_of_gt (h : 15 < (s.getV x).toNat) :
    exec (.skp x) s = .next (s.raise ⟨.keyIndexRange, (s.getV x).setWidth 17, .none⟩) := by
  simp only [exec, execSkp, keyIndexError_of_gt h, State.raiseOr_some]

/-- ExA1 of a number above 15 raises KEY_INDEX_RANGE (D5). -/
theorem exec_sknp_of_gt (h : 15 < (s.getV x).toNat) :
    exec (.sknp x) s = .next (s.raise ⟨.keyIndexRange, (s.getV x).setWidth 17, .none⟩) := by
  simp only [exec, execSknp, keyIndexError_of_gt h, State.raiseOr_some]

/-! ## The wait for a key (R267) -/

/-- While every key line is 0, an Fx0A sets awaiting_key. -/
theorem exec_ldVxK_of_no_key (h : s.key = 0) : exec (.ldVxK x) s = .next { s with awaitingKey := true } := by
  simp only [exec, execLdVxK, s.lowestKey?_eq_none_iff_key.2 h]

/-- An Fx0A loads the lowest index whose key line is 1 (D6). -/
theorem exec_ldVxK_of_lowest {k : Fin 16} (hdown : s.key.getLsbD k.val = true)
    (hlow : ∀ j, j < k.val → s.key.getLsbD j = false) : exec (.ldVxK x) s =
      .next ({ s.setV x (BitVec.ofNat 8 k) with awaitingKey := false } : State).advance := by
  have hk : s.lowestKey? = some k.val := (s.lowestKey?_eq_some k).2 ⟨k.isLt, hdown, hlow⟩
  simp only [exec, execLdVxK, hk]

/-- Setting awaiting_key keeps a frame that lists it. -/
theorem Frame.setAwaitingKey {l : List Part} {t : State} (h : Frame l s t) (hl : .awaitingKey ∈ l) (b : Bool) :
    Frame l s { t with awaitingKey := b } := by
  intro p hp
  have hsame := h p hp
  cases p with
  | awaitingKey => exact absurd hl hp
  | regs | index | pc | memory | stack | sp | delayTimer | soundTimer | display | keys | drawRequested | driver | cyc
      | lastInstr | err | host | glyphRom => exact hsame

/-- Writing V[x] and awaiting_key and advancing changes those parts and PC only. -/
theorem frame_setV_setAwaitingKey_advance (b : Byte) (c : Bool) :
    Frame [.regs, .awaitingKey, .pc] s ({ s.setV x b with awaitingKey := c } : State).advance :=
  ((frame_setV_advance s x b).mono (by decide)).setAwaitingKey (by decide) c

end

/-- Settles O39: up to 15 the skip's condition is the key's line or its inverse, and above 15 both raise. -/
theorem keySkips : Obligations.KeySkips := fun _ x =>
  ⟨decodeWord_of_eq_encode (wordX_eq 0xE x 0x9E), decodeWord_of_eq_encode (wordX_eq 0xE x 0xA1),
    fun h => ⟨skipsWhen_of_exec (exec_skp_of_le h) Iff.rfl,
      skipsWhen_of_exec (exec_sknp_of_le h) (.of_eq (Bool.not_eq_true' _))⟩,
    fun h => ⟨completes_raise (exec_skp_of_gt h), completes_raise (exec_sknp_of_gt h)⟩⟩

/-- Settles O41: the scan finds no key exactly when every line is 0, and else the lowest index whose line is 1. -/
theorem keyWaitTakesLowestKey : Obligations.KeyWaitTakesLowestKey := by
  refine fun s x => ⟨decodeWord_of_eq_encode (wordX_eq 0xF x 0x0A),
    fun h => ⟨_, exec_ldVxK_of_no_key h, rfl, (Frame.refl _ s).setAwaitingKey (by decide) true⟩, fun k hdown hlow => ?_⟩
  refine ⟨_, exec_ldVxK_of_lowest hdown hlow, ?_, fun r hr => s.getV_setV_ne x r _ hr, rfl, rfl,
    frame_setV_setAwaitingKey_advance _ _⟩
  calc ((s.setV x (BitVec.ofNat 8 k)).getV x).toNat
      = (BitVec.ofNat 8 k.val).toNat := by rw [State.getV_setV_self]
    _ = k.val := Nat.mod_eq_of_lt (by omega)

end Sys2Proof.Machine
end

section
/-! SUPPORT. The timer step over many cycles (60_exceptions.md R312): from cyc = 0, j steps make j / N drops and leave
j % N in cyc. -/

namespace Sys2Proof.Machine

/-! ## One timer step -/

/-- A timer drops by one and stays at 0 (R312). -/
theorem timerDrop_toNat (b : Byte) : (timerDrop b).toNat = b.toNat - 1 := by
  by_cases hb : b = 0
  · rw [timerDrop, if_pos hb, hb]
    rfl
  · have hpos : b.toNat ≠ 0 := fun h0 => hb (BitVec.eq_of_toNat_eq h0)
    rw [timerDrop, if_neg hb]
    bv_omega

theorem State.timerStep_dt_toNat (s : State) (n : Nat) :
    (s.timerStep n).dt.toNat = if s.cyc + 1 = n then s.dt.toNat - 1 else s.dt.toNat := by
  rw [State.timerStep, apply_ite BitVec.toNat, timerDrop_toNat]

theorem State.timerStep_st_toNat (s : State) (n : Nat) :
    (s.timerStep n).st.toNat = if s.cyc + 1 = n then s.st.toNat - 1 else s.st.toNat := by
  rw [State.timerStep, apply_ite BitVec.toNat, timerDrop_toNat]

/-! ## Many timer steps -/

/-- Counting to N: the remainder returns to 0, and the quotient grows, exactly when the remainder was N - 1. -/
theorem succ_mod_div (j : Nat) {n : Nat} (hn : 1 ≤ n) :
    (j + 1) % n = (if j % n + 1 = n then 0 else j % n + 1) ∧
      (j + 1) / n = if j % n + 1 = n then j / n + 1 else j / n := by
  have hj := Nat.div_add_mod j n
  have hlt := Nat.mod_lt j hn
  by_cases h : j % n + 1 = n
  · have hsucc : (j + 1) / n = j / n + 1 ∧ (j + 1) % n = 0 :=
      (Nat.div_mod_unique hn).2 ⟨by rw [Nat.mul_add_one]; omega, hn⟩
    simpa only [if_pos h, and_comm] using hsucc
  · have hsame : (j + 1) / n = j / n ∧ (j + 1) % n = j % n + 1 :=
      (Nat.div_mod_unique hn).2 ⟨by omega, by omega⟩
    simpa only [if_neg h, and_comm] using hsame

/-- The cadence of N cycles (R312). -/
theorem State.timerStep_iterate {n : Nat} (hn : 1 ≤ n) {s : State} (hs : s.cyc = 0) (j : Nat) :
    ((State.timerStep n)^[j] s).cyc = j % n ∧
      ((State.timerStep n)^[j] s).dt.toNat = s.dt.toNat - j / n ∧
      ((State.timerStep n)^[j] s).st.toNat = s.st.toNat - j / n := by
  induction j with
  | zero => simpa using hs
  | succ j ih =>
    obtain ⟨hcyc, hdt, hst⟩ := ih
    obtain ⟨hmod, hdiv⟩ := succ_mod_div j hn
    rw [Function.iterate_succ_apply', State.timerStep_dt_toNat, State.timerStep_st_toNat, hcyc, hdt, hst, hmod, hdiv]
    refine ⟨by rw [State.timerStep, hcyc], ?_, ?_⟩ <;> split <;> omega

/-- Settles O42: one timer step, its iteration from cyc = 0, and no cycle outside Running. -/
theorem timersDropEveryNCycles : Obligations.TimersDropEveryNCycles := fun n s hn =>
  ⟨rfl, s.timerStep_dt_toNat n, s.timerStep_st_toNat n, frame_timerStep n s, State.timerStep_iterate hn,
    fun _ hd => if_neg hd⟩

end Sys2Proof.Machine
end

section
/-! SUPPORT. The errors (60_exceptions.md R301-R305): which error an instruction raises and when, what a cycle leaves when
it records one, and the order of a cycle (R311). -/

namespace Sys2Proof.Machine

/-! ## The error an instruction raises (R301) -/

/-- The errors an instruction can raise in a state, each with its reason (R301; D5, D7, D9, D16). -/
inductive Raises (s : State) : Instr → BlockError → Prop
  | stackOverflow (nnn : Addr12) (h : s.sp.val = 16) : Raises s (.call nnn) ⟨.stackOverflow, 16, .none⟩
  | stackUnderflow (h : s.sp.val = 0) : Raises s .ret ⟨.stackUnderflow, 0, .none⟩
  | addressRange {i : Instr} {kind : AccessKind} {n : Nat} (hi : MovesBytes i kind n) (h : 0x1000 < s.addrI + n) :
      Raises s i ⟨.addressRange, BitVec.ofNat 17 (max s.addrI 0x1000), kind⟩
  | glyphWrite {i : Instr} {n : Nat} (hi : MovesBytes i .write n) (h : s.addrI ≤ 0x04F) :
      Raises s i ⟨.glyphWrite, BitVec.ofNat 17 s.addrI, .none⟩
  | keyIndexRange {i : Instr} (x : Reg) (hi : i = .skp x ∨ i = .sknp x) (h : 15 < (s.getV x).toNat) :
      Raises s i ⟨.keyIndexRange, (s.getV x).setWidth 17, .none⟩
  | iOverflow (x : Reg) (h : 0xFFFF < indexSum s x) :
      Raises s (.addIVx x) ⟨.iOverflow, s.regI.setWidth 17, .none⟩

/-- The error of a range is ADDRESS_RANGE at its first address above 0xFFF, or GLYPH_WRITE at its first address
(20_memory.md R80). -/
theorem rangeError_cases {kind : AccessKind} {a n : Nat} {e : BlockError} (h : rangeError kind a n = some e) :
    (0x1000 < a + n ∧ e = ⟨.addressRange, BitVec.ofNat 17 (max a 0x1000), kind⟩) ∨
      (kind = .write ∧ a ≤ 0x04F ∧ e = ⟨.glyphWrite, BitVec.ofNat 17 a, .none⟩) := by
  obtain ⟨k, hk, he, hlow⟩ := rangeError_eq_some.1 h
  have hoff : Offends kind (a + k) := by
    by_contra hno
    rw [accessError_eq_none_iff_not_offends.2 hno] at he
    cases he
  have hfirst (j : Nat) (hj : j < k) : ¬ Offends kind (a + j) :=
    accessError_eq_none_iff_not_offends.1 (hlow j hj)
  rw [accessError_of_offends hoff] at he
  obtain rfl := Option.some.inj he
  by_cases hhigh : 0xFFF < a + k
  · have hmax : a + k = max a 0x1000 := by
      rcases k.eq_zero_or_pos with rfl | hpos
      · omega
      · have : ¬ 0xFFF < a + (k - 1) := fun hgt => hfirst (k - 1) (by omega) (.inl hgt)
        omega
    rw [if_pos hhigh]
    exact .inl ⟨by omega, by rw [hmax]⟩
  · obtain ⟨hw, hglyph⟩ := hoff.resolve_left hhigh
    have hk0 : k = 0 := by
      by_contra hne
      exact hfirst 0 (by omega) (.inr ⟨hw, by omega⟩)
    subst hk0
    rw [if_neg hhigh]
    exact .inr ⟨hw, hglyph, rfl⟩

section

variable {s t : State}

/-- A check followed by an ending that leaves err records an error only if the check answers it. -/
theorem raise_of_raiseOr {u : State} {e? : Option BlockError}
    (h : (Host.Outcome.next (s.raiseOr e? u) : Host.Outcome State Fault Refusal) = .next t) (hu : u.err = s.err)
    (hne : t.err ≠ s.err) : ∃ e, e? = some e ∧ t = s.raise e := by
  rcases exec_raiseOr h with hraise | ⟨-, rfl⟩
  · exact hraise
  · exact absurd hu hne

/-- An instruction that moves bytes raises the error of its range, if any. -/
theorem MovesBytes.raises {i : Instr} {kind : AccessKind} {n : Nat} (hi : MovesBytes i kind n)
    (h : exec i s = .next t) (hne : t.err ≠ s.err) : ∃ e, Raises s i e ∧ t = s.raise e := by
  obtain ⟨u, hu, herr, -⟩ := exec_of_movesBytes hi s
  obtain ⟨e, he, ht⟩ := raise_of_raiseOr (hu.symm.trans h) herr hne
  refine ⟨e, ?_, ht⟩
  rcases rangeError_cases he with ⟨hend, rfl⟩ | ⟨rfl, hglyph, rfl⟩
  · exact .addressRange hi hend
  · exact .glyphWrite hi hglyph

/-- A key skip raises the error of its key number, if any. -/
theorem keySkip_raises {i : Instr} {x : Reg} (hi : i = .skp x ∨ i = .sknp x) (h : exec i s = .next t)
    (hne : t.err ≠ s.err) : ∃ e, Raises s i e ∧ t = s.raise e := by
  have hu : ∃ c, exec i s = .next (s.raiseOr (keyIndexError (s.getV x)) (s.skipIf c)) := by
    rcases hi with rfl | rfl <;> exact ⟨_, rfl⟩
  obtain ⟨c, hu⟩ := hu
  obtain ⟨e, he, ht⟩ := raise_of_raiseOr (hu.symm.trans h) rfl hne
  obtain ⟨hx, he⟩ := Option.ite_none_right_eq_some.1 he
  obtain rfl := Option.some.inj he
  exact ⟨_, .keyIndexRange x hi hx, ht⟩

/-- An instruction that records an error raises one of `Raises`, and does nothing else. -/
theorem exec_raises {i : Instr} (h : exec i s = .next t) (hne : t.err ≠ s.err) :
    ∃ e, Raises s i e ∧ t = s.raise e := by
  cases i
  case ret =>
    rcases s.sp.val.eq_zero_or_pos with hs | hs
    · exact ⟨_, .stackUnderflow hs, next_inj (h.symm.trans (exec_ret_of_empty hs))⟩
    · obtain rfl := next_inj (h.symm.trans (exec_ret_of_pos hs))
      exact absurd rfl hne
  case call nnn =>
    by_cases hs : s.sp.val < 16
    · obtain rfl := next_inj (h.symm.trans (exec_call_of_lt hs))
      exact absurd rfl hne
    · have hs : s.sp.val = 16 := by omega
      exact ⟨_, .stackOverflow nnn hs, next_inj (h.symm.trans (exec_call_of_full hs))⟩
  case drw x y n => exact (MovesBytes.sprite x y n).raises h hne
  case ldBVx x => exact (MovesBytes.decimal x).raises h hne
  case ldMemVx x => exact (MovesBytes.store x).raises h hne
  case ldVxMem x => exact (MovesBytes.load x).raises h hne
  case skp x => exact keySkip_raises (.inl rfl) h hne
  case sknp x => exact keySkip_raises (.inr rfl) h hne
  case addIVx x =>
    obtain ⟨e, he, ht⟩ := raise_of_raiseOr h rfl hne
    obtain ⟨hx, he⟩ := Option.ite_none_right_eq_some.1 he
    obtain rfl := Option.some.inj he
    exact ⟨_, .iOverflow x hx, ht⟩
  case ldVxK x =>
    obtain rfl := next_inj h
    revert hne
    cases s.lowestKey? <;> exact fun hne => absurd rfl hne
  case cls | jp | jpV0 | seImm | sneImm | seReg | sneReg | ldImm | addImm | ldReg | orReg | andReg | xorReg | addReg
      | sub | shr | subn | shl | ldI | rnd | ldVxDT | ldDTVx | ldSTVx | ldFVx =>
    obtain rfl := next_inj h
    exact absurd rfl hne

end

/-- An instruction's error has an access kind exactly if it is ADDRESS_RANGE (R302, D16). -/
theorem Raises.kind_eq_none_iff {s : State} {i : Instr} {e : BlockError} (h : Raises s i e) :
    e.kind = .none ↔ e.code ≠ .addressRange := by
  cases h with
  | addressRange hi => cases hi <;> simp
  | stackOverflow | stackUnderflow | glyphWrite | keyIndexRange | iOverflow => simp

/-- Settles O47: the record is that of `Raises`, error by error. -/
theorem errorsByInstruction : Obligations.ErrorsByInstruction := by
  intro i s t r hs h hr
  obtain ⟨e, he, rfl⟩ := exec_raises h (by simp [hs, hr])
  obtain rfl := Option.some.inj hr
  have haddr : s.addrI < 2 ^ 16 := s.regI.isLt
  cases he with
  | stackOverflow nnn hsp => exact ⟨⟨nnn, rfl⟩, hsp, rfl⟩
  | stackUnderflow hsp => exact ⟨rfl, hsp, rfl⟩
  | addressRange hi hend => exact ⟨_, hi, hend, Nat.mod_eq_of_lt (by omega)⟩
  | glyphWrite hi hglyph => exact ⟨_, hi, hglyph, Nat.mod_eq_of_lt (by omega)⟩
  | keyIndexRange x hi hx => exact ⟨x, hi, hx, BitVec.toNat_setWidth_of_le (by decide)⟩
  | iOverflow x hx => exact ⟨x, rfl, hx, BitVec.toNat_setWidth_of_le (by decide)⟩

/-! ## The order of a cycle (R305, R311) -/

/-- A cycle whose fetch fails raises ADDRESS_RANGE with the word 0 and leaves last_instr (R302; 20_memory.md R77). -/
theorem runCycle_of_fetch_error {s : State} (hpc : 0xFFE < s.pc.toNat) (n : Nat) (inp : CycleInput) :
    runCycle n inp s =
      .next ((s.sample inp).raiseWith 0 ⟨.addressRange, BitVec.ofNat 17 (max s.pc.toNat 0x1000), .fetch⟩) := by
  obtain ⟨t, ht, ⟨-, rfl⟩ | ⟨hle, -⟩⟩ := runCycle_cases s n inp
  · exact ht
  · omega

/-- Settles O44: the fetch, the decoder and the instruction, each with what precedes it known to succeed. -/
theorem cycleRunsInOrder : Obligations.CycleRunsInOrder := fun n inp _ =>
  ⟨fun hpc => runCycle_of_fetch_error hpc n inp, fun hpc _ hd => runCycle_of_decode_error hpc hd n inp,
    fun hpc _ hd => runCycle_of_decode_ok hpc hd n inp⟩

/-! ## A cycle that records an error (R302-R304) -/

@[simp] theorem State.finishCycle_err (s : State) (n : Nat) : (s.finishCycle n).err = s.err := by
  rcases s.finishCycle_cases n with ⟨-, h⟩ | ⟨-, h⟩ <;> rw [h]
  rfl

/-- A cycle that records an error is the sampled state with the error raised: that of the fetch, or one of the word at
PC. -/
theorem runCycle_raises {n : Nat} {inp : CycleInput} {s t : State} (h : runCycle n inp s = .next t)
    (hne : t.err ≠ s.err) :
    (0xFFE < s.pc.toNat ∧
      t = (s.sample inp).raiseWith 0 ⟨.addressRange, BitVec.ofNat 17 (max s.pc.toNat 0x1000), .fetch⟩) ∨
    (s.pc.toNat ≤ 0xFFE ∧ ∃ e, t = (s.executing inp s.wordAtPC).raise e ∧
      (e.kind = .none ↔ e.code ≠ .addressRange)) := by
  rcases Nat.lt_or_ge 0xFFE s.pc.toNat with hpc | hpc
  · exact .inl ⟨hpc, next_inj (h.symm.trans (runCycle_of_fetch_error hpc n inp))⟩
  · refine .inr ⟨hpc, ?_⟩
    cases hd : decodeWord s.wordAtPC with
    | error d => exact ⟨_, next_inj (h.symm.trans (runCycle_of_decode_error hpc hd n inp)), by simp⟩
    | ok i =>
      obtain ⟨u, hu, hcyc⟩ := runCycle_of_decode_ok hpc hd n inp
      obtain rfl := next_inj (h.symm.trans hcyc)
      rw [State.finishCycle_err] at hne
      obtain ⟨e, he, rfl⟩ := exec_raises hu hne
      exact ⟨e, State.finishCycle_of_not _ (by simp), he.kind_eq_none_iff⟩

/-- Writing the key sample, the random byte, last_instr, err and the driver changes no other part. -/
theorem frame_setCycleFields {s : State} {k : BitVec 16} {b : Byte} {w : Word} {e : Option ErrRecord} {d : Driver} :
    Frame [.keys, .lastInstr, .err, .driver, .host] s
      { s with key := k, rand := b, lastInstr := w, err := e, driver := d } := by
  intro p hp
  cases p with
  | keys | lastInstr | err | driver | host => exact absurd (by decide) hp
  | regs | memory | stack => exact fun _ => rfl
  | display => exact fun _ _ => rfl
  | index | pc | sp | delayTimer | soundTimer | drawRequested | awaitingKey | cyc | glyphRom => rfl

/-- Settles O45: raising writes err and the driver, after the sample and, if the fetch succeeded, last_instr. -/
theorem errorsArePrecise : Obligations.ErrorsArePrecise := by
  intro n inp s t _ hs h he
  rcases runCycle_raises h (by rwa [hs]) with ⟨hpc, rfl⟩ | ⟨hpc, e, rfl, -⟩
  · exact ⟨rfl, rfl, rfl, rfl, fun hle => by omega, fun _ => rfl, frame_setCycleFields⟩
  · exact ⟨rfl, rfl, rfl, rfl, fun _ => rfl, fun hgt => by omega, frame_setCycleFields⟩

/-- Settles O46: a failed fetch records the word 0, every other error the word fetched. -/
theorem errorRecordContents : Obligations.ErrorRecordContents := by
  intro n inp s t r hs h hr
  rcases runCycle_raises h (by simp [hs, hr]) with ⟨hpc, rfl⟩ | ⟨hpc, e, rfl, hkind⟩
  · obtain rfl := Option.some.inj hr
    exact ⟨rfl, fun hle => by omega, fun _ => ⟨rfl, rfl⟩, by simp⟩
  · obtain rfl := Option.some.inj hr
    exact ⟨rfl, fun _ => rfl, fun hgt => by omega, hkind⟩

end Sys2Proof.Machine
end

section
/-! SUPPORT. The host's actions in one gap (60_exceptions.md R315): what the gap leaves of each, entries that are one gap,
and that every step answers a next state. -/

namespace Sys2Proof.Machine

/-! ## Pause and resume (R310) -/

/-- The driver state a pause or a resume leaves, unless the block is stopped. -/
def DriverReq.target : DriverReq → Driver
  | .pause => .paused
  | .resume => .running

theorem DriverReq.target_ne_stopped (r : DriverReq) : r.target ≠ .stopped := by cases r <;> decide

section

variable {s : State} (hd : s.driver ≠ .stopped)
include hd

theorem State.driverReq_of_not_stopped (r : DriverReq) : s.driverReq r = { s with driver := r.target } := by
  cases hs : s.driver with
  | stopped => exact absurd hs hd
  | running =>
    cases r with
    | pause => exact State.pauseReq_of_running hs
    | resume => rw [State.driverReq, State.resumeReq_of_not_paused (by simp [hs]), DriverReq.target, ← hs]
  | paused =>
    cases r with
    | pause => rw [State.driverReq, State.pauseReq_of_not_running (by simp [hs]), DriverReq.target, ← hs]
    | resume => exact State.resumeReq_of_paused hs

/-- Pause and resume requests write the driver only, and never stop the block. -/
theorem State.foldl_driverReq_of_not_stopped (l : List DriverReq) :
    ∃ d, d ≠ .stopped ∧ l.foldl State.driverReq s = { s with driver := d } := by
  induction l generalizing s with
  | nil => exact ⟨s.driver, hd, rfl⟩
  | cons r l ih =>
    rw [List.foldl_cons, State.driverReq_of_not_stopped hd]
    exact ih r.target_ne_stopped

/-- The last request sent decides (R315). -/
theorem State.foldl_driverReq_concat (l : List DriverReq) (r : DriverReq) :
    (l ++ [r]).foldl State.driverReq s = { s with driver := r.target } := by
  obtain ⟨d, hne, hl⟩ := State.foldl_driverReq_of_not_stopped hd l
  rw [List.foldl_concat, hl]
  exact State.driverReq_of_not_stopped hne r

/-- A reset leaves the block Running (R361), no reset leaves it as it is. -/
theorem State.driver_ne_stopped_of_reset (r : Bool) : (if r then s.resetReq else s).driver ≠ .stopped := by
  cases r with
  | false => exact hd
  | true =>
    rw [if_pos rfl, State.resetReq_of_not_stopped hd]
    exact Driver.noConfusion

end

/-! ## A gap without a quit (R315) -/

/-- A gap whose pause and resume requests leave the driver state `d` is the reset, if any, then `d`, then draw_ack. -/
theorem State.gapActions_of_foldl {s : State} {r : Bool} {l : List DriverReq} {d : Driver}
    (hl : l.foldl State.driverReq (if r then s.resetReq else s) =
      { (if r then s.resetReq else s : State) with driver := d }) (a : Bool) (c : Option CycleInput) :
    s.gapActions ⟨false, r, l, a, c⟩ = { (if r then s.resetReq else s : State) with
      driver := d, drawRequested := if a then false else (if r then s.resetReq else s).drawRequested } := by
  have hquit : ¬ (false = true ∧ s.driver ≠ .stopped) := fun h => Bool.false_ne_true h.1
  simp only [State.gapActions, if_neg hquit, hl]
  cases a <;> rfl

/-- Writing the driver and draw_requested changes no other part. -/
theorem frame_setDriver_setDrawRequested (s : State) (d : Driver) (b : Bool) :
    Frame [.driver, .drawRequested] s { s with driver := d, drawRequested := b } := by
  intro p hp
  cases p with
  | driver | drawRequested => exact absurd (by decide) hp
  | regs | memory | stack => exact fun _ => rfl
  | display => exact fun _ _ => rfl
  | host => exact ⟨rfl, rfl, rfl⟩
  | index | pc | sp | delayTimer | soundTimer | keys | awaitingKey | cyc | lastInstr | err | glyphRom => rfl

/-! ## Two entries of one gap (R315; log entry 14) -/

/-- An entry that requests no cycle is one gap with the next. -/
theorem step_join {s : State} {g : HostGap} (hg : g.cycle = none) (h : HostGap) (rest : List HostGap) :
    step { s with host := g :: h :: rest } = step { s with host := g.join h :: rest } := by
  have hgap : ({ s with host := g :: h :: rest } : State).nextGap =
      ({ s with host := g.join h :: rest } : State).nextGap :=
    congrArg some (HostGap.take_join hg h rest)
  cases hn : ({ s with host := g.join h :: rest } : State).nextGap with
  | none => cases (State.nextGap_eq_none _).1 hn
  | some p => simp only [step, stepWith, hgap, hn]

/-- Settles O53: two entries join by `step_join`; a quit voids the rest, and without one the gap is
`State.gapActions_of_foldl`. -/
theorem hostActionsInOrder : Obligations.HostActionsInOrder := by
  refine ⟨fun s g h rest hg => step_join hg h rest, fun s hd r a l c => ?_⟩
  have hreset (r : Bool) := State.driver_ne_stopped_of_reset hd r
  obtain ⟨d, -, hl⟩ := State.foldl_driverReq_of_not_stopped (hreset r) l
  obtain ⟨d', -, hl'⟩ := State.foldl_driverReq_of_not_stopped (hreset true) l
  refine ⟨State.gapActions_of_quit rfl hd, ?_, ?_, ?_, ?_, ?_⟩
  · rw [State.gapActions_of_foldl (State.foldl_driverReq_concat (hreset r) l .pause)]
    rfl
  · rw [State.gapActions_of_foldl (State.foldl_driverReq_concat (hreset r) l .resume)]
    rfl
  · rw [State.gapActions_of_foldl hl, if_pos rfl]
  · rw [State.gapActions_of_foldl hl]
    exact frame_setDriver_setDrawRequested _ _ _
  · rw [State.gapActions_of_foldl hl', if_neg Bool.false_ne_true, if_pos rfl, State.resetReq_of_not_stopped hd]
    rfl

/-! ## Every step (R304, R311, R315) -/

/-- The actions of a gap leave the rest of the script. -/
@[simp] theorem State.gapActions_host (s : State) (g : HostGap) : (s.gapActions g).host = s.host := by
  refine State.gapActions_keeps (P := fun t => t.host = s.host) s g (fun _ h => h) (fun t h => ?_) (fun t r h => ?_)
    (fun _ h => h) rfl
  · rw [State.resetReq]
    split <;> exact h
  · cases r <;> simp only [State.driverReq, State.pauseReq, State.resumeReq] <;> split <;> exact h

@[simp] theorem State.finishCycle_host (s : State) (n : Nat) : (s.finishCycle n).host = s.host := by
  rcases s.finishCycle_cases n with ⟨-, h⟩ | ⟨-, h⟩ <;> rw [h]
  rfl

/-- Every cycle answers a next state, and leaves the script. -/
theorem runCycle_next (n : Nat) (inp : CycleInput) (s : State) :
    ∃ t, runCycle n inp s = .next t ∧ t.host = s.host := by
  obtain ⟨t, ht, ⟨-, rfl⟩ | ⟨-, w, -, ⟨d, -, rfl⟩ | ⟨i, u, -, hu, rfl⟩⟩⟩ := runCycle_cases s n inp
  · exact ⟨_, ht, rfl⟩
  · exact ⟨_, ht, rfl⟩
  · refine ⟨_, ht, (u.finishCycle_host n).trans ?_⟩
    rcases exec_driver_fields hu with ⟨e, rfl⟩ | ⟨-, -, -, -, -, -, hhost, -⟩
    · rfl
    · exact hhost

/-- Settles O58: a step is a gap and a cycle, a gap alone, a cycle alone, or nothing. -/
theorem everyStepAnswersNext : Obligations.EveryStepAnswersNext := by
  intro s
  rcases stepWith_cases s Config.timerDivisor with
    ⟨g, rest, hg, u, rfl, ⟨inp, -, -, he⟩ | ⟨-, he⟩⟩ | ⟨hs, ⟨hrun, he⟩ | ⟨-, he⟩⟩
  · obtain ⟨t, ht, hhost⟩ := runCycle_next Config.timerDivisor inp (({ s with host := rest } : State).gapActions g)
    refine ⟨t, he.trans ht, fun _ hs => ?_, ?_⟩
    · cases hg.symm.trans (s.nextGap_eq_none.2 hs)
    · rw [hg]
      exact hhost.trans (State.gapActions_host _ g)
  · refine ⟨_, he, fun _ hs => ?_, ?_⟩
    · cases hg.symm.trans (s.nextGap_eq_none.2 hs)
    · rw [hg]
      exact State.gapActions_host _ g
  · obtain ⟨t, ht, hhost⟩ := runCycle_next Config.timerDivisor ⟨Config.keysIn s.draws, Config.randIn s.draws⟩
      { s with draws := s.draws + 1 }
    refine ⟨t, he.trans ht, fun hd => absurd hrun hd, ?_⟩
    rw [s.nextGap_eq_none.2 hs]
    exact hhost.trans hs
  · refine ⟨s, he, fun _ _ => rfl, ?_⟩
    rw [s.nextGap_eq_none.2 hs]
    exact hs

end Sys2Proof.Machine
end

section
/-! SUPPORT. Reset (70_reset_and_hazards.md R361, R362): what the registers, the stack, the pixels and memory read as
after the reset sequence. -/

namespace Sys2Proof.Machine

section

variable (s : State)

@[simp] theorem State.getV_resetVolatile (x : Reg) : s.resetVolatile.getV x = 0 := by
  simp [State.getV, State.resetVolatile]

@[simp] theorem State.stackAt_resetVolatile (j : Fin 16) : s.resetVolatile.stackAt j = 0 := by
  simp [State.stackAt, State.resetVolatile]

@[simp] theorem State.pixel_resetVolatile (r : Fin 32) (c : Fin 64) : s.resetVolatile.pixel r c = false := by
  simp [State.pixel, pixelOf, State.resetVolatile]

/-- The reset sequence keeps memory (R362). -/
@[simp] theorem State.readByte_resetVolatile (a : Nat) : s.resetVolatile.readByte a = s.readByte a :=
  s.readByte_congr s.resetVolatile rfl rfl a

end

/-- Settles O54: in Stopped a reset is nothing; elsewhere it is the reset sequence, which writes each volatile field. -/
theorem resetClearsVolatileState : Obligations.ResetClearsVolatileState := by
  refine fun s => ⟨State.resetReq_of_stopped, fun hd => ?_⟩
  rw [State.resetReq_of_not_stopped hd]
  exact ⟨s.getV_resetVolatile, rfl, rfl, s.stackAt_resetVolatile, rfl, rfl, rfl, s.pixel_resetVolatile, rfl, rfl, rfl,
    rfl, rfl, rfl, rfl, rfl, s.readByte_resetVolatile, rfl⟩

end Sys2Proof.Machine
end
